-- ==== Sys2Proof/Word.lean ====
section
/-! DEFINITION. The word types of LPC (R9): bit 0 is the least significant bit of every word. -/

namespace Sys2Proof

/-- A 32-bit command, operand, result or register word, and the encoding of a binary32 sample
(00_scope.md R7, R11). -/
abbrev Word := BitVec 32

/-- A 16-bit two's-complement integer: a codec sample or a GSM working word (10_state.md R35). -/
abbrev Half := BitVec 16

/-- A compander byte or one byte of the GSM frame (10_state.md R36). -/
abbrev Byte := BitVec 8

end Sys2Proof
end

