-- ==== Sys2Proof/Syntax.lean ====
section
/-! DEFINITION. The commands of LPC: what the host presents, and the 21 commands of the opcode map (30_encoding.md R84).
Index fields of the command word are numbers (R81); the operand word is held at its kind's width (R82). -/

namespace Sys2Proof

/-- What the host presents at the command port (30_encoding.md R80). -/
structure Command where
  cmd   : Word
  wdata : Word
deriving DecidableEq, Repr

/-- One constructor per row of the opcode map (R84): the fields of `cmd` in the order `c, ch, k` or `imm16`, then the
operand (R88). -/
inductive Instr where
  | nop
  | prepare (nch : Nat) (fs : Word)
  | setord (order : Word)
  | setpar (mode d : BitVec 16)
  | getpar
  | setcodec (id : Word)
  | reset
  | rdreg (addr : Nat)
  | apply (c ch k : Nat) (x : Word)
  | cascade (c ch : Nat) (x : Word)
  | decim (ch : Nat) (x : Word)
  | wrx (ch : Nat) (x : Word)
  | rdy (ch : Nat)
  | step
  | voxenc (ch : Nat) (v : Half)
  | voxdec (ch : Nat) (code : BitVec 4)
  | ulenc (pcm : Half)
  | uldec (b : Byte)
  | alenc (pcm : Half)
  | aldec (b : Byte)
  | gsmpush (v : BitVec 13)
deriving DecidableEq, Repr

end Sys2Proof
end

