-- ==== Sys2Proof/WellFormed.lean ====
section
/-! DEFINITION. Which instruction terms a command can spell (30_encoding.md R81): an index fits its 4-bit field, an
immediate its 16-bit field. Whether the value is LEGAL is the command's own check (R81, R251). -/

namespace Sys2Proof

/-- The fields of the command word fit their widths. -/
def Instr.wf : Instr → Bool
  | .prepare nch _ => decide (nch < 2 ^ 16)
  | .rdreg addr => decide (addr < 2 ^ 16)
  | .apply c ch k _ => decide (c < 16) && decide (ch < 16) && decide (k < 16)
  | .cascade c ch _ => decide (c < 16) && decide (ch < 16)
  | .decim ch _ => decide (ch < 16)
  | .wrx ch _ => decide (ch < 16)
  | .rdy ch => decide (ch < 16)
  | .voxenc ch _ => decide (ch < 16)
  | .voxdec ch _ => decide (ch < 16)
  | .nop | .setord _ | .setpar _ _ | .getpar | .setcodec _ | .reset | .step => true
  | .ulenc _ | .uldec _ | .alenc _ | .aldec _ | .gsmpush _ => true

end Sys2Proof
end

