-- ==== Sys2Proof/Decode.lean ====
section
/-! DEFINITION. The command decoder and encoder (30_encoding.md R81 to R87, R94), and the opcode map of R84 as data. -/

namespace Sys2Proof

/-! ## Fields of the command word (R81) -/

/-- `op = cmd[31:24]`. -/
def opOf (cmd : Word) : Nat := (cmd.extractLsb' 24 8).toNat
/-- `ch = cmd[23:20]`. -/
def chOf (cmd : Word) : Nat := (cmd.extractLsb' 20 4).toNat
/-- `c = cmd[19:16]`. -/
def cOf (cmd : Word) : Nat := (cmd.extractLsb' 16 4).toNat
/-- `k = cmd[15:12]`. -/
def kOf (cmd : Word) : Nat := (cmd.extractLsb' 12 4).toNat
/-- `imm16 = cmd[15:0]`. -/
def immOf (cmd : Word) : Nat := (cmd.extractLsb' 0 16).toNat

/-- The command word formats of R81; `kz` is format `K` with `k = 0` (`CASCADE`). -/
inductive Format where
  | n | c | k | kz | i
deriving DecidableEq, Repr

/-- The bits the format shows as 0 are 0 (R81). -/
def Format.zerosOk : Format → Word → Bool
  | .n, w => w.extractLsb' 0 24 == 0#24
  | .c, w => w.extractLsb' 0 20 == 0#20
  | .k, w => w.extractLsb' 0 12 == 0#12
  | .kz, w => w.extractLsb' 0 16 == 0#16
  | .i, w => w.extractLsb' 16 8 == 0#8

/-- Why a command word is illegal (R86); either way the command raises `ILLEGAL_CMD`. -/
inductive DecodeError where
  /-- `op` is not in the opcode map. Raised by decode; safe: it is R86's own check. -/
  | reservedOp
  /-- A bit the format shows as 0 is 1. Raised by decode; safe: it is R86's own check. -/
  | mustBeZero
deriving DecidableEq, Repr

/-- The row of the opcode map an `op` selects (R84): its format, and the instruction read from the fields of `cmd` and
from `wdata`, assembled as its operand kind says (R82). -/
def rowOf (op : Nat) (w : Command) : Option (Format × Instr) :=
  match op with
  | 0x00 => some (.n, .nop)
  | 0x01 => some (.i, .prepare (immOf w.cmd) w.wdata)
  | 0x02 => some (.n, .setord w.wdata)
  | 0x03 => some (.n, .setpar (w.wdata.extractLsb' 16 16) (w.wdata.extractLsb' 0 16))
  | 0x04 => some (.n, .getpar)
  | 0x05 => some (.n, .setcodec w.wdata)
  | 0x06 => some (.n, .reset)
  | 0x07 => some (.i, .rdreg (immOf w.cmd))
  | 0x10 => some (.k, .apply (cOf w.cmd) (chOf w.cmd) (kOf w.cmd) w.wdata)
  | 0x11 => some (.kz, .cascade (cOf w.cmd) (chOf w.cmd) w.wdata)
  | 0x12 => some (.c, .decim (chOf w.cmd) w.wdata)
  | 0x18 => some (.c, .wrx (chOf w.cmd) w.wdata)
  | 0x19 => some (.c, .rdy (chOf w.cmd))
  | 0x1A => some (.n, .step)
  | 0x20 => some (.c, .voxenc (chOf w.cmd) (w.wdata.extractLsb' 0 16))
  | 0x21 => some (.c, .voxdec (chOf w.cmd) (w.wdata.extractLsb' 0 4))
  | 0x28 => some (.n, .ulenc (w.wdata.extractLsb' 0 16))
  | 0x29 => some (.n, .uldec (w.wdata.extractLsb' 0 8))
  | 0x2A => some (.n, .alenc (w.wdata.extractLsb' 0 16))
  | 0x2B => some (.n, .aldec (w.wdata.extractLsb' 0 8))
  | 0x30 => some (.n, .gsmpush (w.wdata.extractLsb' 0 13))
  | _ => none

/-- The decoder, total on every command (R84, R86). -/
def decode (w : Command) : Except DecodeError Instr :=
  match rowOf (opOf w.cmd) w with
  | none => .error .reservedOp
  | some (f, i) => if f.zerosOk w.cmd then .ok i else .error .mustBeZero

/-! ## The encoder -/

/-- A command word from its opcode and its bits 23:0 given as a number (R81). -/
def cmdWord (op low : Nat) : Word := BitVec.ofNat 32 (op * 2 ^ 24 + low)

/-- The command a well-formed instruction is written as (R81, R82, R84); operand bits its kind does not use are 0. -/
def encode : Instr → Command
  | .nop => ⟨cmdWord 0x00 0, 0#32⟩
  | .prepare nch fs => ⟨cmdWord 0x01 nch, fs⟩
  | .setord order => ⟨cmdWord 0x02 0, order⟩
  | .setpar mode d => ⟨cmdWord 0x03 0, mode ++ d⟩
  | .getpar => ⟨cmdWord 0x04 0, 0#32⟩
  | .setcodec id => ⟨cmdWord 0x05 0, id⟩
  | .reset => ⟨cmdWord 0x06 0, 0#32⟩
  | .rdreg addr => ⟨cmdWord 0x07 addr, 0#32⟩
  | .apply c ch k x => ⟨cmdWord 0x10 (ch * 2 ^ 20 + c * 2 ^ 16 + k * 2 ^ 12), x⟩
  | .cascade c ch x => ⟨cmdWord 0x11 (ch * 2 ^ 20 + c * 2 ^ 16), x⟩
  | .decim ch x => ⟨cmdWord 0x12 (ch * 2 ^ 20), x⟩
  | .wrx ch x => ⟨cmdWord 0x18 (ch * 2 ^ 20), x⟩
  | .rdy ch => ⟨cmdWord 0x19 (ch * 2 ^ 20), 0#32⟩
  | .step => ⟨cmdWord 0x1A 0, 0#32⟩
  | .voxenc ch v => ⟨cmdWord 0x20 (ch * 2 ^ 20), v.setWidth 32⟩
  | .voxdec ch code => ⟨cmdWord 0x21 (ch * 2 ^ 20), code.setWidth 32⟩
  | .ulenc pcm => ⟨cmdWord 0x28 0, pcm.setWidth 32⟩
  | .uldec b => ⟨cmdWord 0x29 0, b.setWidth 32⟩
  | .alenc pcm => ⟨cmdWord 0x2A 0, pcm.setWidth 32⟩
  | .aldec b => ⟨cmdWord 0x2B 0, b.setWidth 32⟩
  | .gsmpush v => ⟨cmdWord 0x30 0, v.setWidth 32⟩

/-! ## The opcode map as data (R84) -/

/-- A row's `match` and `mask`: a command word `w` spells the row exactly when `w & mask = match`. -/
structure OpRow where
  pat  : Word
  mask : Word
deriving DecidableEq, Repr

/-- The row spells the command word. -/
def OpRow.spells (r : OpRow) (w : Word) : Bool := w &&& r.mask == r.pat

/-- The 21 rows of R84, in its order. -/
def opcodeMap : List OpRow :=
  [⟨0x00000000#32, 0xFFFFFFFF#32⟩, ⟨0x01000000#32, 0xFFFF0000#32⟩, ⟨0x02000000#32, 0xFFFFFFFF#32⟩,
   ⟨0x03000000#32, 0xFFFFFFFF#32⟩, ⟨0x04000000#32, 0xFFFFFFFF#32⟩, ⟨0x05000000#32, 0xFFFFFFFF#32⟩,
   ⟨0x06000000#32, 0xFFFFFFFF#32⟩, ⟨0x07000000#32, 0xFFFF0000#32⟩] ++
  [⟨0x10000000#32, 0xFF000FFF#32⟩, ⟨0x11000000#32, 0xFF00FFFF#32⟩, ⟨0x12000000#32, 0xFF0FFFFF#32⟩,
   ⟨0x18000000#32, 0xFF0FFFFF#32⟩, ⟨0x19000000#32, 0xFF0FFFFF#32⟩, ⟨0x1A000000#32, 0xFFFFFFFF#32⟩] ++
  [⟨0x20000000#32, 0xFF0FFFFF#32⟩, ⟨0x21000000#32, 0xFF0FFFFF#32⟩, ⟨0x28000000#32, 0xFFFFFFFF#32⟩,
   ⟨0x29000000#32, 0xFFFFFFFF#32⟩, ⟨0x2A000000#32, 0xFFFFFFFF#32⟩, ⟨0x2B000000#32, 0xFFFFFFFF#32⟩,
   ⟨0x30000000#32, 0xFFFFFFFF#32⟩]

/-! ## The host's question about one table row -/

/-- The command whose bits are `w`, bit 0 the least significant bit of `cmd`, bit 32 that of `wdata`; every bit from
`nbits` on is 0 (log 15). -/
def commandOfBits (nbits w : Nat) : Command :=
  ⟨BitVec.ofNat 32 (w % 2 ^ nbits), BitVec.ofNat 32 (w % 2 ^ nbits / 2 ^ 32)⟩

/-- The instruction the decoder reads from an instruction whose bits are `w`. -/
def decodeTableWord (nbits w : Nat) : Option Instr :=
  match decode (commandOfBits nbits w) with
  | .ok i => some i
  | .error _ => none

end Sys2Proof
end

