-- ==== Sys2Proof/Config.lean ====
section
/-! DEFINITION. What an implementation fixes: the sizes this spec decides (R6, R7) and the parameters it leaves
OPEN (R8; 92_eei_decisions.md section 2), the latter as ONE opaque record together with the free values. -/

namespace Sys2Proof

/-- `NCH_MAX`, the channels of storage (00_scope.md R7). -/
abbrev nchMax : Nat := 2

/-- `NSEC_MAX`, the sections of storage per chain (00_scope.md R7). -/
abbrev nsecMax : Nat := 8

/-- `FRAME_LEN` (00_scope.md R6). -/
abbrev frameLen : Nat := 160

/-- `FRAME_BYTES` (00_scope.md R6). -/
abbrev frameBytes : Nat := 33

/-- `GSM_BUFS` (00_scope.md R6). -/
abbrev gsmBufs : Nat := 3

/-- One coefficient set of a second-order section, five binary32 encodings (10_state.md R29). -/
structure Coef where
  b0 : Word
  b1 : Word
  b2 : Word
  a1 : Word
  a2 : Word
deriving DecidableEq, Repr, Inhabited

/-- Where in a command a binary32 operation stands. Each site is executed at most once in a command, so a free NaN
indexed by command and site is a fresh one. -/
inductive Site where
  /-- One of the operations of `Apply(c, ch, k, x)` (R115). -/
  | sec (c ch k : Nat)
  /-- One of the operations of `LowCut` (R209). -/
  | lowcut
  /-- The sum and the halving of the downmix (R208). -/
  | downmix
  /-- The gain multiplication of `HoldAndFilter(ch, ..)` (R140). -/
  | gain (ch : Nat)
deriving DecidableEq, Repr

/-- The frame codec's own internal state, `GsmCodec.State`: opaque to the spec (10_state.md R37), held as a list of
integers so that State stays plain data (log 7). -/
abbrev GState := List Int

/-- The configuration record `GsmCodec` (44_gsm_frame.md R201): total functions of their arguments, nothing else. -/
structure GsmCodec where
  init   : GState
  encode : GState → Vector Half frameLen → GState × Vector Byte frameBytes
  decode : GState → Vector Byte frameBytes → GState × Vector Half frameLen
deriving Inhabited

/-- The VOX tables (42_vox_adpcm.md R161, R162): `STEP` is a first entry and the rest, so `NSTEP >= 1` and every step
is positive by type (93_implementation_defined.md U15). -/
structure VoxTables where
  step0      : ℕ+
  steps      : List ℕ+
  indexDelta : BitVec 4 → Int
deriving Inhabited

/-- The record `ULAW` (43_companders.md R181, R184, R185). Segment `s` holds the biased magnitudes below `bound s`;
`noSeg` is the free value the segment takes where no boundary admits the magnitude (log 11). -/
structure Ulaw where
  clip  : Nat
  bias  : Nat
  mask  : Byte
  bound : Fin 8 → Nat
  noSeg : Nat → Fin 8
  table : Byte → Half
deriving Inhabited

/-- The record `ALAW` (43_companders.md R182, R186, R187). Segment `s` holds the magnitudes up to `sega s`. -/
structure Alaw where
  mask  : Byte
  sega  : Fin 8 → Nat
  noSeg : Nat → Fin 8
  table : Byte → Half
deriving Inhabited

/-- Every OPEN parameter (00_scope.md R8) and every free value. `design` has exactly `N/2` entries by type, which is
`P_LEN` (R112, U13). -/
structure Config where
  /-- `Design(fs, D, N)` (R110). -/
  design   : Word → Nat → (n : Nat) → Vector Coef (n / 2)
  /-- `GAIN[d]` (R143). -/
  gain     : Nat → Word
  vox      : VoxTables
  ulaw     : Ulaw
  alaw     : Alaw
  gsm      : GsmCodec
  /-- `LOWCUT`, absent or one coefficient set (R209). -/
  lowcut   : Option Coef
  /-- Free value: the `rdata` of a faulting command (R252, U1), by command (log 3). -/
  freeWord : Nat → Word
  /-- Free value: the NaN a binary32 operation returns (R11, U5), by command, site and operation (log 4). -/
  freeNaN  : Nat → Site → Nat → Word
deriving Inhabited

/-- The configuration of THE machine, uninterpreted: no body, so nothing can be proved of a value of it and a
statement about the machine holds for every configuration (R8; log 6). -/
opaque Config.lpc : Config

end Sys2Proof
end

