-- ==== Sys2Proof/Machine/State.lean ====
section
/-! DEFINITION. The architectural state of LPC as plain data (10_state.md R20 to R37), the host's command stream
(R22, R80), the reasons a step can stop, and the state after power-on reset (R40, R280). -/

namespace Sys2Proof.Machine

/-- Why the machine stops with a fault: never. Every command completes (60_exceptions.md R264) and LPC goes on after
a fault of its own (R257), which is a NEXT state with `STATUS.FAULT` set (`State.raise`). Raised by nobody; safe. -/
inductive Fault where
deriving DecidableEq, Repr

/-- Why a step is refused. -/
inductive Refusal where
  /-- The instruction of this mnemonic has no meaning yet. Raised by an arm of `exec` that names it; no arm does.
  Safe: a refusal proves nothing about the hardware. -/
  | notModelled (mnemonic : String)
deriving DecidableEq, Repr

/-- The fields of `STATUS` (10_state.md R23); the 32-bit word is `Status.word`. -/
structure Status where
  prepared : Bool
  fault    : Bool
  cause    : BitVec 4
deriving DecidableEq, Repr, Inhabited

/-- `CODEC`, the selected codec variant (10_state.md R28). -/
inductive Codec where
  | none | vox | mulaw | alaw | gsm
deriving DecidableEq, Repr, Inhabited

/-- The delay line of one section, `(s1, s2)` (10_state.md R30). -/
structure Delay where
  s1 : Word
  s2 : Word
deriving DecidableEq, Repr, Inhabited

/-- `VOX[dir][ch] = (pred, idx)` (10_state.md R34). -/
structure VoxState where
  pred : Int
  idx  : Nat
deriving DecidableEq, Repr, Inhabited

/-- `ROLE = (rin, rwork, rout)`: which physical GSM buffer plays which role (10_state.md R35). -/
structure Role where
  rin   : Fin gsmBufs
  rwork : Fin gsmBufs
  rout  : Fin gsmBufs
deriving DecidableEq, Repr, Inhabited

/-- The state of LPC, one field per piece of state of 10_state.md, then the host's side of the command port, then
the model's own counter. -/
structure State where
  /-- `STATUS` (R23). -/
  status  : Status
  /-- `FS` (R24). -/
  fs      : Word
  /-- `NCH` (R25). -/
  nch     : Nat
  /-- `ORDER` (R26). -/
  order   : Nat
  /-- `D` (R27). -/
  d       : Nat
  /-- `MODE` (R27). -/
  mode    : Nat
  /-- `CODEC` (R28). -/
  codec   : Codec
  /-- `COEF[k]` (R29). -/
  coef    : Vector Coef nsecMax
  /-- `Z[c][ch][k]` (R30). -/
  z       : Vector (Vector (Vector Delay nsecMax) nchMax) 2
  /-- `LCZ` (R31). -/
  lcz     : Delay
  /-- `CNT[ch]` (R32). -/
  cnt     : Vector (BitVec 4) nchMax
  /-- `HELD[ch]` (R33). -/
  held    : Vector Word nchMax
  /-- `VOX[dir][ch]` (R34). -/
  vox     : Vector (Vector VoxState nchMax) 2
  /-- `BUF[p][i]` (R35). -/
  buf     : Vector (Vector Half frameLen) gsmBufs
  /-- `ROLE` (R35). -/
  role    : Role
  /-- `GIDX` (R36). -/
  gidx    : Fin frameLen
  /-- `FRAME[i]` (R36). -/
  frame   : Vector Byte frameBytes
  /-- `GSTATE` (R37). -/
  gstate  : GState
  /-- `XIN[ch]` (R21). -/
  xin     : Vector Word nchMax
  /-- `YOUT[ch]` (R21). -/
  yout    : Vector Word nchMax
  /-- The list of commands the host gives (R22, R80); host state (log 1). -/
  stream  : List Command
  /-- The index into that list (R22); host state (log 1). -/
  pc      : Nat
  /-- The answer to the last command (R80; log 2). -/
  rdata   : Word
  /-- The MODEL's own counter of free values (log 5). -/
  freeIdx : Nat
deriving DecidableEq, Repr

/-- `(+0.0, +0.0)`. -/
def Delay.zero : Delay := ⟨0#32, 0#32⟩

/-- Five `+0.0`. -/
def Coef.zero : Coef := ⟨0#32, 0#32, 0#32, 0#32, 0#32⟩

/-- Power-on reset of an LPC with configuration `cfg` (10_state.md R40; 70_reset_and_hazards.md R280), no command
presented and nothing answered yet (log 1, 2, 5). -/
def State.resetWith (cfg : Config) : State where
  status  := ⟨false, false, 0#4⟩
  fs      := 0#32
  nch     := 0
  order   := 8
  d       := 1
  mode    := 1
  codec   := .none
  coef    := Vector.replicate nsecMax Coef.zero
  z       := Vector.replicate 2 (Vector.replicate nchMax (Vector.replicate nsecMax Delay.zero))
  lcz     := Delay.zero
  cnt     := Vector.replicate nchMax 0#4
  held    := Vector.replicate nchMax 0#32
  vox     := Vector.replicate 2 (Vector.replicate nchMax ⟨0, 0⟩)
  buf     := Vector.replicate gsmBufs (Vector.replicate frameLen 0#16)
  role    := ⟨0, 1, 2⟩
  gidx    := 0
  frame   := Vector.replicate frameBytes 0#8
  gstate  := cfg.gsm.init
  xin     := Vector.replicate nchMax 0#32
  yout    := Vector.replicate nchMax 0#32
  stream  := []
  pc      := 0
  rdata   := 0#32
  freeIdx := 0

/-- The machine right after power-on reset (R40, R280). -/
def State.reset : State := State.resetWith Config.lpc

end Sys2Proof.Machine
end

