-- ==== Sys2Proof/Machine/Flags.lean ====
section
/-! DEFINITION. `STATUS`: its word, the fault causes, and how a fault and `PREPARE` write it (10_state.md R23;
60_exceptions.md R251, R252). LPC has no arithmetic flags. -/

namespace Sys2Proof.Machine

/-- The six fault causes (R251). -/
inductive Cause where
  | illegalCmd | notPrepared | badChannel | badSection | badConfig | badRegaddr
deriving DecidableEq, Repr

/-- The cause codes (R251). -/
def Cause.code : Cause → BitVec 4
  | .illegalCmd => 1#4
  | .notPrepared => 2#4
  | .badChannel => 3#4
  | .badSection => 4#4
  | .badConfig => 5#4
  | .badRegaddr => 6#4

/-- `STATUS` as the register space shows it: `PREPARED` in bit 0, `FAULT` in bit 1, `CAUSE` in bits 7:4, 0 elsewhere
(R23). -/
def Status.word (s : Status) : Word :=
  0#24 ++ s.cause ++ 0#2 ++ BitVec.ofBool s.fault ++ BitVec.ofBool s.prepared

/-- What a fault writes (R252): `FAULT` is set, and `CAUSE` if `FAULT` was 0. -/
def Status.raise (s : Status) (c : Cause) : Status :=
  ⟨s.prepared, true, if s.fault then s.cause else c.code⟩

/-- `PREPARED <- 1` (R228). -/
def Status.prepare (s : Status) : Status := ⟨true, s.fault, s.cause⟩

end Sys2Proof.Machine
end

