-- ==== Sys2Proof/Machine/Float.lean ====
section
/-! DEFINITION. binary32 (00_scope.md R11): `fadd`, `fsub`, `fmul` on encodings, round to nearest even with gradual
underflow, never fused; `snap` (R114). A result that is a NaN is SOME NaN: `none` until a free value picks it
(log 4, 19). -/

namespace Sys2Proof.Machine

/-- What an encoding stands for: a NaN, an infinity, or `(-1)^neg * mant * 2^exp`. -/
inductive FVal where
  | nan
  | inf (neg : Bool)
  | fin (neg : Bool) (mant : Nat) (exp : Int)
deriving DecidableEq, Repr

/-- The exponent field, bits 30:23 (R63). -/
def expField (w : Word) : Nat := (w.extractLsb' 23 8).toNat

/-- The fraction field, bits 22:0 (R63). -/
def fracField (w : Word) : Nat := (w.extractLsb' 0 23).toNat

/-- `f32(w)` (R11). -/
def unpack (w : Word) : FVal :=
  if expField w = 255 then (if fracField w = 0 then .inf w.msb else .nan)
  else if expField w = 0 then .fin w.msb (fracField w) (-149)
  else .fin w.msb (2 ^ 23 + fracField w) (expField w - 150)

/-- The encoding is a NaN's. -/
def isNaN (w : Word) : Bool := expField w == 255 && fracField w != 0

/-- The encoding is a finite number's. -/
def isFinite (w : Word) : Bool := expField w != 255

/-- The encoding is a subnormal's: exponent field 0, fraction nonzero (R114). -/
def isSubnormal (w : Word) : Bool := expField w == 0 && fracField w != 0

/-- `snap(v)` (R114): a subnormal becomes `+0.0`, everything else is kept. -/
def snap (w : Word) : Word := if isSubnormal w then 0#32 else w

/-- `m / 2^k` rounded to the nearest integer, ties to even. -/
def shiftRNE (m k : Nat) : Nat :=
  let q := m / 2 ^ k
  let r := m % 2 ^ k
  if 2 * r < 2 ^ k then q else if 2 ^ k < 2 * r then q + 1 else q + q % 2

/-- The encoding of `+inf`; any larger magnitude overflows to it. -/
def infBits : Nat := 0x7F800000

/-- The encoding with the sign bit given and bits 30:0 given as a number. -/
def signed (neg : Bool) (mag : Nat) : Word := BitVec.ofNat 32 ((if neg then 2 ^ 31 else 0) + mag)

/-- The exponent of the last place kept for `m * 2^e`, `m` nonzero: 24 significant bits, or the subnormal grid. -/
def ulpExp (m : Nat) (e : Int) : Int := max ((m.log2 : Int) + e - 23) (-149)

/-- Bits 30:0 of `m * 2^e` rounded to nearest even. An encoding counts in units of the last place, so the carry of a
rounding into the next binade, and a subnormal's, need no case of their own. -/
def roundMag (m : Nat) (e : Int) : Nat :=
  if m = 0 then 0
  else
    let q := ulpExp m e
    let r := if q ≤ e then m * 2 ^ (e - q).toNat else shiftRNE m (q - e).toNat
    min ((q + 149).toNat * 2 ^ 23 + r) infBits

/-- The binary32 encoding nearest to `(-1)^neg * m * 2^e`. -/
def round32 (neg : Bool) (m : Nat) (e : Int) : Word := signed neg (roundMag m e)

/-- The exact sum of two finite values on the grid `2^e`, `e` the lower of the two exponents. -/
def alignedInt (neg : Bool) (m : Nat) (e low : Int) : Int :=
  let v : Int := (m * 2 ^ (e - low).toNat : Nat)
  if neg then -v else v

/-- `fadd` up to the choice of a NaN (R11). An exact zero sum is `-0.0` only when both operands are negative. -/
def faddR (a b : Word) : Option Word :=
  match unpack a, unpack b with
  | .nan, _ => none
  | _, .nan => none
  | .inf s, .inf t => if s = t then some (signed s infBits) else none
  | .inf s, .fin _ _ _ => some (signed s infBits)
  | .fin _ _ _, .inf t => some (signed t infBits)
  | .fin s m e, .fin t n f =>
    let low := min e f
    let v := alignedInt s m e low + alignedInt t n f low
    if v = 0 then some (signed (s && t) 0) else some (round32 (decide (v < 0)) v.natAbs low)

/-- The sign of an encoding flipped. -/
def fneg (w : Word) : Word := w ^^^ 0x80000000#32

/-- `fsub` up to the choice of a NaN (R11). -/
def fsubR (a b : Word) : Option Word := faddR a (fneg b)

/-- `fmul` up to the choice of a NaN (R11). -/
def fmulR (a b : Word) : Option Word :=
  match unpack a, unpack b with
  | .nan, _ => none
  | _, .nan => none
  | .inf s, .inf t => some (signed (s != t) infBits)
  | .inf s, .fin t n _ => if n = 0 then none else some (signed (s != t) infBits)
  | .fin s m _, .inf t => if m = 0 then none else some (signed (s != t) infBits)
  | .fin s m e, .fin t n f => some (round32 (s != t) (m * n) (e + f))

/-- A free word made a NaN: itself where it is one, so that every NaN can be the result (log 4). -/
def toNaN (free : Word) : Word := if isNaN free then free else 0x7FC00000#32

/-- The result word, its NaN picked by `free`. -/
def pick (free : Word) (r : Option Word) : Word := r.getD (toNaN free)

/-- `fadd(a, b)`; `free` picks the NaN. -/
def fadd (free a b : Word) : Word := pick free (faddR a b)
/-- `fsub(a, b)`; `free` picks the NaN. -/
def fsub (free a b : Word) : Word := pick free (fsubR a b)
/-- `fmul(a, b)`; `free` picks the NaN. -/
def fmul (free a b : Word) : Word := pick free (fmulR a b)

end Sys2Proof.Machine
end

