-- ==== Sys2Proof/Machine/Operands.lean ====
section
/-! DEFINITION. What an operand's bits stand for (30_encoding.md R82), how a result becomes `rdata` (R83), the integer
primitives of R10, and the conversions between samples and codec integers (41_decimator.md R147). The bit slices of
`wdata` themselves are the decoder's. -/

namespace Sys2Proof.Machine

/-! ## Integers (R10) -/

/-- `clamp(v, lo, hi)`. -/
def clamp (v lo hi : Int) : Int := if v < lo then lo else if hi < v then hi else v

/-- `sat_n(v)`. -/
def sat (n : Nat) (v : Int) : Int := clamp v (-(2 ^ (n - 1))) (2 ^ (n - 1) - 1)

/-! ## Operands (R82) -/

/-- Kind `s16`: `sext_16(wdata[15:0])`. -/
def opS16 (v : Half) : Int := v.toInt

/-! ## Results (R83) -/

/-- No result. -/
def resNone : Word := 0#32
/-- Kind `f32`: `bits(y)`. -/
def resF32 (y : Word) : Word := y
/-- Kind `u4`, zero-extended. -/
def resU4 (code : BitVec 4) : Word := code.setWidth 32
/-- Kind `u8`, zero-extended. -/
def resU8 (b : Byte) : Word := b.setWidth 32
/-- Kind `s16`, sign-extended. -/
def resS16 (s : Half) : Word := s.signExtend 32
/-- Kind `par`: `(MODE << 16) + D` (R94). -/
def resPar (mode d : Nat) : Word := BitVec.ofNat 32 (mode * 2 ^ 16 + d)

/-! ## Sample conversions (R147) -/

/-- `sat_n(trunc(v))` of a binary32 value; an infinity saturates. A NaN has none and gives 0. -/
def truncSat (n : Nat) (w : Word) : Int :=
  match unpack w with
  | .nan => 0
  | .inf neg => if neg then -(2 ^ (n - 1)) else 2 ^ (n - 1) - 1
  | .fin neg m e =>
    let mag : Int := (if 0 ≤ e then m * 2 ^ e.toNat else m / 2 ^ (-e).toNat : Nat)
    sat n (if neg then -mag else mag)

/-- `F2I` to `n` bits with the scale given as a binary32 encoding: `fmul`, then `trunc`, then `sat_n`; NaN gives 0. -/
def f2i (n : Nat) (scale x : Word) : Int :=
  match fmulR x scale with
  | none => 0
  | some p => truncSat n p

/-- `F2I16(x)`; the scale is `32768.0`. -/
def f2i16 (x : Word) : Half := BitVec.ofInt 16 (f2i 16 0x47000000#32 x)

/-- `F2I13(x)`; the scale is `4096.0`. -/
def f2i13 (x : Word) : BitVec 13 := BitVec.ofInt 13 (f2i 13 0x45800000#32 x)

/-- `I2F16(v)`: the binary32 value `v / 32768`, exact; zero is `+0.0` (log 12). -/
def i2f16 (v : Half) : Word := round32 v.msb v.toInt.natAbs (-15)

end Sys2Proof.Machine
end

