-- ==== Sys2Proof/Machine/Ops.lean ====
section
/-! DEFINITION. The shared operations over the state: indexed reads and writes, answering a command, raising a fault
(60_exceptions.md R252), `Rebuild` (40_filter_cascade.md R118), `ResetState` (45_module_control.md R223) and the
register space (20_memory.md R61, R62). -/

namespace Sys2Proof.Machine

/-! ## Indexed storage -/

/-- Entry `i`; past the end the default, which no command reads in a state a run reaches (log 13). -/
def vget {α : Type} {n : Nat} [Inhabited α] (v : Vector α n) (i : Nat) : α :=
  if h : i < n then v[i] else default

/-- Entry `i` replaced; past the end nothing is written (log 13). -/
def vset {α : Type} {n : Nat} (v : Vector α n) (i : Nat) (a : α) : Vector α n :=
  if h : i < n then v.set i a else v

namespace State

/-- `NSEC = ORDER / 2` (R26). -/
def nsec (s : State) : Nat := s.order / 2

/-- `COEF[k]` (R29). -/
def coefAt (s : State) (k : Nat) : Coef := vget s.coef k
/-- `Z[c][ch][k]` (R30). -/
def zAt (s : State) (c ch k : Nat) : Delay := vget (vget (vget s.z c) ch) k
/-- `CNT[ch]` (R32). -/
def cntAt (s : State) (ch : Nat) : BitVec 4 := vget s.cnt ch
/-- `HELD[ch]` (R33). -/
def heldAt (s : State) (ch : Nat) : Word := vget s.held ch
/-- `VOX[dir][ch]` (R34). -/
def voxAt (s : State) (dir ch : Nat) : VoxState := vget (vget s.vox dir) ch
/-- `XIN[ch]` (R21). -/
def xinAt (s : State) (ch : Nat) : Word := vget s.xin ch
/-- `YOUT[ch]` (R21). -/
def youtAt (s : State) (ch : Nat) : Word := vget s.yout ch
/-- `BUF[p][i]` (R35). -/
def bufAt (s : State) (p i : Nat) : Half := vget (vget s.buf p) i
/-- `FRAME[i]` (R36). -/
def frameAt (s : State) (i : Nat) : Byte := vget s.frame i

/-- `Z[c][ch][k] <- v`. -/
def setZ (s : State) (c ch k : Nat) (v : Delay) : State :=
  { s with z := vset s.z c (vset (vget s.z c) ch (vset (vget (vget s.z c) ch) k v)) }
/-- `LCZ <- v`. -/
def setLcz (s : State) (v : Delay) : State := { s with lcz := v }
/-- `CNT[ch] <- v`. -/
def setCnt (s : State) (ch : Nat) (v : BitVec 4) : State := { s with cnt := vset s.cnt ch v }
/-- `HELD[ch] <- v`. -/
def setHeld (s : State) (ch : Nat) (v : Word) : State := { s with held := vset s.held ch v }
/-- `VOX[dir][ch] <- v`. -/
def setVox (s : State) (dir ch : Nat) (v : VoxState) : State :=
  { s with vox := vset s.vox dir (vset (vget s.vox dir) ch v) }
/-- `XIN[ch] <- v`. -/
def setXin (s : State) (ch : Nat) (v : Word) : State := { s with xin := vset s.xin ch v }
/-- `YOUT[ch] <- v`. -/
def setYout (s : State) (ch : Nat) (v : Word) : State := { s with yout := vset s.yout ch v }

/-! ## How a command ends -/

/-- `rdata <- w`: the command is complete (R80, R83). -/
def answer (s : State) (w : Word) : State := { s with rdata := w, freeIdx := s.freeIdx + 1 }

/-- `raise Fault(cause)` (R252): nothing is written but `STATUS`; `rdata` is any word, a free value (U1, log 3). The
run goes on (R257); there is no handler and no return (R255, R256). -/
def raise (cfg : Config) (s : State) (c : Cause) : State :=
  { s with status := s.status.raise c, rdata := cfg.freeWord s.freeIdx, freeIdx := s.freeIdx + 1 }

/-- A command that raises its first failing check, or else leaves `done`: every check precedes every write (R252,
R253), and either way the command completes (R264). -/
def complete (cfg : Config) (s : State) (check : Option Cause) (done : State) :
    Host.Outcome State Fault Refusal :=
  .next (match check with
    | some c => s.raise cfg c
    | none => done)

/-- The checks of a command on one channel: `NOT_PREPARED`, then `BAD_CHANNEL` (R251, R253). -/
def channelCheck (s : State) (ch : Nat) : Option Cause :=
  if s.status.prepared = false then some .notPrepared
  else if s.nch ≤ ch then some .badChannel
  else none

/-! ## Rebuild and ResetState -/

/-- What `Rebuild` stores in `COEF[k]` (R118). -/
def designedCoef (cfg : Config) (fs : Word) (d order : Nat) : Vector Coef nsecMax :=
  Vector.ofFn fun k => if h : k.val < order / 2 then (cfg.design fs d order)[k.val] else Coef.zero

/-- Every delay line of every chain and channel at `(+0.0, +0.0)`. -/
def zeroDelays : Vector (Vector (Vector Delay nsecMax) nchMax) 2 :=
  Vector.replicate 2 (Vector.replicate nchMax (Vector.replicate nsecMax Delay.zero))

/-- `Rebuild()` (R118): the coefficients redesigned, every delay line discarded, nothing else. -/
def rebuild (cfg : Config) (s : State) : State :=
  { s with coef := designedCoef cfg s.fs s.d s.order, z := zeroDelays, lcz := Delay.zero }

/-- A rebuild of the new configuration when something changed and the unit is prepared (R119). -/
def rebuildIf (cfg : Config) (changed : Bool) (s : State) : State :=
  if changed && s.status.prepared then s.rebuild cfg else s

/-- `ResetState()` (R223): every delay line and all per-sample state at its reset value, over all storage. -/
def resetState (cfg : Config) (s : State) : State :=
  { s with
    z := zeroDelays
    lcz := Delay.zero
    cnt := Vector.replicate nchMax 0#4
    held := Vector.replicate nchMax 0#32
    vox := Vector.replicate 2 (Vector.replicate nchMax ⟨0, 0⟩)
    buf := Vector.replicate gsmBufs (Vector.replicate frameLen 0#16)
    role := ⟨0, 1, 2⟩
    gidx := 0
    frame := Vector.replicate frameBytes 0#8
    gstate := cfg.gsm.init }

end State

/-- The number a codec has in `CODEC` (R28). -/
def codecNum : Codec → Nat
  | .none => 0
  | .vox => 1
  | .mulaw => 2
  | .alaw => 3
  | .gsm => 4

/-- The codec an id selects: id 0 and every unknown id mean no module (R28, R222). -/
def codecOfId (id : Word) : Codec :=
  match id.toNat with
  | 1 => .vox
  | 2 => .mulaw
  | 3 => .alaw
  | 4 => .gsm
  | _ => .none

/-- `ROLE` as one word: `rin` in bits 1:0, `rwork` in bits 3:2, `rout` in bits 5:4 (R62). -/
def roleWord (r : Role) : Word := BitVec.ofNat 32 (r.rout.val * 16 + r.rwork.val * 4 + r.rin.val)

/-- Word `f` of a delay line: `s1`, then `s2` (R62). -/
def delayWord (z : Delay) (f : Nat) : Word := if f = 0 then z.s1 else z.s2

/-- Word `f` of a VOX pair: `pred` sign-extended, then `idx` (R62). -/
def voxWord (v : VoxState) (f : Nat) : Word := if f = 0 then BitVec.ofInt 32 v.pred else BitVec.ofNat 32 v.idx

/-- Word `j` of a coefficient set: `b0, b1, b2, a1, a2` (R62). -/
def coefWord (c : Coef) (j : Nat) : Word :=
  match j with
  | 0 => c.b0
  | 1 => c.b1
  | 2 => c.b2
  | 3 => c.a1
  | _ => c.a2

/-! ## The register space (R61, R62) -/

/-- One row of the register map, with its indices. -/
inductive Reg where
  | status | fs | nch | order | par | codec | nsec
  | cnt (ch : Nat) | held (ch : Nat) | xin (ch : Nat) | yout (ch : Nat)
  | vox (dir ch f : Nat)
  | coef (k j : Nat)
  | z (c ch k f : Nat)
  | gidx | role
  | lcz (f : Nat)
  | frame (i : Nat)
  | buf (p i : Nat)
deriving DecidableEq, Repr

/-- The word address of a register (R62, first column). -/
def regAddr : Reg → Nat
  | .status => 0x0000
  | .fs => 0x0001
  | .nch => 0x0002
  | .order => 0x0003
  | .par => 0x0004
  | .codec => 0x0005
  | .nsec => 0x0006
  | .cnt ch => 0x0010 + ch
  | .held ch => 0x0020 + ch
  | .xin ch => 0x0030 + ch
  | .yout ch => 0x0040 + ch
  | .vox dir ch f => 0x0080 + dir * 0x20 + ch * 2 + f
  | .coef k j => 0x0100 + k * 8 + j
  | .z c ch k f => 0x0200 + c * 0x200 + ch * 0x20 + k * 2 + f
  | .gidx => 0x0600
  | .role => 0x0601
  | .lcz f => 0x0602 + f
  | .frame i => 0x0700 + i
  | .buf p i => 0x0800 + p * 0x100 + i

/-- The indices are within the bounds of the map (R62). -/
def regExists : Reg → Bool
  | .cnt ch | .held ch | .xin ch | .yout ch => decide (ch < nchMax)
  | .vox dir ch f => decide (dir < 2) && decide (ch < nchMax) && decide (f < 2)
  | .coef k j => decide (k < nsecMax) && decide (j < 5)
  | .z c ch k f => decide (c < 2) && decide (ch < nchMax) && decide (k < nsecMax) && decide (f < 2)
  | .lcz f => decide (f < 2)
  | .frame i => decide (i < frameBytes)
  | .buf p i => decide (p < gsmBufs) && decide (i < frameLen)
  | .status | .fs | .nch | .order | .par | .codec | .nsec | .gidx | .role => true

/-- The row an address falls in, its indices read from the address and not yet checked against their bounds. -/
def regGuess (a : Nat) : Option Reg :=
  if a < 0x0010 then
    match a with
    | 0 => some .status
    | 1 => some .fs
    | 2 => some .nch
    | 3 => some .order
    | 4 => some .par
    | 5 => some .codec
    | 6 => some .nsec
    | _ => none
  else if a < 0x0020 then some (.cnt (a - 0x0010))
  else if a < 0x0030 then some (.held (a - 0x0020))
  else if a < 0x0040 then some (.xin (a - 0x0030))
  else if a < 0x0050 then some (.yout (a - 0x0040))
  else if a < 0x0080 then none
  else if a < 0x0100 then some (.vox ((a - 0x0080) / 0x20) ((a - 0x0080) % 0x20 / 2) (a % 2))
  else if a < 0x0200 then some (.coef ((a - 0x0100) / 8) (a % 8))
  else if a < 0x0600 then
    some (.z ((a - 0x0200) / 0x200) ((a - 0x0200) % 0x200 / 0x20) (a % 0x20 / 2) (a % 2))
  else if a = 0x0600 then some .gidx
  else if a = 0x0601 then some .role
  else if a < 0x0700 then some (.lcz (a - 0x0602))
  else if a < 0x0800 then some (.frame (a - 0x0700))
  else some (.buf ((a - 0x0800) / 0x100) (a % 0x100))

/-- The register mapped at an address; none where the address is unmapped (R62, R70). -/
def regAt (a : Nat) : Option Reg := (regGuess a).filter regExists

/-- The value a register reads as (R62, last column). -/
def regValue (s : State) : Reg → Word
  | .status => s.status.word
  | .fs => s.fs
  | .nch => BitVec.ofNat 32 s.nch
  | .order => BitVec.ofNat 32 s.order
  | .par => resPar s.mode s.d
  | .codec => BitVec.ofNat 32 (codecNum s.codec)
  | .nsec => BitVec.ofNat 32 s.nsec
  | .cnt ch => (s.cntAt ch).setWidth 32
  | .held ch => s.heldAt ch
  | .xin ch => s.xinAt ch
  | .yout ch => s.youtAt ch
  | .vox dir ch f => voxWord (s.voxAt dir ch) f
  | .coef k j => coefWord (s.coefAt k) j
  | .z c ch k f => delayWord (s.zAt c ch k) f
  | .gidx => BitVec.ofNat 32 s.gidx.val
  | .role => roleWord s.role
  | .lcz f => delayWord s.lcz f
  | .frame i => (s.frameAt i).setWidth 32
  | .buf p i => (s.bufAt p i).signExtend 32

/-- `MemRead(addr, 1)` (R61); none where the address is unmapped (R70). -/
def memRead (s : State) (a : Nat) : Option Word := (regAt a).map (regValue s)

end Sys2Proof.Machine
end

