-- ==== Sys2Proof/Machine/Compander.lean ====
section
/-! DEFINITION. The compander family (43_companders.md): `ULENC` (R184), `ULDEC` (R185), `ALENC` (R186), `ALDEC`
(R187). Stateless: each is a function of its operand and the law's record (R180). -/

namespace Sys2Proof.Machine

/-- The least segment `s` in `0 .. 7` that admits the magnitude, or the free one where none does (log 11). -/
def leastSeg (admits : Fin 8 → Bool) (free : Fin 8) : Fin 8 :=
  ((List.finRange 8).find? admits).getD free

/-- `(sign | (segment << 4) | mantissa) ^ mask` (R91). -/
def packByte (sign : Bool) (seg : Fin 8) (mant : BitVec 4) (mask : Byte) : Byte :=
  (BitVec.ofBool sign ++ BitVec.ofNat 3 seg.val ++ mant) ^^^ mask

/-- The clipped and biased magnitude of `UlEnc` (R184). -/
def ulMag (r : Ulaw) (pcm : Half) : Nat := min (opS16 pcm).natAbs r.clip + r.bias

/-- The mu-law segment of a biased magnitude (R184). -/
def ulSeg (r : Ulaw) (mag : Nat) : Fin 8 := leastSeg (fun i => decide (mag < r.bound i)) (r.noSeg mag)

/-- `UlEnc(pcm)` (R184). -/
def ulEnc (r : Ulaw) (pcm : Half) : Byte :=
  let mag := ulMag r pcm
  let seg := ulSeg r mag
  packByte (decide (opS16 pcm < 0)) seg (BitVec.ofNat 4 (mag >>> (seg.val + 3))) r.mask

/-- `UlDec(b)` (R185): the table is the reference form. -/
def ulDec (r : Ulaw) (b : Byte) : Half := r.table b

/-- `v = pcm >> 3` of `AlEnc` (R186). -/
def alReduce (pcm : Half) : Int := opS16 pcm >>> (3 : Nat)

/-- The magnitude of `AlEnc` (R186). -/
def alMag (pcm : Half) : Nat := (if 0 ≤ alReduce pcm then alReduce pcm else -alReduce pcm - 1).toNat

/-- The A-law segment of a magnitude (R186). -/
def alSeg (r : Alaw) (mag : Nat) : Fin 8 := leastSeg (fun i => decide (mag ≤ r.sega i)) (r.noSeg mag)

/-- `AlEnc(pcm)` (R186). -/
def alEnc (r : Alaw) (pcm : Half) : Byte :=
  let mag := alMag pcm
  let seg := alSeg r mag
  packByte (decide (0 ≤ alReduce pcm)) seg
    (BitVec.ofNat 4 (if seg.val < 2 then mag >>> 1 else mag >>> seg.val)) r.mask

/-- `AlDec(b)` (R187). -/
def alDec (r : Alaw) (b : Byte) : Half := r.table b

/-- `ULENC s` (R184). -/
def doUlenc (cfg : Config) (pcm : Half) (s : State) : Host.Outcome State Fault Refusal :=
  .next (s.answer (resU8 (ulEnc cfg.ulaw pcm)))

/-- `ULDEC b` (R185). -/
def doUldec (cfg : Config) (b : Byte) (s : State) : Host.Outcome State Fault Refusal :=
  .next (s.answer (resS16 (ulDec cfg.ulaw b)))

/-- `ALENC s` (R186). -/
def doAlenc (cfg : Config) (pcm : Half) (s : State) : Host.Outcome State Fault Refusal :=
  .next (s.answer (resU8 (alEnc cfg.alaw pcm)))

/-- `ALDEC b` (R187). -/
def doAldec (cfg : Config) (b : Byte) (s : State) : Host.Outcome State Fault Refusal :=
  .next (s.answer (resS16 (alDec cfg.alaw b)))

/-- The meaning of `ULENC`. -/
def execUlenc (pcm : Half) (s : State) : Host.Outcome State Fault Refusal := doUlenc Config.lpc pcm s
/-- The meaning of `ULDEC`. -/
def execUldec (b : Byte) (s : State) : Host.Outcome State Fault Refusal := doUldec Config.lpc b s
/-- The meaning of `ALENC`. -/
def execAlenc (pcm : Half) (s : State) : Host.Outcome State Fault Refusal := doAlenc Config.lpc pcm s
/-- The meaning of `ALDEC`. -/
def execAldec (b : Byte) (s : State) : Host.Outcome State Fault Refusal := doAldec Config.lpc b s

end Sys2Proof.Machine
end

