-- ==== Sys2Proof/Machine/Control.lean ====
section
/-! DEFINITION. Module control (45_module_control.md): `NOP` (R221), `PREPARE` (R228), `SETORD` (R227), `SETPAR` (R225),
`GETPAR` (R226), `SETCODEC` (R222), `RESET` (R224), `RDREG` (R229). -/

namespace Sys2Proof.Machine

/-- `NOP` (R221). -/
def doNop (s : State) : Host.Outcome State Fault Refusal := .next (s.answer resNone)

/-- The check of `PREPARE` (R228). -/
def prepareCheck (nch : Nat) (fs : Word) : Option Cause :=
  if fs = 0#32 ∨ nch = 0 ∨ nchMax < nch then some .badConfig else none

/-- `PREPARE nch, fs` (R228): always rebuilds, never calls `ResetState`. -/
def doPrepare (cfg : Config) (nch : Nat) (fs : Word) (s : State) : Host.Outcome State Fault Refusal :=
  s.complete cfg (prepareCheck nch fs)
    (({ s with fs := fs, nch := nch, status := s.status.prepare } : State).rebuild cfg |>.answer resNone)

/-- The check of `SETORD` (R227). -/
def setordCheck (order : Word) : Option Cause :=
  if order.toNat % 2 = 1 ∨ order.toNat < 2 ∨ 2 * nsecMax < order.toNat then some .badConfig else none

/-- `SETORD order` (R227). -/
def doSetord (cfg : Config) (order : Word) (s : State) : Host.Outcome State Fault Refusal :=
  s.complete cfg (setordCheck order)
    (({ s with order := order.toNat } : State).rebuildIf cfg (order.toNat != s.order) |>.answer resNone)

/-- The check of `SETPAR` (R225). -/
def setparCheck (mode d : BitVec 16) : Option Cause :=
  if d.toNat < 1 ∨ 8 < d.toNat ∨ mode.toNat < 1 ∨ 4 < mode.toNat then some .badConfig else none

/-- `SETPAR (mode << 16 | d)` (R225). -/
def doSetpar (cfg : Config) (mode d : BitVec 16) (s : State) : Host.Outcome State Fault Refusal :=
  s.complete cfg (setparCheck mode d)
    (({ s with d := d.toNat, mode := mode.toNat } : State).rebuildIf cfg (d.toNat != s.d) |>.answer resNone)

/-- `GETPAR` (R226). -/
def doGetpar (s : State) : Host.Outcome State Fault Refusal := .next (s.answer (resPar s.mode s.d))

/-- A change of the effective selection (R222): the old module destroyed, a fresh one constructed and prepared. -/
def selectCodec (cfg : Config) (new : Codec) (s : State) : State :=
  if new = s.codec then s
  else (({ s with codec := new } : State).resetState cfg).rebuildIf cfg true

/-- `SETCODEC id` (R222). -/
def doSetcodec (cfg : Config) (id : Word) (s : State) : Host.Outcome State Fault Refusal :=
  .next ((selectCodec cfg (codecOfId id) s).answer resNone)

/-- `RESET` (R224). -/
def doReset (cfg : Config) (s : State) : Host.Outcome State Fault Refusal :=
  .next ((s.resetState cfg).answer resNone)

/-- `RDREG addr` (R229). -/
def doRdreg (cfg : Config) (addr : Nat) (s : State) : Host.Outcome State Fault Refusal :=
  .next (match memRead s addr with
    | none => s.raise cfg .badRegaddr
    | some w => s.answer w)

/-- The meaning of `NOP`. -/
def execNop (s : State) : Host.Outcome State Fault Refusal := doNop s
/-- The meaning of `PREPARE`. -/
def execPrepare (nch : Nat) (fs : Word) (s : State) : Host.Outcome State Fault Refusal :=
  doPrepare Config.lpc nch fs s
/-- The meaning of `SETORD`. -/
def execSetord (order : Word) (s : State) : Host.Outcome State Fault Refusal := doSetord Config.lpc order s
/-- The meaning of `SETPAR`. -/
def execSetpar (mode d : BitVec 16) (s : State) : Host.Outcome State Fault Refusal := doSetpar Config.lpc mode d s
/-- The meaning of `GETPAR`. -/
def execGetpar (s : State) : Host.Outcome State Fault Refusal := doGetpar s
/-- The meaning of `SETCODEC`. -/
def execSetcodec (id : Word) (s : State) : Host.Outcome State Fault Refusal := doSetcodec Config.lpc id s
/-- The meaning of `RESET`. -/
def execReset (s : State) : Host.Outcome State Fault Refusal := doReset Config.lpc s
/-- The meaning of `RDREG`. -/
def execRdreg (addr : Nat) (s : State) : Host.Outcome State Fault Refusal := doRdreg Config.lpc addr s

end Sys2Proof.Machine
end

