-- ==== Sys2Proof/Machine/Filter.lean ====
section
/-! DEFINITION. The filter family (40_filter_cascade.md): one section, one chain, `APPLY` (R116), `CASCADE` (R117). -/

namespace Sys2Proof.Machine

/-- One step of a transposed direct form II section (R115): the output and the new delay line, every operation rounded
once in the order written, the unsquashed `y` feeding the state, the squashes last. `nan j` picks the NaN of operation
`j`. -/
def biquad (nan : Nat → Word) (q : Coef) (z : Delay) (x : Word) : Word × Delay :=
  let y := fadd (nan 1) (fmul (nan 0) q.b0 x) z.s1
  let n1 := fadd (nan 5) (fsub (nan 4) (fmul (nan 2) q.b1 x) (fmul (nan 3) q.a1 y)) z.s2
  let n2 := fsub (nan 8) (fmul (nan 6) q.b2 x) (fmul (nan 7) q.a2 y)
  (snap y, ⟨snap n1, snap n2⟩)

/-- `Apply(c, ch, k, x)` (R115): reads `COEF[k]` and `Z[c][ch][k]`, writes `Z[c][ch][k]` only. -/
def applySection (cfg : Config) (s : State) (c ch k : Nat) (x : Word) : Word × State :=
  let r := biquad (cfg.freeNaN s.freeIdx (.sec c ch k)) (s.coefAt k) (s.zAt c ch k) x
  (r.1, s.setZ c ch k r.2)

/-- The first `n` sections of a chain, the output of each the input of the next (R117). -/
def cascadeUpTo (cfg : Config) (s : State) (c ch : Nat) (x : Word) : Nat → Word × State
  | 0 => (x, s)
  | n + 1 =>
    let r := cascadeUpTo cfg s c ch x n
    applySection cfg r.2 c ch n r.1

/-- `Cascade(c, ch, x)` (R117): the `NSEC` sections in index order. -/
def cascadeChain (cfg : Config) (s : State) (c ch : Nat) (x : Word) : Word × State :=
  cascadeUpTo cfg s c ch x s.nsec

/-- The checks of `APPLY` (R116). -/
def applyCheck (s : State) (c ch k : Nat) : Option Cause :=
  match s.channelCheck ch with
  | some e => some e
  | none => if 1 < c ∨ s.nsec ≤ k then some .badSection else none

/-- `APPLY c, ch, k, x` (R116). -/
def doApply (cfg : Config) (c ch k : Nat) (x : Word) (s : State) : Host.Outcome State Fault Refusal :=
  let r := applySection cfg s c ch k x
  s.complete cfg (applyCheck s c ch k) (r.2.answer (resF32 r.1))

/-- The checks of `CASCADE` (R117). -/
def cascadeCheck (s : State) (c ch : Nat) : Option Cause :=
  match s.channelCheck ch with
  | some e => some e
  | none => if 1 < c then some .badSection else none

/-- `CASCADE c, ch, x` (R117). -/
def doCascade (cfg : Config) (c ch : Nat) (x : Word) (s : State) : Host.Outcome State Fault Refusal :=
  let r := cascadeChain cfg s c ch x
  s.complete cfg (cascadeCheck s c ch) (r.2.answer (resF32 r.1))

/-- The meaning of `APPLY`. -/
def execApply (c ch k : Nat) (x : Word) (s : State) : Host.Outcome State Fault Refusal :=
  doApply Config.lpc c ch k x s

/-- The meaning of `CASCADE`. -/
def execCascade (c ch : Nat) (x : Word) (s : State) : Host.Outcome State Fault Refusal :=
  doCascade Config.lpc c ch x s

end Sys2Proof.Machine
end

