-- ==== Sys2Proof/Machine/Gsm.lean ====
section
/-! DEFINITION. The GSM frame engine (44_gsm_frame.md): `GSMPUSH` (R203), the downmix (R208) and `LowCut` (R209). -/

namespace Sys2Proof.Machine

/-- The working word of a 13-bit sample, `sext_16((v << 3) & 0xFFF8)` (R202). -/
def workWord (v : BitVec 13) : Half := (v.signExtend 16 <<< 3) &&& 0xFFF8#16

/-- The round trip of a full input buffer (R203): rotate input and working, encode, decode in place, rotate working and
output, refill from 0. -/
def gsmRoundTrip (cfg : Config) (s : State) : State :=
  let work := s.role.rin
  let e := cfg.gsm.encode s.gstate s.buf[work]
  let d := cfg.gsm.decode e.1 e.2
  { s with
    buf := s.buf.set work d.2
    frame := e.2
    gstate := d.1
    role := ⟨s.role.rwork, s.role.rout, work⟩
    gidx := 0 }

/-- The input buffer written at `GIDX` (R203). -/
def gsmStore (s : State) (w : Half) : State :=
  { s with buf := s.buf.set s.role.rin (s.buf[s.role.rin].set s.gidx w) }

/-- `GsmPush(v)` (R203): one sample read, one stored, and at the 160th one round trip. -/
def gsmPush (cfg : Config) (s : State) (v : BitVec 13) : Half × State :=
  let out := s.buf[s.role.rout][s.gidx]
  let t := gsmStore s (workWord v)
  (out, if h : s.gidx.val + 1 < frameLen then { t with gidx := ⟨s.gidx.val + 1, h⟩ } else gsmRoundTrip cfg t)

/-- `GSMPUSH v` (R203): no `PREPARED`, no channel. -/
def doGsmpush (cfg : Config) (v : BitVec 13) (s : State) : Host.Outcome State Fault Refusal :=
  let r := gsmPush cfg s v
  .next (r.2.answer (resS16 r.1))

/-- The meaning of `GSMPUSH`. -/
def execGsmpush (v : BitVec 13) (s : State) : Host.Outcome State Fault Refusal := doGsmpush Config.lpc v s

/-- The mono sample of a sample period (R151, R208): `XIN[0]`, or the halved sum of two channels. -/
def downmix (cfg : Config) (s : State) : Word :=
  if s.nch = 1 then s.xinAt 0
  else
    let nan := cfg.freeNaN s.freeIdx .downmix
    fmul (nan 1) (fadd (nan 0) (s.xinAt 0) (s.xinAt 1)) 0x3F000000#32

/-- `LowCut(m)` (R209): one section with coefficients `LOWCUT` and state `LCZ`, or the identity when absent. -/
def lowCut (cfg : Config) (s : State) (m : Word) : Word × State :=
  match cfg.lowcut with
  | none => (m, s)
  | some q =>
    let r := biquad (cfg.freeNaN s.freeIdx .lowcut) q s.lcz m
    (r.1, s.setLcz r.2)

end Sys2Proof.Machine
end

