-- ==== Sys2Proof/Machine/Vox.lean ====
section
/-! DEFINITION. The VOX family (42_vox_adpcm.md): the shared reconstruction (R163), `VOXENC` (R165), `VOXDEC` (R166). -/

namespace Sys2Proof.Machine

/-- `NSTEP` (R161). -/
def nstep (t : VoxTables) : Nat := t.steps.length + 1

/-- `STEP[idx]` (R161); past the table the last entry, which no run reads (log 13). -/
def stepSize (t : VoxTables) (idx : Nat) : Nat :=
  (((t.step0 :: t.steps).getD idx ((t.step0 :: t.steps).getLast (by simp)) : ℕ+) : Nat)

/-- The magnitude bits of a VOX code, `code[2:0]` (R90). -/
def voxMag (code : BitVec 4) : Nat := (code.extractLsb' 0 3).toNat

/-- `delta = ((2*m + 1) * step) >> 3` (R163). -/
def voxDelta (t : VoxTables) (idx : Nat) (code : BitVec 4) : Nat :=
  ((2 * voxMag code + 1) * stepSize t idx) >>> 3

/-- `VoxRecon(st, code)` (R163), the one reconstruction of both directions. -/
def voxRecon (t : VoxTables) (st : VoxState) (code : BitVec 4) : VoxState :=
  let delta : Int := voxDelta t st.idx code
  let p := if code.msb then st.pred - delta else st.pred + delta
  ⟨clamp p (-2048) 2047, (clamp (st.idx + t.indexDelta code) 0 (nstep t - 1)).toNat⟩

/-- `quantize(s) = s >> 4` (R164). -/
def quantize (v : Half) : Int := opS16 v >>> (4 : Nat)

/-- One threshold test of the encoder: the bit, and what is left of the difference (R165). -/
def voxTest (d : Nat) (threshold : Nat) : Bool × Nat :=
  if threshold ≤ d then (true, d - threshold) else (false, d)

/-- The code of `VoxEnc` (R165): the sign of the difference, then three tests by cumulative subtraction. -/
def voxCode (t : VoxTables) (st : VoxState) (v : Half) : BitVec 4 :=
  let diff := quantize v - st.pred
  let step := stepSize t st.idx
  let t2 := voxTest diff.natAbs step
  let t1 := voxTest t2.2 (step >>> 1)
  let t0 := voxTest t1.2 (step >>> 2)
  BitVec.ofBool (decide (diff < 0)) ++ BitVec.ofBool t2.1 ++ BitVec.ofBool t1.1 ++ BitVec.ofBool t0.1

/-- `VoxEnc(ch, s)` (R165): reads and writes `VOX[0][ch]` only. -/
def voxEnc (cfg : Config) (s : State) (ch : Nat) (v : Half) : BitVec 4 × State :=
  let st := s.voxAt 0 ch
  let code := voxCode cfg.vox st v
  (code, s.setVox 0 ch (voxRecon cfg.vox st code))

/-- `VoxDec(ch, code)` (R166): reads and writes `VOX[1][ch]` only; 16 times the new predictor. -/
def voxDec (cfg : Config) (s : State) (ch : Nat) (code : BitVec 4) : Half × State :=
  let st := voxRecon cfg.vox (s.voxAt 1 ch) code
  (BitVec.ofInt 16 (st.pred * 16), s.setVox 1 ch st)

/-- `VOXENC ch, s` (R165). -/
def doVoxenc (cfg : Config) (ch : Nat) (v : Half) (s : State) : Host.Outcome State Fault Refusal :=
  let r := voxEnc cfg s ch v
  s.complete cfg (s.channelCheck ch) (r.2.answer (resU4 r.1))

/-- `VOXDEC ch, code` (R166). -/
def doVoxdec (cfg : Config) (ch : Nat) (code : BitVec 4) (s : State) : Host.Outcome State Fault Refusal :=
  let r := voxDec cfg s ch code
  s.complete cfg (s.channelCheck ch) (r.2.answer (resS16 r.1))

/-- The meaning of `VOXENC`. -/
def execVoxenc (ch : Nat) (v : Half) (s : State) : Host.Outcome State Fault Refusal :=
  doVoxenc Config.lpc ch v s

/-- The meaning of `VOXDEC`. -/
def execVoxdec (ch : Nat) (code : BitVec 4) (s : State) : Host.Outcome State Fault Refusal :=
  doVoxdec Config.lpc ch code s

end Sys2Proof.Machine
end

