-- ==== Sys2Proof/Machine/Decimator.lean ====
section
/-! DEFINITION. Hold-and-filter decimation and the sample period (41_decimator.md): `DECIM` (R144), `WRX` (R148), `RDY`
(R149), `STEP` (R150 to R152) with the codec inserts (R146). -/

namespace Sys2Proof.Machine

/-- The next counter value, by compare and clear (R142). -/
def nextCnt (d : Nat) (cnt : BitVec 4) : BitVec 4 :=
  if d ≤ cnt.toNat + 1 then 0#4 else BitVec.ofNat 4 (cnt.toNat + 1)

/-- What the decimator does to a latched sample: the function, with the state it touches (R140, R146). -/
abbrev InsertFn := State → Word → Word × State

/-- The latch of `HoldAndFilter` (R140, R141): at a latch instant the sample goes through the insert and is held. -/
def latch (s : State) (ch : Nat) (u : Word) (ins : InsertFn) : State :=
  if s.cntAt ch = 0#4 then
    let r := ins s u
    r.2.setHeld ch r.1
  else s

/-- `HoldAndFilter(ch, x, ins)` (R140), its statements in the order written. -/
def holdAndFilter (cfg : Config) (s : State) (ch : Nat) (x : Word) (ins : InsertFn) : Word × State :=
  let pre := cascadeChain cfg s 0 ch x
  let s1 := latch pre.2 ch pre.1 ins
  let s2 := s1.setCnt ch (nextCnt s1.d (s1.cntAt ch))
  let post := cascadeChain cfg s2 1 ch (s2.heldAt ch)
  (fmul (cfg.freeNaN s.freeIdx (.gain ch) 0) post.1 (cfg.gain s.d), post.2)

/-- The identity insert of `DECIM` (R144). -/
def insertNone : InsertFn := fun s u => (u, s)

/-- `Insert(1, ch)`, VOX (R146). -/
def insertVox (cfg : Config) (ch : Nat) : InsertFn := fun s u =>
  let e := voxEnc cfg s ch (f2i16 u)
  let d := voxDec cfg e.2 ch e.1
  (i2f16 d.1, d.2)

/-- `Insert(2, ch)`, mu-law (R146). -/
def insertMulaw (cfg : Config) : InsertFn := fun s u => (i2f16 (ulDec cfg.ulaw (ulEnc cfg.ulaw (f2i16 u))), s)

/-- `Insert(3, ch)`, A-law (R146). -/
def insertAlaw (cfg : Config) : InsertFn := fun s u => (i2f16 (alDec cfg.alaw (alEnc cfg.alaw (f2i16 u))), s)

/-- `Insert(4, 0)`, GSM (R146). -/
def insertGsm (cfg : Config) : InsertFn := fun s u =>
  let r := gsmPush cfg s (f2i13 u)
  (i2f16 r.1, r.2)

/-- `DECIM ch, x` (R144). -/
def doDecim (cfg : Config) (ch : Nat) (x : Word) (s : State) : Host.Outcome State Fault Refusal :=
  let r := holdAndFilter cfg s ch x insertNone
  s.complete cfg (s.channelCheck ch) (r.2.answer (resF32 r.1))

/-- `WRX ch, x` (R148): the word is stored unchanged. -/
def doWrx (cfg : Config) (ch : Nat) (x : Word) (s : State) : Host.Outcome State Fault Refusal :=
  s.complete cfg (s.channelCheck ch) ((s.setXin ch x).answer resNone)

/-- `RDY ch` (R149). -/
def doRdy (cfg : Config) (ch : Nat) (s : State) : Host.Outcome State Fault Refusal :=
  s.complete cfg (s.channelCheck ch) (s.answer (resF32 (s.youtAt ch)))

/-- What a sample period does to one channel with no module (R152). -/
def passChannel (s : State) (ch : Nat) : State := s.setYout ch (s.xinAt ch)

/-- What a sample period does to one channel with a codec of its own (R150). -/
def codecChannel (cfg : Config) (ins : Nat → InsertFn) (s : State) (ch : Nat) : State :=
  let r := holdAndFilter cfg s ch (s.xinAt ch) (ins ch)
  r.2.setYout ch r.1

/-- The GSM sample period (R151): downmix, low-cut, channel 0's chains, the result in every active channel. -/
def gsmPeriod (cfg : Config) (s : State) : State :=
  let m := lowCut cfg s (downmix cfg s)
  let r := holdAndFilter cfg m.2 0 m.1 (insertGsm cfg)
  (List.range s.nch).foldl (fun t ch => t.setYout ch r.1) r.2

/-- One sample period (R150): channels in increasing order. -/
def samplePeriod (cfg : Config) (s : State) : State :=
  match s.codec with
  | .none => (List.range s.nch).foldl passChannel s
  | .vox => (List.range s.nch).foldl (codecChannel cfg (insertVox cfg)) s
  | .mulaw => (List.range s.nch).foldl (codecChannel cfg fun _ => insertMulaw cfg) s
  | .alaw => (List.range s.nch).foldl (codecChannel cfg fun _ => insertAlaw cfg) s
  | .gsm => gsmPeriod cfg s

/-- The checks of `STEP` (R150, R151, R253). -/
def stepCheck (s : State) : Option Cause :=
  if s.status.prepared = false then some .notPrepared
  else if s.codec = .gsm ∧ 2 < s.nch then some .badConfig
  else none

/-- `STEP` (R150). -/
def doStep (cfg : Config) (s : State) : Host.Outcome State Fault Refusal :=
  s.complete cfg (stepCheck s) ((samplePeriod cfg s).answer resNone)

/-- The meaning of `DECIM`. -/
def execDecim (ch : Nat) (x : Word) (s : State) : Host.Outcome State Fault Refusal := doDecim Config.lpc ch x s
/-- The meaning of `WRX`. -/
def execWrx (ch : Nat) (x : Word) (s : State) : Host.Outcome State Fault Refusal := doWrx Config.lpc ch x s
/-- The meaning of `RDY`. -/
def execRdy (ch : Nat) (s : State) : Host.Outcome State Fault Refusal := doRdy Config.lpc ch s
/-- The meaning of `STEP`. -/
def execStep (s : State) : Host.Outcome State Fault Refusal := doStep Config.lpc s

end Sys2Proof.Machine
end

