-- ==== Sys2Proof/Machine/Dispatch.lean ====
section
/-! DEFINITION. One arm per command (30_encoding.md R84). -/

namespace Sys2Proof.Machine

def exec (i : Instr) (s : State) : Host.Outcome State Fault Refusal :=
  match i with
  | .nop => Sys2Proof.Machine.execNop s
  | .prepare nch fs => Sys2Proof.Machine.execPrepare nch fs s
  | .setord order => Sys2Proof.Machine.execSetord order s
  | .setpar mode d => Sys2Proof.Machine.execSetpar mode d s
  | .getpar => Sys2Proof.Machine.execGetpar s
  | .setcodec id => Sys2Proof.Machine.execSetcodec id s
  | .reset => Sys2Proof.Machine.execReset s
  | .rdreg addr => Sys2Proof.Machine.execRdreg addr s
  | .apply c ch k x => Sys2Proof.Machine.execApply c ch k x s
  | .cascade c ch x => Sys2Proof.Machine.execCascade c ch x s
  | .decim ch x => Sys2Proof.Machine.execDecim ch x s
  | .wrx ch x => Sys2Proof.Machine.execWrx ch x s
  | .rdy ch => Sys2Proof.Machine.execRdy ch s
  | .step => Sys2Proof.Machine.execStep s
  | .voxenc ch v => Sys2Proof.Machine.execVoxenc ch v s
  | .voxdec ch code => Sys2Proof.Machine.execVoxdec ch code s
  | .ulenc pcm => Sys2Proof.Machine.execUlenc pcm s
  | .uldec b => Sys2Proof.Machine.execUldec b s
  | .alenc pcm => Sys2Proof.Machine.execAlenc pcm s
  | .aldec b => Sys2Proof.Machine.execAldec b s
  | .gsmpush v => Sys2Proof.Machine.execGsmpush v s

end Sys2Proof.Machine
end

