-- ==== Sys2Proof/Machine/Step.lean ====
section
/-! DEFINITION. One step: LPC takes the next command of the host's stream (10_state.md R22; 20_memory.md R66, R67),
decodes it and executes it; an illegal word raises `ILLEGAL_CMD` (30_encoding.md R86). -/

namespace Sys2Proof.Machine

/-- The index into the host's list moves by one (R22). -/
def State.advance (s : State) : State := { s with pc := s.pc + 1 }

/-- One step. With no command presented nothing happens (60_exceptions.md R254; log 1). -/
def step (s : State) : Host.Outcome State Fault Refusal :=
  match s.stream[s.pc]? with
  | none => .next s
  | some w =>
    match decode w with
    | .ok i => exec i s.advance
    | .error _ => .next (s.advance.raise Config.lpc .illegalCmd)

/-- The list `l` with `w` at index `n`, filled up with the command of zeros (`NOP`) where it is shorter. -/
def putAt (l : List Command) (n : Nat) (w : Command) : List Command :=
  l.take n ++ List.replicate (n - l.length) ⟨0#32, 0#32⟩ ++ w :: l.drop (n + 1)

/-- `s` with the command of these bits where `step` takes its next command (log 1, 15). -/
def State.withFetchWord (s : State) (nbits w : Nat) : State :=
  { s with stream := putAt s.stream s.pc (commandOfBits nbits w) }

end Sys2Proof.Machine
end

