-- ==== Sys2Proof/Machine/Defaults.lean ====
section
/-! DEFINITION. The default values the spec offers for open parameters, each from general knowledge and not from the
source (93_implementation_defined.md G1 to G4). The machine does not use them: its configuration is opaque. A statement
that needs one names it. -/

namespace Sys2Proof.Machine

/-- The 49-entry step table and the index-delta table of the VOX format (42_vox_adpcm.md R161, R162): `VOXDEF`. -/
def voxDefault : VoxTables where
  step0 := 16
  steps :=
    [17, 19, 21, 23, 25, 28, 31, 34, 37, 41, 45, 50, 55, 60, 66, 73] ++
    [80, 88, 97, 107, 118, 130, 143, 157, 173, 190, 209, 230, 253, 279, 307, 337] ++
    [371, 408, 449, 494, 544, 598, 658, 724, 796, 876, 963, 1060, 1166, 1282, 1411, 1552]
  indexDelta := fun code =>
    match voxMag code with
    | 0 | 1 | 2 | 3 => -1
    | 4 => 2
    | 5 => 4
    | 6 => 6
    | _ => 8

/-- The inverse arithmetic reconstruction of mu-law (43_companders.md R185). -/
def ulReconstruct (b : Byte) : Int :=
  let t := b ^^^ 0xFF#8
  let seg := (t.extractLsb' 4 3).toNat
  let mant := (t.extractLsb' 0 4).toNat
  let mag : Int := (((mant <<< 3) + 132) <<< seg : Nat) - 132
  if t.msb then -mag else mag

/-- The G.711 mu-law record on 16-bit input (43_companders.md R181): `ULDEF`. -/
def ulawDefault : Ulaw where
  clip  := 32635
  bias  := 132
  mask  := 0xFF#8
  bound := fun s => 256 <<< s.val
  noSeg := fun _ => 7
  table := fun b => BitVec.ofInt 16 (ulReconstruct b)

/-- The inverse arithmetic reconstruction of A-law (43_companders.md R187). -/
def alReconstruct (b : Byte) : Int :=
  let a := b ^^^ 0x55#8
  let seg := (a.extractLsb' 4 3).toNat
  let t := (a.extractLsb' 0 4).toNat <<< 4
  let v : Int := (if seg = 0 then t + 8 else (t + 0x108) <<< (seg - 1) : Nat)
  if a.msb then v else -v

/-- The G.711 A-law record on 16-bit input (43_companders.md R182): `ALDEF`. -/
def alawDefault : Alaw where
  mask  := 0x55#8
  sega  := fun s => 2 ^ (s.val + 5) - 1
  noSeg := fun _ => 7
  table := fun b => BitVec.ofInt 16 (alReconstruct b)

/-- A section whose numerator is `b0, b1, b0`. -/
def refSection (b0 b1 a1 a2 : Word) : Coef := ⟨b0, b1, b0, a1, a2⟩

/-- The reference design of 40_filter_cascade.md R113 for `N = 8` (96_reference_tables.md section 1), the four sections of
`D = 1 .. 8` in order: `REF`, informative. -/
def refDesign8 : List (List Coef) :=
  [[refSection 0x3F12E125#32 0x3F92E125#32 0x3F835F7C#32 0x3E898B35#32,
    refSection 0x3F1B89DD#32 0x3F9B89DD#32 0x3F8B1E2E#32 0x3EAFD62E#32,
    refSection 0x3F2E8D8A#32 0x3FAE8D8A#32 0x3F9C1FF6#32 0x3F01F63C#32,
    refSection 0x3F4FBBB0#32 0x3FCFBBB0#32 0x3FB9CD5C#32 0x3F4B5409#32]] ++
  [[refSection 0x3E370B25#32 0x3EB70B25#32 0xBEA3B818#32 0x3D0E7316#32,
    refSection 0x3E458F0E#32 0x3EC58F0E#32 0xBEB0B3B4#32 0x3DEF4744#32,
    refSection 0x3E6779E9#32 0x3EE779E9#32 0xBECF09E2#32 0x3E9DFDB4#32,
    refSection 0x3E953519#32 0x3F153519#32 0xBF057486#32 0x3F2FDEB9#32]] ++
  [[refSection 0x3DC3F8FC#32 0x3E43F8FC#32 0xBF462963#32 0x3E209784#32,
    refSection 0x3DD169CE#32 0x3E5169CE#32 0xBF53C0A4#32 0x3E71D62C#32,
    refSection 0x3DEFCD91#32 0x3E6FCD91#32 0xBF727B4F#32 0x3ED4C42F#32,
    refSection 0x3E13F462#32 0x3E93F462#32 0xBF959B79#32 0x3F3F2B53#32]] ++
  [[refSection 0x3D781A89#32 0x3DF81A89#32 0xBF835F7C#32 0x3E898B35#32,
    refSection 0x3D835D78#32 0x3E035D78#32 0xBF8B1E2E#32 0x3EAFD62E#32,
    refSection 0x3D936C9F#32 0x3E136C9F#32 0xBF9C1FF6#32 0x3F01F63C#32,
    refSection 0x3DAF72A2#32 0x3E2F72A2#32 0xBFB9CD5C#32 0x3F4B5409#32]] ++
  [[refSection 0x3D2C0977#32 0x3DAC0977#32 0xBF985988#32 0x3EB76ADC#32,
    refSection 0x3D34DF73#32 0x3DB4DF73#32 0xBFA02CA9#32 0x3EDB225F#32,
    refSection 0x3D47D677#32 0x3DC7D677#32 0xBFB0F816#32 0x3F13E5CA#32,
    refSection 0x3D678F83#32 0x3DE78F83#32 0xBFCD0FCB#32 0x3F540376#32]] ++
  [[refSection 0x3CFD22E6#32 0x3D7D22E6#32 0xBFA72D58#32 0x3EDBFE19#32,
    refSection 0x3D044FF4#32 0x3D844FF4#32 0xBFAEC3A6#32 0x3EFD3694#32,
    refSection 0x3D106C66#32 0x3D906C66#32 0xBFBEC2DD#32 0x3F21A0D4#32,
    refSection 0x3D240AC7#32 0x3DA40AC7#32 0xBFD8ACA8#32 0x3F5A5C02#32]] ++
  [[refSection 0x3CC23DE3#32 0x3D423DE3#32 0xBFB23F6F#32 0x3EF98D36#32,
    refSection 0x3CCA20EB#32 0x3D4A20EB#32 0xBFB97C38#32 0x3F0C3C8D#32,
    refSection 0x3CDA85F7#32 0x3D5A85F7#32 0xBFC887AD#32 0x3F2C6019#32,
    refSection 0x3CF46D34#32 0x3D746D34#32 0xBFE04CE5#32 0x3F5F2771#32]] ++
  [[refSection 0x3C99D860#32 0x3D19D860#32 0xBFBAD7A8#32 0x3F08EA5B#32,
    refSection 0x3C9F7E23#32 0x3D1F7E23#32 0xBFC1B383#32 0x3F1756CA#32,
    refSection 0x3CAB1927#32 0x3D2B1927#32 0xBFCFCBC2#32 0x3F34FAA9#32,
    refSection 0x3CBD12EF#32 0x3D3D12EF#32 0xBFE5A08B#32 0x3F62E373#32]]

end Sys2Proof.Machine
end

