-- ==== Sys2Proof/Safety.lean ====
section
/-! DEFINITION. The terms claims use: the rational value of an encoding, the named properties of `Design` (R112), what a
fault leaves (R252), the invariants of 10_state.md R39, and a final state (R252). -/

namespace Sys2Proof

open Sys2Proof.Machine

/-! ## The value of an encoding -/

/-- The value of `f32(w)` (R11); 0 for an infinity or a NaN, which have none. -/
def valQ (w : Word) : ℚ :=
  match unpack w with
  | .fin neg m e => (if neg then -1 else 1) * (m : ℚ) * (2 : ℚ) ^ e
  | .inf _ => 0
  | .nan => 0

/-- `w` is the binary32 value nearest to `v`, ties to the even encoding, with a magnitude from `2^128 - 2^103` on an
infinity of `v`'s sign; a result of a nonzero `v` has its sign: round to nearest even (R11). -/
def IsRoundedTo (w : Word) (v : ℚ) : Prop :=
  if (2 : ℚ) ^ 128 - (2 : ℚ) ^ 103 ≤ |v| then w = signed (decide (v < 0)) infBits
  else isFinite w = true ∧ (v ≠ 0 → w.msb = decide (v < 0)) ∧
    ∀ u : Word, isFinite u = true →
      |valQ w - v| ≤ |valQ u - v| ∧ (|valQ w - v| = |valQ u - v| → valQ u ≠ valQ w → w.toNat % 2 = 0)

/-! ## Named properties of `Design` (40_filter_cascade.md R112) -/

/-- The arguments `Design` is called with: `fs >= 1`, `D` in `1 .. 8`, an even order in `2 .. 16` (R110). -/
def LegalDesignArgs (fs : Word) (d n : Nat) : Prop :=
  fs ≠ 0#32 ∧ 1 ≤ d ∧ d ≤ 8 ∧ n % 2 = 0 ∧ 2 ≤ n ∧ n ≤ 2 * nsecMax

/-- Every word of the coefficient set is a finite binary32. -/
def Coef.isFinite (q : Coef) : Bool :=
  Machine.isFinite q.b0 && Machine.isFinite q.b1 && Machine.isFinite q.b2 && Machine.isFinite q.a1 &&
    Machine.isFinite q.a2

/-- The cutoff frequency of a design in hertz, `fc = (fs / D) * 0.4` (R111). -/
def cutoff (fs : Word) (d : Nat) : ℚ := (fs.toNat : ℚ) / d * 0.4

/-- Both poles are strictly inside the unit circle: `|a2| < 1` and `|a1| < 1 + a2`, of finite `a1` and `a2`, so that
`valQ` is their value; `b0`, `b1` and `b2` are not bounded. -/
def Coef.isStable (q : Coef) : Prop :=
  Machine.isFinite q.a1 = true ∧ Machine.isFinite q.a2 = true ∧ |valQ q.a2| < 1 ∧ |valQ q.a1| < 1 + valQ q.a2

/-- `P_FINITE`. -/
def PFinite (cfg : Config) : Prop :=
  ∀ fs d n, LegalDesignArgs fs d n → ∀ q ∈ (cfg.design fs d n).toList, q.isFinite = true

/-- `P_STABLE`. -/
def PStable (cfg : Config) : Prop :=
  ∀ fs d n, LegalDesignArgs fs d n → ∀ q ∈ (cfg.design fs d n).toList, q.isStable

/-- `P_UNITY_DC`, of finite coefficients, "up to rounding" given as a tolerance (log 18). -/
def PUnityDC (cfg : Config) (tol : ℚ) : Prop :=
  PFinite cfg ∧ ∀ fs d n, LegalDesignArgs fs d n →
    |(((cfg.design fs d n).toList.map fun q =>
      (valQ q.b0 + valQ q.b1 + valQ q.b2) / (1 + valQ q.a1 + valQ q.a2)).prod) - 1| ≤ tol

/-- The transfer function of a section (R115) at `z`. -/
noncomputable def sectionResponse (q : Coef) (z : ℂ) : ℂ :=
  ((valQ q.b0 : ℂ) + valQ q.b1 * z⁻¹ + valQ q.b2 * z⁻¹ ^ 2) / (1 + valQ q.a1 * z⁻¹ + valQ q.a2 * z⁻¹ ^ 2)

/-- The squared magnitude response of a list of sections at the frequency `f` hertz, `z = exp(2 pi i f / fs)`. -/
noncomputable def powerResponse (l : List Coef) (fs : Word) (f : ℝ) : ℝ :=
  ‖(l.map fun q => sectionResponse q (Complex.exp ((2 * Real.pi * f / fs.toNat : ℝ) * Complex.I))).prod‖ ^ 2

/-- The squared magnitude response at `f` hertz of the order-`n` Butterworth lowpass with half power at `fc` hertz, at
the sample rate `fs`, in the form the reference design has (R113; log 18). -/
noncomputable def butterworthPower (fs : Word) (n : Nat) (fc f : ℝ) : ℝ :=
  1 / (1 + (Real.tan (Real.pi * f / fs.toNat) / Real.tan (Real.pi * fc / fs.toNat)) ^ (2 * n))

/-- `P_BUTTERWORTH`, of finite coefficients: below half the sample rate the squared magnitude response is within `tol` of
that of the order-`N` Butterworth lowpass with half power at the cutoff of R111. The source states no tolerance and a
design rounded to binary32 meets none of 0, so it is an argument (log 18). -/
def PButterworth (cfg : Config) (tol : ℝ) : Prop :=
  PFinite cfg ∧ ∀ fs d n, LegalDesignArgs fs d n → ∀ f : ℝ, 0 < f → f < (fs.toNat : ℝ) / 2 →
    |powerResponse (cfg.design fs d n).toList fs f - butterworthPower fs n (cutoff fs d) f| ≤ tol

/-! ## Outcomes -/

/-- The command faulted with the cause of this code (60_exceptions.md R252): it completes, `FAULT` is set, `CAUSE` is
the code if `FAULT` was 0, `PREPARED` is kept, `rdata` is any word, and nothing else is written. -/
def FaultsWith (o : Host.Outcome State Fault Refusal) (s : State) (code : BitVec 4) : Prop :=
  ∃ t, o = .next t ∧ t.status = ⟨s.status.prepared, true, if s.status.fault then s.status.cause else code⟩ ∧
    t = { s with status := t.status, rdata := t.rdata, freeIdx := t.freeIdx }

/-- A state a claim about a run may end in: no fault was recorded (60_exceptions.md R252). -/
def isFinal (s : State) : Bool := !s.status.fault

/-! ## The invariants (10_state.md R39) -/

/-- What holds after reset and after every command. `0 <= CODEC <= 4` and `GIDX <= 159` hold by type. -/
structure Inv (cfg : Config) (s : State) : Prop where
  /-- R39 (a). -/
  order_legal : s.order % 2 = 0 ∧ 2 ≤ s.order ∧ s.order ≤ 2 * nsecMax
  /-- R39 (b). -/
  params_legal : 1 ≤ s.d ∧ s.d ≤ 8 ∧ 1 ≤ s.mode ∧ s.mode ≤ 4
  /-- R39 (d). -/
  channels_legal : s.nch ≤ nchMax ∧ (s.status.prepared = true → 1 ≤ s.nch ∧ s.fs ≠ 0#32)
  /-- R39 (e). -/
  coef_fresh : s.status.prepared = true → s.coef = State.designedCoef cfg s.fs s.d s.order
  /-- R39 (f). -/
  vox_legal : ∀ dir ch, -2048 ≤ (s.voxAt dir ch).pred ∧ (s.voxAt dir ch).pred ≤ 2047 ∧
    (s.voxAt dir ch).idx < nstep cfg.vox
  /-- R39 (g). -/
  role_perm : s.role.rin ≠ s.role.rwork ∧ s.role.rwork ≠ s.role.rout ∧ s.role.rin ≠ s.role.rout
  /-- R39 (h). -/
  delays_squashed : ∀ c ch k, isSubnormal (s.zAt c ch k).s1 = false ∧ isSubnormal (s.zAt c ch k).s2 = false
  /-- R39 (h), for `LCZ`. -/
  lcz_squashed : isSubnormal s.lcz.s1 = false ∧ isSubnormal s.lcz.s2 = false
  /-- R39 (i), its first half. -/
  cnt_legal : ∀ ch, (s.cntAt ch).toNat ≤ 7
  /-- `CAUSE` is 0 while `FAULT = 0` and the code of a cause otherwise (R23). -/
  cause_legal : if s.status.fault then ∃ c : Cause, s.status.cause = c.code else s.status.cause = 0#4

end Sys2Proof
end

