-- ==== Sys2Proof/Certificates/Slice0/Obligations.lean ====
section
/-! DEFINITION. The statements for the provers. Every one is about the machine with its opaque configuration
`Config.lpc`, so it holds for every configuration. The frame of a command is written `t = { s with f := t.f, .. }`: every
field not named is unchanged; `rdata` is the port's answer and `freeIdx` the model's own counter (log 5). -/

open Sys2Proof Sys2Proof.Machine

/-! ## Encoding -/

/-- R81, R82, R84: no bit of an encoding is dropped. -/
def Obligations.DecodeOfEncodeIsTheInstruction : Prop :=
  ∀ i : Instr, i.wf = true → decode (encode i) = .ok i

/-- R81, R84: a legal command word is the encoder's word of what it decodes to, so it has one meaning. -/
def Obligations.EncodeOfDecodedIsTheCommandWord : Prop :=
  ∀ (w : Command) (i : Instr), decode w = .ok i → i.wf = true ∧ (encode i).cmd = w.cmd

/-- R84, R86: a command word is legal exactly when one of the 21 rows spells it, and then exactly one does. -/
def Obligations.DecoderAcceptsExactlyTheOpcodeMap : Prop :=
  ∀ w : Command,
    ((∃ i, decode w = .ok i) ↔ ∃ r ∈ opcodeMap, r.spells w.cmd = true) ∧
    ∀ j k (hj : j < opcodeMap.length) (hk : k < opcodeMap.length),
      opcodeMap[j].spells w.cmd = true → opcodeMap[k].spells w.cmd = true → j = k

/-- R81, R82, R84: a word a row spells decodes to that row's command, each field read from its own bits. -/
def Obligations.EachRowDecodesToItsCommand : Prop :=
  ∀ c w : Word,
    let n := c.toNat
    let k := n / 2 ^ 12 % 16
    let ch := n / 2 ^ 20 % 16
    let pre := n / 2 ^ 16 % 16
    (c &&& 0xFFFFFFFF#32 = 0x00000000#32 → decode ⟨c, w⟩ = .ok .nop) ∧
    (c &&& 0xFFFF0000#32 = 0x01000000#32 → decode ⟨c, w⟩ = .ok (.prepare (n % 2 ^ 16) w)) ∧
    (c &&& 0xFFFFFFFF#32 = 0x02000000#32 → decode ⟨c, w⟩ = .ok (.setord w)) ∧
    (c &&& 0xFFFFFFFF#32 = 0x03000000#32 →
      decode ⟨c, w⟩ = .ok (.setpar (BitVec.ofNat 16 (w.toNat / 2 ^ 16)) (BitVec.ofNat 16 w.toNat))) ∧
    (c &&& 0xFFFFFFFF#32 = 0x04000000#32 → decode ⟨c, w⟩ = .ok .getpar) ∧
    (c &&& 0xFFFFFFFF#32 = 0x05000000#32 → decode ⟨c, w⟩ = .ok (.setcodec w)) ∧
    (c &&& 0xFFFFFFFF#32 = 0x06000000#32 → decode ⟨c, w⟩ = .ok .reset) ∧
    (c &&& 0xFFFF0000#32 = 0x07000000#32 → decode ⟨c, w⟩ = .ok (.rdreg (n % 2 ^ 16))) ∧
    (c &&& 0xFF000FFF#32 = 0x10000000#32 → decode ⟨c, w⟩ = .ok (.apply pre ch k w)) ∧
    (c &&& 0xFF00FFFF#32 = 0x11000000#32 → decode ⟨c, w⟩ = .ok (.cascade pre ch w)) ∧
    (c &&& 0xFF0FFFFF#32 = 0x12000000#32 → decode ⟨c, w⟩ = .ok (.decim ch w)) ∧
    (c &&& 0xFF0FFFFF#32 = 0x18000000#32 → decode ⟨c, w⟩ = .ok (.wrx ch w)) ∧
    (c &&& 0xFF0FFFFF#32 = 0x19000000#32 → decode ⟨c, w⟩ = .ok (.rdy ch)) ∧
    (c &&& 0xFFFFFFFF#32 = 0x1A000000#32 → decode ⟨c, w⟩ = .ok .step) ∧
    (c &&& 0xFF0FFFFF#32 = 0x20000000#32 → decode ⟨c, w⟩ = .ok (.voxenc ch (BitVec.ofNat 16 w.toNat))) ∧
    (c &&& 0xFF0FFFFF#32 = 0x21000000#32 → decode ⟨c, w⟩ = .ok (.voxdec ch (BitVec.ofNat 4 w.toNat))) ∧
    (c &&& 0xFFFFFFFF#32 = 0x28000000#32 → decode ⟨c, w⟩ = .ok (.ulenc (BitVec.ofNat 16 w.toNat))) ∧
    (c &&& 0xFFFFFFFF#32 = 0x29000000#32 → decode ⟨c, w⟩ = .ok (.uldec (BitVec.ofNat 8 w.toNat))) ∧
    (c &&& 0xFFFFFFFF#32 = 0x2A000000#32 → decode ⟨c, w⟩ = .ok (.alenc (BitVec.ofNat 16 w.toNat))) ∧
    (c &&& 0xFFFFFFFF#32 = 0x2B000000#32 → decode ⟨c, w⟩ = .ok (.aldec (BitVec.ofNat 8 w.toNat))) ∧
    (c &&& 0xFFFFFFFF#32 = 0x30000000#32 → decode ⟨c, w⟩ = .ok (.gsmpush (BitVec.ofNat 13 w.toNat)))

/-- R88 and the encodings of 95_test_vectors.md V19: one written-out word for each family. -/
def Obligations.WrittenOutWordsDecode : Prop :=
  decode ⟨0x00000000#32, 0#32⟩ = .ok .nop ∧
  decode ⟨0x01000002#32, 0x0000BB80#32⟩ = .ok (.prepare 2 48000#32) ∧
  decode ⟨0x10103000#32, 0x3F800000#32⟩ = .ok (.apply 0 1 3 0x3F800000#32) ∧
  decode ⟨0x11010000#32, 0x3F000000#32⟩ = .ok (.cascade 1 0 0x3F000000#32) ∧
  decode ⟨0x12100000#32, 0#32⟩ = .ok (.decim 1 0#32) ∧
  decode ⟨0x20000000#32, 0x000003E8#32⟩ = .ok (.voxenc 0 1000#16) ∧
  decode ⟨0x2B000000#32, 0x000000FA#32⟩ = .ok (.aldec 0xFA#8) ∧
  decode ⟨0x30000000#32, 0x00001FFF#32⟩ = .ok (.gsmpush 0x1FFF#13) ∧
  decode ⟨0x11011000#32, 0#32⟩ = .error .mustBeZero ∧
  decode ⟨0x1B000000#32, 0#32⟩ = .error .reservedOp

/-! ## Steps and faults -/

/-- R22, R67: the step at a legal command is that command's execution, the index moved by one. -/
def Obligations.StepRunsTheDecodedCommand : Prop :=
  ∀ (s : State) (w : Command) (i : Instr),
    s.stream[s.pc]? = some w → decode w = .ok i → step s = exec i { s with pc := s.pc + 1 }

/-- R86, R252: a command word that no row spells raises `ILLEGAL_CMD` and does nothing else. -/
def Obligations.IllegalCommandOnlyRaisesTheFault : Prop :=
  ∀ (s : State) (w : Command), s.stream[s.pc]? = some w → (∀ r ∈ opcodeMap, r.spells w.cmd = false) →
    FaultsWith (step s) { s with pc := s.pc + 1 } 1#4

/-- The model's choice (log 1): with no command presented a step changes nothing. -/
def Obligations.StepWithNoCommandChangesNothing : Prop :=
  ∀ s : State, s.stream[s.pc]? = none → step s = .next s

/-- R264: every command completes, legal or not, in every state. -/
def Obligations.EveryCommandCompletes : Prop :=
  (∀ (i : Instr) (s : State), ∃ t, exec i s = .next t) ∧ ∀ s : State, ∃ t, step s = .next t

/-- R23, R252, R256: `FAULT` and the first `CAUSE` survive every command. -/
def Obligations.FaultFlagAndFirstCauseAreSticky : Prop :=
  ∀ s t : State, step s = .next t → s.status.fault = true →
    t.status.fault = true ∧ t.status.cause = s.status.cause

/-- R252: a command that sets `FAULT` writes nothing else but `CAUSE`, whatever the command: faults are precise. -/
def Obligations.FaultsArePrecise : Prop :=
  ∀ (i : Instr) (s t : State), exec i s = .next t → s.status.fault = false → t.status.fault = true →
    ∃ c : Cause, FaultsWith (exec i s) s c.code

/-- R23: `PREPARED` never returns to 0, and only a legal `PREPARE` sets it. -/
def Obligations.PreparedIsSetByPrepareAloneAndKept : Prop :=
  ∀ (i : Instr) (s t : State), exec i s = .next t →
    (s.status.prepared = true → t.status.prepared = true) ∧
    (s.status.prepared = false → t.status.prepared = true →
      ∃ nch fs, i = .prepare nch fs ∧ fs ≠ 0#32 ∧ 1 ≤ nch ∧ nch ≤ 2)

/-- R20, R24 to R28: which commands write the configuration registers and the coefficients. -/
def Obligations.ConfigurationIsWrittenOnlyByItsCommands : Prop :=
  ∀ (i : Instr) (s t : State), exec i s = .next t →
    ((∀ n f, i ≠ .prepare n f) → t.fs = s.fs ∧ t.nch = s.nch) ∧
    ((∀ o, i ≠ .setord o) → t.order = s.order) ∧
    ((∀ m d, i ≠ .setpar m d) → t.d = s.d ∧ t.mode = s.mode) ∧
    ((∀ c, i ≠ .setcodec c) → t.codec = s.codec) ∧
    (t.coef ≠ s.coef → (∃ n f, i = .prepare n f) ∨ (∃ o, i = .setord o) ∨ (∃ m d, i = .setpar m d) ∨
      ∃ c, i = .setcodec c)

/-- R251 (cause 2), R253: the eight gated commands before `PREPARE`, whatever their operands. -/
def Obligations.ProcessingBeforePrepareFaults : Prop :=
  ∀ s : State, s.status.prepared = false →
    (∀ c ch k x, FaultsWith (exec (.apply c ch k x) s) s 2#4) ∧
    (∀ c ch x, FaultsWith (exec (.cascade c ch x) s) s 2#4) ∧
    (∀ ch x, FaultsWith (exec (.decim ch x) s) s 2#4) ∧
    (∀ ch x, FaultsWith (exec (.wrx ch x) s) s 2#4) ∧
    (∀ ch, FaultsWith (exec (.rdy ch) s) s 2#4) ∧
    FaultsWith (exec .step s) s 2#4 ∧
    (∀ ch v, FaultsWith (exec (.voxenc ch v) s) s 2#4) ∧
    (∀ ch v, FaultsWith (exec (.voxdec ch v) s) s 2#4)

/-- R251 (cause 3), R253: a channel at or beyond `NCH`, whatever the other operands. -/
def Obligations.ChannelBeyondTheCountFaults : Prop :=
  ∀ (s : State) (ch : Nat), s.status.prepared = true → s.nch ≤ ch →
    (∀ c k x, FaultsWith (exec (.apply c ch k x) s) s 3#4) ∧
    (∀ c x, FaultsWith (exec (.cascade c ch x) s) s 3#4) ∧
    (∀ x, FaultsWith (exec (.decim ch x) s) s 3#4) ∧
    (∀ x, FaultsWith (exec (.wrx ch x) s) s 3#4) ∧
    FaultsWith (exec (.rdy ch) s) s 3#4 ∧
    (∀ v, FaultsWith (exec (.voxenc ch v) s) s 3#4) ∧
    (∀ v, FaultsWith (exec (.voxdec ch v) s) s 3#4)

/-- R251 (cause 4), R253: a chain above 1, or for `APPLY` a section at or beyond `NSEC = ORDER / 2`. -/
def Obligations.SectionBeyondTheOrderFaults : Prop :=
  ∀ (s : State) (c ch : Nat) (x : Word), s.status.prepared = true → ch < s.nch →
    (∀ k, 1 < c ∨ s.order / 2 ≤ k → FaultsWith (exec (.apply c ch k x) s) s 4#4) ∧
    (1 < c → FaultsWith (exec (.cascade c ch x) s) s 4#4)

/-- R251 (cause 5), R225, R227, R228, R151: what each configuration command refuses. -/
def Obligations.UnusableConfigurationFaults : Prop :=
  (∀ (s : State) (nch : Nat) (fs : Word), fs = 0#32 ∨ nch = 0 ∨ 2 < nch →
    FaultsWith (exec (.prepare nch fs) s) s 5#4) ∧
  (∀ (s : State) (order : Word), order.toNat % 2 = 1 ∨ order.toNat < 2 ∨ 16 < order.toNat →
    FaultsWith (exec (.setord order) s) s 5#4) ∧
  (∀ (s : State) (mode d : BitVec 16), d.toNat < 1 ∨ 8 < d.toNat ∨ mode.toNat < 1 ∨ 4 < mode.toNat →
    FaultsWith (exec (.setpar mode d) s) s 5#4) ∧
  (∀ s : State, s.status.prepared = true → s.codec = .gsm → 2 < s.nch → FaultsWith (exec .step s) s 5#4)

/-- R70, R251 (cause 6): an address that is no register's. -/
def Obligations.UnmappedAddressFaults : Prop :=
  ∀ (s : State) (a : Nat), (∀ r : Reg, regExists r = true → regAddr r ≠ a) →
    FaultsWith (exec (.rdreg a) s) s 6#4

/-! ## Module control -/

/-- R221, R226, R94: `NOP` answers 0 and `GETPAR` answers `(MODE << 16) | D`, and neither changes anything. -/
def Obligations.NopAndGetparOnlyAnswer : Prop :=
  ∀ s : State,
    (∃ t, exec .nop s = .next t ∧ t.rdata = 0#32 ∧ t = { s with rdata := t.rdata, freeIdx := t.freeIdx }) ∧
    (s.d < 2 ^ 16 → ∃ t, exec .getpar s = .next t ∧
      t.rdata = (BitVec.ofNat 32 s.mode <<< 16) ||| BitVec.ofNat 32 s.d ∧
      t = { s with rdata := t.rdata, freeIdx := t.freeIdx })

/-- R228, R118: a legal `PREPARE` stores `FS` and `NCH`, sets `PREPARED`, redesigns every coefficient, clears every
delay line, and keeps the per-sample state. -/
def Obligations.PrepareStoresAndRebuilds : Prop :=
  ∀ (s : State) (nch : Nat) (fs : Word), fs ≠ 0#32 → 1 ≤ nch → nch ≤ 2 →
    ∃ t, exec (.prepare nch fs) s = .next t ∧ t.fs = fs ∧ t.nch = nch ∧
      t.status = ⟨true, s.status.fault, s.status.cause⟩ ∧ t.rdata = 0#32 ∧
      (∀ k (h : k < s.order / 2), k < 8 → t.coefAt k = (Config.lpc.design fs s.d s.order)[k]) ∧
      (∀ k, s.order / 2 ≤ k → k < 8 → t.coefAt k = ⟨0#32, 0#32, 0#32, 0#32, 0#32⟩) ∧
      (∀ c ch k, t.zAt c ch k = ⟨0#32, 0#32⟩) ∧ t.lcz = ⟨0#32, 0#32⟩ ∧
      t = { s with fs := fs, nch := nch, status := t.status, coef := t.coef, z := t.z, lcz := t.lcz,
                   rdata := t.rdata, freeIdx := t.freeIdx }

/-- R225, R119: a legal `SETPAR` stores both fields, and rebuilds exactly when `D` changes on a prepared unit. -/
def Obligations.SetparStoresAndRebuildsOnChange : Prop :=
  ∀ (s : State) (mode d : BitVec 16), 1 ≤ d.toNat → d.toNat ≤ 8 → 1 ≤ mode.toNat → mode.toNat ≤ 4 →
    ∃ t, exec (.setpar mode d) s = .next t ∧ t.d = d.toNat ∧ t.mode = mode.toNat ∧ t.rdata = 0#32 ∧
      (d.toNat = s.d ∨ s.status.prepared = false → t.coef = s.coef ∧ t.z = s.z ∧ t.lcz = s.lcz) ∧
      (d.toNat ≠ s.d → s.status.prepared = true →
        (∀ k (h : k < s.order / 2), k < 8 → t.coefAt k = (Config.lpc.design s.fs d.toNat s.order)[k]) ∧
        (∀ k, s.order / 2 ≤ k → k < 8 → t.coefAt k = ⟨0#32, 0#32, 0#32, 0#32, 0#32⟩) ∧
        (∀ c ch k, t.zAt c ch k = ⟨0#32, 0#32⟩) ∧ t.lcz = ⟨0#32, 0#32⟩) ∧
      t = { s with d := d.toNat, mode := mode.toNat, coef := t.coef, z := t.z, lcz := t.lcz,
                   rdata := t.rdata, freeIdx := t.freeIdx }

/-- R227, R119: a legal `SETORD` stores the order, and rebuilds exactly when it changes on a prepared unit. -/
def Obligations.SetordStoresAndRebuildsOnChange : Prop :=
  ∀ (s : State) (order : Word), order.toNat % 2 = 0 → 2 ≤ order.toNat → order.toNat ≤ 16 →
    ∃ t, exec (.setord order) s = .next t ∧ t.order = order.toNat ∧ t.rdata = 0#32 ∧
      (order.toNat = s.order ∨ s.status.prepared = false → t.coef = s.coef ∧ t.z = s.z ∧ t.lcz = s.lcz) ∧
      (order.toNat ≠ s.order → s.status.prepared = true →
        (∀ k (h : k < order.toNat / 2), t.coefAt k = (Config.lpc.design s.fs s.d order.toNat)[k]) ∧
        (∀ k, order.toNat / 2 ≤ k → k < 8 → t.coefAt k = ⟨0#32, 0#32, 0#32, 0#32, 0#32⟩) ∧
        (∀ c ch k, t.zAt c ch k = ⟨0#32, 0#32⟩) ∧ t.lcz = ⟨0#32, 0#32⟩) ∧
      t = { s with order := order.toNat, coef := t.coef, z := t.z, lcz := t.lcz,
                   rdata := t.rdata, freeIdx := t.freeIdx }

/-- R222: `SETCODEC` compares the effective selections: the same one keeps every bit of state; another one is stored,
resets the per-sample state and, on a prepared unit, redesigns; configuration and staging survive. -/
def Obligations.SetcodecKeepsOrReplacesTheModule : Prop :=
  ∀ (s : State) (id : Word),
    let new := if 1 ≤ id.toNat ∧ id.toNat ≤ 4 then id.toNat else 0
    ∃ t, exec (.setcodec id) s = .next t ∧ codecNum t.codec = new ∧ t.rdata = 0#32 ∧
      (new = codecNum s.codec → t = { s with rdata := t.rdata, freeIdx := t.freeIdx }) ∧
      (new ≠ codecNum s.codec →
        (∀ c ch k, t.zAt c ch k = ⟨0#32, 0#32⟩) ∧ t.lcz = ⟨0#32, 0#32⟩ ∧
        (∀ ch, t.cntAt ch = 0#4 ∧ t.heldAt ch = 0#32) ∧ (∀ dir ch, t.voxAt dir ch = ⟨0, 0⟩) ∧
        (∀ p i, t.bufAt p i = 0#16) ∧ t.role = ⟨0, 1, 2⟩ ∧ t.gidx = 0 ∧ (∀ i, t.frameAt i = 0#8) ∧
        t.gstate = Config.lpc.gsm.init ∧
        (s.status.prepared = false → t.coef = s.coef) ∧
        (s.status.prepared = true →
          (∀ k (h : k < s.order / 2), k < 8 → t.coefAt k = (Config.lpc.design s.fs s.d s.order)[k]) ∧
          ∀ k, s.order / 2 ≤ k → k < 8 → t.coefAt k = ⟨0#32, 0#32, 0#32, 0#32, 0#32⟩) ∧
        t = { s with codec := t.codec, coef := t.coef, z := t.z, lcz := t.lcz, cnt := t.cnt, held := t.held,
                     vox := t.vox, buf := t.buf, role := t.role, gidx := t.gidx, frame := t.frame,
                     gstate := t.gstate, rdata := t.rdata, freeIdx := t.freeIdx })

/-- R223, R224: `RESET` clears every delay line and all per-sample state, and nothing else. -/
def Obligations.ResetClearsThePerSampleState : Prop :=
  ∀ s : State, ∃ t, exec .reset s = .next t ∧ t.rdata = 0#32 ∧
    (∀ c ch k, t.zAt c ch k = ⟨0#32, 0#32⟩) ∧ t.lcz = ⟨0#32, 0#32⟩ ∧
    (∀ ch, t.cntAt ch = 0#4 ∧ t.heldAt ch = 0#32) ∧ (∀ dir ch, t.voxAt dir ch = ⟨0, 0⟩) ∧
    (∀ p i, t.bufAt p i = 0#16) ∧ t.role = ⟨0, 1, 2⟩ ∧ t.gidx = 0 ∧ (∀ i, t.frameAt i = 0#8) ∧
    t.gstate = Config.lpc.gsm.init ∧
    t = { s with z := t.z, lcz := t.lcz, cnt := t.cnt, held := t.held, vox := t.vox, buf := t.buf,
                 role := t.role, gidx := t.gidx, frame := t.frame, gstate := t.gstate,
                 rdata := t.rdata, freeIdx := t.freeIdx }

/-- R62, R229: the register map row by row, the address written out; a read changes nothing. -/
def Obligations.RdregAnswersTheMappedWord : Prop :=
  ∀ s : State,
    let reads := fun (a : Nat) (w : Word) => ∃ t, exec (.rdreg a) s = .next t ∧ t.rdata = w ∧
      t = { s with rdata := t.rdata, freeIdx := t.freeIdx }
    reads 0x0000 (BitVec.ofNat 32 (16 * s.status.cause.toNat + 2 * s.status.fault.toNat + s.status.prepared.toNat)) ∧
    reads 0x0001 s.fs ∧ reads 0x0002 (BitVec.ofNat 32 s.nch) ∧ reads 0x0003 (BitVec.ofNat 32 s.order) ∧
    reads 0x0004 (BitVec.ofNat 32 (s.mode * 2 ^ 16 + s.d)) ∧
    reads 0x0005 (BitVec.ofNat 32 (codecNum s.codec)) ∧ reads 0x0006 (BitVec.ofNat 32 (s.order / 2)) ∧
    (∀ ch, ch < 2 → reads (0x0010 + ch) (BitVec.ofNat 32 (s.cntAt ch).toNat) ∧ reads (0x0020 + ch) (s.heldAt ch) ∧
      reads (0x0030 + ch) (s.xinAt ch) ∧ reads (0x0040 + ch) (s.youtAt ch)) ∧
    (∀ dir ch, dir < 2 → ch < 2 →
      reads (0x0080 + dir * 0x20 + ch * 2) (BitVec.ofInt 32 (s.voxAt dir ch).pred) ∧
      reads (0x0080 + dir * 0x20 + ch * 2 + 1) (BitVec.ofNat 32 (s.voxAt dir ch).idx)) ∧
    (∀ k, k < 8 →
      reads (0x0100 + k * 8) (s.coefAt k).b0 ∧ reads (0x0100 + k * 8 + 1) (s.coefAt k).b1 ∧
      reads (0x0100 + k * 8 + 2) (s.coefAt k).b2 ∧ reads (0x0100 + k * 8 + 3) (s.coefAt k).a1 ∧
      reads (0x0100 + k * 8 + 4) (s.coefAt k).a2) ∧
    (∀ c ch k, c < 2 → ch < 2 → k < 8 →
      reads (0x0200 + c * 0x200 + ch * 0x20 + k * 2) (s.zAt c ch k).s1 ∧
      reads (0x0200 + c * 0x200 + ch * 0x20 + k * 2 + 1) (s.zAt c ch k).s2) ∧
    reads 0x0600 (BitVec.ofNat 32 s.gidx.val) ∧
    reads 0x0601 (BitVec.ofNat 32 (s.role.rout.val * 16 + s.role.rwork.val * 4 + s.role.rin.val)) ∧
    reads 0x0602 s.lcz.s1 ∧ reads 0x0603 s.lcz.s2 ∧
    (∀ i, i < 33 → reads (0x0700 + i) (BitVec.ofNat 32 (s.frameAt i).toNat)) ∧
    (∀ p i, p < 3 → i < 160 → reads (0x0800 + p * 0x100 + i) (BitVec.ofInt 32 (s.bufAt p i).toInt))

/-- R62: every mapped address is one register's, and no two registers share an address. -/
def Obligations.RegisterMapIsOneToOne : Prop :=
  (∀ r : Reg, regExists r = true → regAddr r < 2 ^ 16 ∧ regAt (regAddr r) = some r) ∧
  (∀ (a : Nat) (r : Reg), regAt a = some r → regExists r = true ∧ regAddr r = a)

/-! ## The filter chain -/

/-- R11: `fmul` of two finite values is their product rounded to nearest even. That an exact zero product has the sign of
the two signs rests on log 19 (PRESUMED: IEEE 754 written out). -/
def Obligations.FmulRoundsToNearestEven : Prop :=
  ∀ free a b : Word, isFinite a = true → isFinite b = true →
    IsRoundedTo (fmul free a b) (valQ a * valQ b) ∧
    (valQ a * valQ b = 0 → fmul free a b = if a.msb = b.msb then 0x00000000#32 else 0x80000000#32)

/-- R11: `fadd` and `fsub` of two finite values are their sum and difference rounded to nearest even. That an exact zero
result is `-0.0` only for two negative summands rests on log 19 (PRESUMED: IEEE 754 written out). -/
def Obligations.FaddAndFsubRoundToNearestEven : Prop :=
  ∀ free a b : Word, isFinite a = true → isFinite b = true →
    IsRoundedTo (fadd free a b) (valQ a + valQ b) ∧ IsRoundedTo (fsub free a b) (valQ a - valQ b) ∧
    (valQ a + valQ b = 0 → fadd free a b = if a.msb && b.msb then 0x80000000#32 else 0x00000000#32) ∧
    (valQ a - valQ b = 0 → fsub free a b = if a.msb && !b.msb then 0x80000000#32 else 0x00000000#32)

/-- R11, R121: which operations give a NaN, and that a NaN operand always does; the free value picks only among NaNs
(log 4); and what an operation on an infinity gives where it is no NaN (log 19, PRESUMED: IEEE 754 written out). -/
def Obligations.NanResultsAreExactlyTheIeeeOnes : Prop :=
  ∀ free a b : Word,
    let isInf := fun w : Word => isFinite w = false ∧ isNaN w = false
    (isNaN (fmul free a b) = true ↔
      isNaN a = true ∨ isNaN b = true ∨ (isInf a ∧ isFinite b = true ∧ valQ b = 0) ∨
        (isInf b ∧ isFinite a = true ∧ valQ a = 0)) ∧
    (isNaN (fadd free a b) = true ↔
      isNaN a = true ∨ isNaN b = true ∨ (isInf a ∧ isInf b ∧ a.msb ≠ b.msb)) ∧
    (isNaN (fsub free a b) = true ↔
      isNaN a = true ∨ isNaN b = true ∨ (isInf a ∧ isInf b ∧ a.msb = b.msb)) ∧
    (isInf a ∨ isInf b → isNaN (fmul free a b) = false →
      fmul free a b = if a.msb = b.msb then 0x7F800000#32 else 0xFF800000#32) ∧
    (isNaN (fadd free a b) = false → (isInf a → fadd free a b = a) ∧ (isInf b → fadd free a b = b)) ∧
    (isNaN (fsub free a b) = false →
      (isInf a → fsub free a b = a) ∧ (isInf b → fsub free a b = b ^^^ 0x80000000#32))

/-- R114: `snap` zeroes exactly the nonzero finite values below `2^-126` in magnitude and keeps every other encoding. -/
def Obligations.SnapZeroesExactlyTheSubnormals : Prop :=
  ∀ w : Word,
    (isFinite w = true ∧ valQ w ≠ 0 ∧ |valQ w| < (2 : ℚ) ^ (-126 : ℤ) → snap w = 0#32) ∧
    (¬ (isFinite w = true ∧ valQ w ≠ 0 ∧ |valQ w| < (2 : ℚ) ^ (-126 : ℤ)) → snap w = w)

/-- R115, R116: `APPLY` on a prepared unit with legal indices; the NaN of each operation is free. -/
def Obligations.ApplyRunsOneSection : Prop :=
  ∀ (s : State) (c ch k : Nat) (x : Word), s.status.prepared = true → s.nch ≤ 2 → s.order ≤ 16 →
    c ≤ 1 → ch < s.nch → k < s.order / 2 →
    ∃ (t : State) (nan : Nat → Word), exec (.apply c ch k x) s = .next t ∧
      (let q := s.coefAt k
       let st := s.zAt c ch k
       let y := fadd (nan 1) (fmul (nan 0) q.b0 x) st.s1
       let n1 := fadd (nan 5) (fsub (nan 4) (fmul (nan 2) q.b1 x) (fmul (nan 3) q.a1 y)) st.s2
       let n2 := fsub (nan 8) (fmul (nan 6) q.b2 x) (fmul (nan 7) q.a2 y)
       t.rdata = snap y ∧ t.zAt c ch k = ⟨snap n1, snap n2⟩) ∧
      (∀ c' ch' k', ¬ (c' = c ∧ ch' = ch ∧ k' = k) → t.zAt c' ch' k' = s.zAt c' ch' k') ∧
      t = { s with z := t.z, rdata := t.rdata, freeIdx := t.freeIdx }

/-- R122: the result and the new delay line depend on `COEF[k]`, `Z[c][ch][k]` and the operand alone (and on the free
values, fixed here by the counter). -/
def Obligations.ApplyDependsOnItsSectionAlone : Prop :=
  ∀ (s s' t t' : State) (c ch k : Nat) (x : Word),
    s.nch ≤ 2 → s.order ≤ 16 → s'.nch ≤ 2 → s'.order ≤ 16 → c ≤ 1 → ch < s.nch → k < s.order / 2 →
    ch < s'.nch → k < s'.order / 2 → s.status.prepared = true → s'.status.prepared = true →
    s.coefAt k = s'.coefAt k → s.zAt c ch k = s'.zAt c ch k → s.freeIdx = s'.freeIdx →
    exec (.apply c ch k x) s = .next t → exec (.apply c ch k x) s' = .next t' →
    t.rdata = t'.rdata ∧ t.zAt c ch k = t'.zAt c ch k

/-- R117: `CASCADE` passes the sample through sections `0 .. NSEC-1` of its chain, each by R115 on its own delay line,
and touches no other delay line and nothing else. -/
def Obligations.CascadeRunsTheSectionsInOrder : Prop :=
  ∀ (s : State) (c ch : Nat) (x : Word), s.status.prepared = true → s.nch ≤ 2 → s.order ≤ 16 → c ≤ 1 → ch < s.nch →
    ∃ (t : State) (v : Nat → Word) (nan : Nat → Nat → Word), exec (.cascade c ch x) s = .next t ∧
      v 0 = x ∧ t.rdata = v (s.order / 2) ∧
      (∀ k, k < s.order / 2 → (v (k + 1), t.zAt c ch k) = biquad (nan k) (s.coefAt k) (s.zAt c ch k) (v k)) ∧
      (∀ c' ch' k', ¬ (c' = c ∧ ch' = ch ∧ k' < s.order / 2) → t.zAt c' ch' k' = s.zAt c' ch' k') ∧
      t = { s with z := t.z, rdata := t.rdata, freeIdx := t.freeIdx }

/-- R117: with one section `CASCADE` is `APPLY` of section 0, faults and all. That the two commands also agree in the NaN
of each operation and in the `rdata` of a fault is the model's choice and not R117's: its free values are indexed by
command number, place and operation (log 4, DESIGN CHOICE) and by command number (log 3). -/
def Obligations.CascadeOfOneSectionIsApply : Prop :=
  ∀ (s : State) (c ch : Nat) (x : Word), s.order / 2 = 1 → exec (.cascade c ch x) s = exec (.apply c ch 0 x) s

/-- R120: on a cleared section a finite coefficient set and a finite sample never give a NaN. -/
def Obligations.FirstSampleAfterAClearIsNoNaN : Prop :=
  ∀ (s t : State) (c ch k : Nat) (x : Word), s.status.prepared = true → s.nch ≤ 2 → s.order ≤ 16 →
    c ≤ 1 → ch < s.nch → k < s.order / 2 → s.zAt c ch k = ⟨0#32, 0#32⟩ → (s.coefAt k).isFinite = true →
    isFinite x = true → exec (.apply c ch k x) s = .next t → isNaN t.rdata = false

/-! ## The decimator and the sample period -/

/-- R140 to R144: `DECIM`, said of the state before it: what is latched, the counter, both chains, the gain. -/
def Obligations.DecimHoldsAndFilters : Prop :=
  ∀ (s : State) (ch : Nat) (x : Word), s.status.prepared = true → s.nch ≤ 2 → s.order ≤ 16 → ch < s.nch →
    ∃ (t : State) (nan : Word), exec (.decim ch x) s = .next t ∧
      (let pre := cascadeChain Config.lpc s 0 ch x
       let held := if s.cntAt ch = 0#4 then pre.1 else s.heldAt ch
       let post := cascadeChain Config.lpc s 1 ch held
       t.rdata = fmul nan post.1 (Config.lpc.gain s.d) ∧ t.heldAt ch = held ∧
       t.cntAt ch = (if s.d ≤ (s.cntAt ch).toNat + 1 then 0#4 else s.cntAt ch + 1#4) ∧
       ∀ k, t.zAt 0 ch k = pre.2.zAt 0 ch k ∧ t.zAt 1 ch k = post.2.zAt 1 ch k) ∧
      (∀ ch', ch' ≠ ch → t.cntAt ch' = s.cntAt ch' ∧ t.heldAt ch' = s.heldAt ch' ∧
        ∀ c k, t.zAt c ch' k = s.zAt c ch' k) ∧
      t = { s with z := t.z, cnt := t.cnt, held := t.held, rdata := t.rdata, freeIdx := t.freeIdx }

/-- R145: with `D = 1` and the counter at 0, `DECIM` is both chains and the gain, and the counter stays 0. -/
def Obligations.DecimWithFactorOneIsADoubleFilter : Prop :=
  ∀ (s : State) (ch : Nat) (x : Word), s.status.prepared = true → s.nch ≤ 2 → ch < s.nch → s.d = 1 →
    s.cntAt ch = 0#4 →
    ∃ (t : State) (nan : Word), exec (.decim ch x) s = .next t ∧ t.cntAt ch = 0#4 ∧
      t.rdata = fmul nan (cascadeChain Config.lpc s 1 ch (cascadeChain Config.lpc s 0 ch x).1).1 (Config.lpc.gain 1)

/-- R148, R149: `WRX` stores the operand word unchanged in `XIN[ch]`; `RDY` answers `YOUT[ch]` and changes nothing. -/
def Obligations.WrxStoresAndRdyAnswers : Prop :=
  ∀ (s : State) (ch : Nat), s.status.prepared = true → s.nch ≤ 2 → ch < s.nch →
    (∀ x, ∃ t, exec (.wrx ch x) s = .next t ∧ t.xinAt ch = x ∧ t.rdata = 0#32 ∧
      (∀ ch', ch' ≠ ch → t.xinAt ch' = s.xinAt ch') ∧
      t = { s with xin := t.xin, rdata := t.rdata, freeIdx := t.freeIdx }) ∧
    (∃ t, exec (.rdy ch) s = .next t ∧ t.rdata = s.youtAt ch ∧
      t = { s with rdata := t.rdata, freeIdx := t.freeIdx })

/-- R147: `I2F16(v)` is exactly `v / 32768`, and `F2I16` undoes it. -/
def Obligations.SampleConversionIsExact : Prop :=
  ∀ v : Half, isFinite (i2f16 v) = true ∧ valQ (i2f16 v) = (v.toInt : ℚ) / 32768 ∧ f2i16 (i2f16 v) = v

/-- R147: the float-to-integer conversions truncate toward zero and saturate; a NaN gives 0, an infinity an end. -/
def Obligations.SampleConversionSaturates : Prop :=
  ∀ x : Word,
    (isNaN x = true → f2i16 x = 0#16 ∧ f2i13 x = 0#13) ∧
    (isNaN x = false → isFinite x = false → f2i16 x = (if x.msb then 0x8000#16 else 0x7FFF#16) ∧
      f2i13 x = (if x.msb then 0x1000#13 else 0x0FFF#13)) ∧
    (isFinite x = true →
      (f2i16 x).toInt = clamp (Int.tdiv (valQ x * 32768).num (valQ x * 32768).den) (-32768) 32767 ∧
      (f2i13 x).toInt = clamp (Int.tdiv (valQ x * 4096).num (valQ x * 4096).den) (-4096) 4095)

/-- R150, R152: with no module a `STEP` copies `XIN` to `YOUT` bit for bit and changes nothing else. -/
def Obligations.StepWithNoModulePassesThrough : Prop :=
  ∀ s : State, s.status.prepared = true → s.codec = .none → s.nch ≤ 2 →
    ∃ t, exec .step s = .next t ∧ t.rdata = 0#32 ∧ (∀ ch, ch < s.nch → t.youtAt ch = s.xinAt ch) ∧
      (∀ ch, s.nch ≤ ch → t.youtAt ch = s.youtAt ch) ∧
      t = { s with yout := t.yout, rdata := t.rdata, freeIdx := t.freeIdx }

/-- R146, R150: a `STEP` with a compander, channel by channel, said of the state before it. -/
def Obligations.StepWithACompanderRoundTripsTheLatchedSample : Prop :=
  ∀ s : State, s.status.prepared = true → s.codec = .mulaw ∨ s.codec = .alaw → s.nch ≤ 2 → s.order ≤ 16 →
    ∃ t, exec .step s = .next t ∧ t.rdata = 0#32 ∧
      (∀ ch, ch < s.nch →
        let pre := cascadeChain Config.lpc s 0 ch (s.xinAt ch)
        let trip := if s.codec = .mulaw then ulDec Config.lpc.ulaw (ulEnc Config.lpc.ulaw (f2i16 pre.1))
          else alDec Config.lpc.alaw (alEnc Config.lpc.alaw (f2i16 pre.1))
        let held := if s.cntAt ch = 0#4 then i2f16 trip else s.heldAt ch
        let post := cascadeChain Config.lpc s 1 ch held
        (∃ nan, t.youtAt ch = fmul nan post.1 (Config.lpc.gain s.d)) ∧ t.heldAt ch = held ∧
        t.cntAt ch = (if s.d ≤ (s.cntAt ch).toNat + 1 then 0#4 else s.cntAt ch + 1#4) ∧
        ∀ k, t.zAt 0 ch k = pre.2.zAt 0 ch k ∧ t.zAt 1 ch k = post.2.zAt 1 ch k) ∧
      (∀ ch, s.nch ≤ ch → t.youtAt ch = s.youtAt ch ∧ t.heldAt ch = s.heldAt ch ∧ t.cntAt ch = s.cntAt ch ∧
        ∀ c k, t.zAt c ch k = s.zAt c ch k) ∧
      t = { s with z := t.z, cnt := t.cnt, held := t.held, yout := t.yout, rdata := t.rdata, freeIdx := t.freeIdx }

/-- R146, R150, R167: a `STEP` with VOX, channel by channel, said of the state before it: at a latch instant the
encoder's code goes straight into the decoder and 16 times its predictor is held. -/
def Obligations.StepWithVoxRoundTripsTheLatchedSample : Prop :=
  ∀ s : State, s.status.prepared = true → s.codec = .vox → s.nch ≤ 2 → s.order ≤ 16 →
    ∃ t, exec .step s = .next t ∧ t.rdata = 0#32 ∧
      (∀ ch, ch < s.nch →
        let pre := cascadeChain Config.lpc s 0 ch (s.xinAt ch)
        let code := voxCode Config.lpc.vox (s.voxAt 0 ch) (f2i16 pre.1)
        let enc := voxRecon Config.lpc.vox (s.voxAt 0 ch) code
        let dec := voxRecon Config.lpc.vox (s.voxAt 1 ch) code
        let latched := s.cntAt ch = 0#4
        let held := if latched then i2f16 (BitVec.ofInt 16 (dec.pred * 16)) else s.heldAt ch
        let post := cascadeChain Config.lpc s 1 ch held
        (∃ nan, t.youtAt ch = fmul nan post.1 (Config.lpc.gain s.d)) ∧ t.heldAt ch = held ∧
        t.voxAt 0 ch = (if latched then enc else s.voxAt 0 ch) ∧
        t.voxAt 1 ch = (if latched then dec else s.voxAt 1 ch) ∧
        t.cntAt ch = (if s.d ≤ (s.cntAt ch).toNat + 1 then 0#4 else s.cntAt ch + 1#4) ∧
        ∀ k, t.zAt 0 ch k = pre.2.zAt 0 ch k ∧ t.zAt 1 ch k = post.2.zAt 1 ch k) ∧
      (∀ ch, s.nch ≤ ch → t.youtAt ch = s.youtAt ch ∧ t.heldAt ch = s.heldAt ch ∧ t.cntAt ch = s.cntAt ch ∧
        (∀ dir, t.voxAt dir ch = s.voxAt dir ch) ∧ ∀ c k, t.zAt c ch k = s.zAt c ch k) ∧
      t = { s with z := t.z, cnt := t.cnt, held := t.held, vox := t.vox, yout := t.yout,
                   rdata := t.rdata, freeIdx := t.freeIdx }

/-- R151, R208 to R210: a `STEP` with GSM runs the mono sample through channel 0, pushes the engine at a latch instant
and only there, and gives every active channel the same result. -/
def Obligations.StepWithGsmRunsTheMonoPath : Prop :=
  ∀ s : State, s.status.prepared = true → s.codec = .gsm → 1 ≤ s.nch → s.nch ≤ 2 → s.order ≤ 16 →
    ∃ (t : State) (nan : Nat → Word), exec .step s = .next t ∧ t.rdata = 0#32 ∧
      (let m := if s.nch = 1 then s.xinAt 0 else fmul (nan 1) (fadd (nan 0) (s.xinAt 0) (s.xinAt 1)) 0x3F000000#32
       let low := lowCut Config.lpc s m
       let pre := cascadeChain Config.lpc s 0 0 low.1
       let push := gsmPush Config.lpc s (f2i13 pre.1)
       let latched := s.cntAt 0 = 0#4
       let held := if latched then i2f16 push.1 else s.heldAt 0
       let post := cascadeChain Config.lpc s 1 0 held
       (∀ ch, ch < s.nch → t.youtAt ch = fmul (nan 2) post.1 (Config.lpc.gain s.d)) ∧
       t.heldAt 0 = held ∧ t.lcz = low.2.lcz ∧
       t.cntAt 0 = (if s.d ≤ (s.cntAt 0).toNat + 1 then 0#4 else s.cntAt 0 + 1#4) ∧
       (∀ k, t.zAt 0 0 k = pre.2.zAt 0 0 k ∧ t.zAt 1 0 k = post.2.zAt 1 0 k) ∧
       (let g := if latched then push.2 else s
        t.buf = g.buf ∧ t.role = g.role ∧ t.gidx = g.gidx ∧ t.frame = g.frame ∧ t.gstate = g.gstate)) ∧
      (∀ ch, ch ≠ 0 → t.heldAt ch = s.heldAt ch ∧ t.cntAt ch = s.cntAt ch ∧ ∀ c k, t.zAt c ch k = s.zAt c ch k) ∧
      (∀ ch, s.nch ≤ ch → t.youtAt ch = s.youtAt ch) ∧
      t = { s with z := t.z, lcz := t.lcz, cnt := t.cnt, held := t.held, buf := t.buf, role := t.role,
                   gidx := t.gidx, frame := t.frame, gstate := t.gstate, yout := t.yout,
                   rdata := t.rdata, freeIdx := t.freeIdx }

/-- R209: `LowCut` is the identity when `LOWCUT` is absent, and otherwise one section of R115 with its coefficients and
the state `LCZ`, whatever the configuration. -/
def Obligations.LowCutIsAbsentOrOneSection : Prop :=
  ∀ (cfg : Config) (s : State) (m : Word),
    (cfg.lowcut = none → lowCut cfg s m = (m, s)) ∧
    (∀ q, cfg.lowcut = some q → ∃ nan : Nat → Word,
      let r := biquad nan q s.lcz m
      lowCut cfg s m = (r.1, { s with lcz := r.2 }))

/-! ## VOX -/

/-- R161, R163, R166: `VOXDEC` on a prepared unit: the reconstruction written out, the step being the table's entry at
`idx`, and 16 times the new predictor. -/
def Obligations.VoxdecReconstructs : Prop :=
  ∀ (s : State) (ch : Nat) (code : BitVec 4), s.status.prepared = true → s.nch ≤ 2 → ch < s.nch →
    ∃ (t : State) (step : Nat), exec (.voxdec ch code) s = .next t ∧
      (let st := s.voxAt 1 ch
       let table : List ℕ+ := Config.lpc.vox.step0 :: Config.lpc.vox.steps
       let delta : Int := (((2 * (code.toNat % 8) + 1) * step) / 8 : Nat)
       let p := if 8 ≤ code.toNat then st.pred - delta else st.pred + delta
       let i := (st.idx : Int) + Config.lpc.vox.indexDelta code
       (∀ h : st.idx < table.length, step = (table[st.idx] : Nat)) ∧
       (t.voxAt 1 ch).pred = max (-2048) (min 2047 p) ∧
       ((t.voxAt 1 ch).idx : Int) = max 0 (min ((table.length : Int) - 1) i) ∧
       t.voxAt 1 ch = voxRecon Config.lpc.vox st code ∧
       t.rdata.toInt = (t.voxAt 1 ch).pred * 16) ∧
      (∀ dir ch', ¬ (dir = 1 ∧ ch' = ch) → t.voxAt dir ch' = s.voxAt dir ch') ∧
      t = { s with vox := t.vox, rdata := t.rdata, freeIdx := t.freeIdx }

/-- R161, R163 to R165: `VOXENC` on a prepared unit: the three tests by cumulative subtraction, the step being the table's
entry at `idx`, and the encoder's own state by the same reconstruction. -/
def Obligations.VoxencQuantizesAndTracks : Prop :=
  ∀ (s : State) (ch : Nat) (v : Half), s.status.prepared = true → s.nch ≤ 2 → ch < s.nch →
    ∃ (t : State) (code : BitVec 4) (step : Nat), exec (.voxenc ch v) s = .next t ∧ t.rdata = code.setWidth 32 ∧
      (let st := s.voxAt 0 ch
       let table : List ℕ+ := Config.lpc.vox.step0 :: Config.lpc.vox.steps
       let diff := v.toInt / 16 - st.pred
       let d0 := diff.natAbs
       let d1 := if step ≤ d0 then d0 - step else d0
       let d2 := if step / 2 ≤ d1 then d1 - step / 2 else d1
       let delta : Int := (((2 * (code.toNat % 8) + 1) * step) / 8 : Nat)
       let p := if 8 ≤ code.toNat then st.pred - delta else st.pred + delta
       let i := (st.idx : Int) + Config.lpc.vox.indexDelta code
       (∀ h : st.idx < table.length, step = (table[st.idx] : Nat)) ∧
       code.toNat = (if diff < 0 then 8 else 0) + (if step ≤ d0 then 4 else 0) + (if step / 2 ≤ d1 then 2 else 0) +
         (if step / 4 ≤ d2 then 1 else 0) ∧
       code = voxCode Config.lpc.vox st v ∧
       (t.voxAt 0 ch).pred = max (-2048) (min 2047 p) ∧
       ((t.voxAt 0 ch).idx : Int) = max 0 (min ((table.length : Int) - 1) i) ∧
       t.voxAt 0 ch = voxRecon Config.lpc.vox st code) ∧
      (∀ dir ch', ¬ (dir = 0 ∧ ch' = ch) → t.voxAt dir ch' = s.voxAt dir ch') ∧
      t = { s with vox := t.vox, rdata := t.rdata, freeIdx := t.freeIdx }

/-- R167: from equal states, the code `VOXENC` answers, given to `VOXDEC`, leaves the states equal again, and `VOXDEC`
answers 16 times the encoder's own predictor. -/
def Obligations.VoxDecoderTracksTheEncoder : Prop :=
  ∀ (s t u : State) (ch : Nat) (v : Half), s.status.prepared = true → s.nch ≤ 2 → ch < s.nch →
    s.voxAt 0 ch = s.voxAt 1 ch → exec (.voxenc ch v) s = .next t →
    exec (.voxdec ch (t.rdata.extractLsb' 0 4)) t = .next u →
    u.voxAt 0 ch = u.voxAt 1 ch ∧ u.rdata.toInt = 16 * (u.voxAt 0 ch).pred

/-! ## Companders -/

/-- R184: `ULENC` in every state; the segment is the least that admits the magnitude, when one does (log 11). -/
def Obligations.UlencPacksSignSegmentMantissa : Prop :=
  ∀ (s : State) (pcm : Half), ∃ (t : State) (seg : Fin 8), exec (.ulenc pcm) s = .next t ∧
    (let r := Config.lpc.ulaw
     let mag := min pcm.toInt.natAbs r.clip + r.bias
     ((∃ i, mag < r.bound i) → mag < r.bound seg ∧ ∀ i, i < seg → r.bound i ≤ mag) ∧
     t.rdata = (BitVec.ofNat 8 ((if pcm.toInt < 0 then 0x80 else 0) + seg.val * 16 + mag / 2 ^ (seg.val + 3) % 16) ^^^
       r.mask).setWidth 32) ∧
    t = { s with rdata := t.rdata, freeIdx := t.freeIdx }

/-- R186: `ALENC` in every state; the segment is the least that admits the magnitude, when one does (log 11). -/
def Obligations.AlencPacksSignSegmentMantissa : Prop :=
  ∀ (s : State) (pcm : Half), ∃ (t : State) (seg : Fin 8), exec (.alenc pcm) s = .next t ∧
    (let r := Config.lpc.alaw
     let v := pcm.toInt / 8
     let mag := (if 0 ≤ v then v else -v - 1).toNat
     ((∃ i, mag ≤ r.sega i) → mag ≤ r.sega seg ∧ ∀ i, i < seg → r.sega i < mag) ∧
     t.rdata = (BitVec.ofNat 8 ((if 0 ≤ v then 0x80 else 0) + seg.val * 16 +
       (if seg.val < 2 then mag / 2 else mag / 2 ^ seg.val) % 16) ^^^ r.mask).setWidth 32) ∧
    t = { s with rdata := t.rdata, freeIdx := t.freeIdx }

/-- R185, R187: the decoders answer their table's entry, sign-extended, in every state. -/
def Obligations.CompanderDecodersReadTheirTables : Prop :=
  ∀ (s : State) (b : Byte),
    (∃ t, exec (.uldec b) s = .next t ∧ t.rdata.toInt = (Config.lpc.ulaw.table b).toInt ∧
      t = { s with rdata := t.rdata, freeIdx := t.freeIdx }) ∧
    (∃ t, exec (.aldec b) s = .next t ∧ t.rdata.toInt = (Config.lpc.alaw.table b).toInt ∧
      t = { s with rdata := t.rdata, freeIdx := t.freeIdx })

/-- R189: for every record, the segment is non-decreasing in the magnitude, as far as a boundary admits it. -/
def Obligations.SegmentIsMonotonicInMagnitude : Prop :=
  (∀ (r : Ulaw) (m n : Nat), m ≤ n → (∃ i, n < r.bound i) → ulSeg r m ≤ ulSeg r n) ∧
  (∀ (r : Alaw) (m n : Nat), m ≤ n → (∃ i, n ≤ r.sega i) → alSeg r m ≤ alSeg r n)

/-- R189 (95_test_vectors.md V14): with the default records, re-encoding a decoded byte gives it back, but for the
mu-law negative zero. -/
def Obligations.DefaultCompandersReencodeTheirBytes : Prop :=
  ∀ b : Byte, ulEnc ulawDefault (ulDec ulawDefault b) = (if b = 0x7F#8 then 0xFF#8 else b) ∧
    alEnc alawDefault (alDec alawDefault b) = b

/-! ## GSM -/

/-- R202, R203, R206: a `GSMPUSH` that does not fill the buffer, in every state: one sample out, one in. -/
def Obligations.GsmpushBeforeTheFrameIsFull : Prop :=
  ∀ (s : State) (v : BitVec 13), s.gidx.val < 159 →
    ∃ t, exec (.gsmpush v) s = .next t ∧
      t.rdata.toInt = (s.bufAt s.role.rout s.gidx).toInt ∧
      (t.bufAt s.role.rin s.gidx).toInt = 8 * v.toInt ∧
      (∀ p i, ¬ (p = s.role.rin.val ∧ i = s.gidx.val) → t.bufAt p i = s.bufAt p i) ∧
      t.gidx.val = s.gidx.val + 1 ∧
      t = { s with buf := t.buf, gidx := t.gidx, rdata := t.rdata, freeIdx := t.freeIdx }

/-- R203, R204, R206: the `GSMPUSH` that fills the buffer: the old output sample is answered, then one encode and one
decode of the full frame, the roles rotated, the buffer refilled from 0. -/
def Obligations.GsmpushOfTheLastSampleRoundTrips : Prop :=
  ∀ (s : State) (v : BitVec 13), s.gidx.val = 159 →
    ∃ (t : State) (full : Vector Half 160), exec (.gsmpush v) s = .next t ∧
      t.rdata.toInt = (s.bufAt s.role.rout 159).toInt ∧
      full[159].toInt = 8 * v.toInt ∧ (∀ i (h : i < 159), full[i] = s.bufAt s.role.rin i) ∧
      (let e := Config.lpc.gsm.encode s.gstate full
       let d := Config.lpc.gsm.decode e.1 e.2
       t.frame = e.2 ∧ t.gstate = d.1 ∧ ∀ i (h : i < 160), t.bufAt s.role.rin i = d.2[i]) ∧
      (∀ p i, p ≠ s.role.rin.val → t.bufAt p i = s.bufAt p i) ∧
      t.role = ⟨s.role.rwork, s.role.rout, s.role.rin⟩ ∧ t.gidx = 0 ∧
      t = { s with buf := t.buf, role := t.role, gidx := t.gidx, frame := t.frame, gstate := t.gstate,
                   rdata := t.rdata, freeIdx := t.freeIdx }

/-- R204, R205, R206: from an empty input buffer, 160 pushes answer the old output buffer in order, make exactly one
round trip, on the samples pushed, and rotate `(a, b, c)` to `(b, c, a)`, the decoded frame being the new output
buffer; fewer pushes make none. `run` is the state after the first `n` pushes. -/
def Obligations.GsmFrameTakesExactly160Pushes : Prop :=
  ∀ (s : State) (v : Nat → BitVec 13) (run : Nat → State), s.gidx = 0 → s.role.rin ≠ s.role.rout →
    run 0 = s → (∀ n, exec (.gsmpush (v n)) (run n) = .next (run (n + 1))) →
    (∀ n, n < 160 → (run (n + 1)).rdata.toInt = (s.bufAt s.role.rout n).toInt) ∧
    (∀ n, n < 160 → (run n).role = s.role ∧ (run n).frame = s.frame ∧ (run n).gstate = s.gstate) ∧
    (run 160).role = ⟨s.role.rwork, s.role.rout, s.role.rin⟩ ∧ (run 160).gidx = 0 ∧
    ∃ words : Vector Half 160, (∀ i (h : i < 160), words[i].toInt = 8 * (v i).toInt) ∧
      let e := Config.lpc.gsm.encode s.gstate words
      let d := Config.lpc.gsm.decode e.1 e.2
      (run 160).frame = e.2 ∧ (run 160).gstate = d.1 ∧
        ∀ i (h : i < 160), (run 160).bufAt (run 160).role.rout i = d.2[i]

/-! ## Whole-machine rules -/

/-- R27, U16: `MODE` has no effect: running any command but `GETPAR`, `SETPAR` and `RDREG` with another `MODE` gives the
same state with that `MODE`. That the unspecified words (a NaN, the `rdata` of a fault) agree as well is the model's
choice, not R27: logs 3 and 4 take them at the command's number. -/
def Obligations.ModeHasNoEffectOnProcessing : Prop :=
  ∀ (i : Instr) (s t : State) (m : Nat), i ≠ .getpar → (∀ mode d, i ≠ .setpar mode d) → (∀ a, i ≠ .rdreg a) →
    exec i s = .next t → exec i { s with mode := m } = .next { t with mode := m }

/-- R40, R280: the values after power-on reset, that of every piece of state. -/
def Obligations.PowerOnResetValues : Prop :=
  State.reset.status = ⟨false, false, 0#4⟩ ∧ State.reset.fs = 0#32 ∧ State.reset.nch = 0 ∧ State.reset.order = 8 ∧
  State.reset.d = 1 ∧ State.reset.mode = 1 ∧ State.reset.codec = .none ∧
  (∀ k, State.reset.coefAt k = ⟨0#32, 0#32, 0#32, 0#32, 0#32⟩) ∧
  (∀ c ch k, State.reset.zAt c ch k = ⟨0#32, 0#32⟩) ∧ State.reset.lcz = ⟨0#32, 0#32⟩ ∧
  (∀ ch, State.reset.cntAt ch = 0#4 ∧ State.reset.heldAt ch = 0#32 ∧ State.reset.xinAt ch = 0#32 ∧
    State.reset.youtAt ch = 0#32) ∧
  (∀ dir ch, State.reset.voxAt dir ch = ⟨0, 0⟩) ∧ (∀ p i, State.reset.bufAt p i = 0#16) ∧
  State.reset.role = ⟨0, 1, 2⟩ ∧ State.reset.gidx = 0 ∧ (∀ i, State.reset.frameAt i = 0#8) ∧
  State.reset.gstate = Config.lpc.gsm.init

/-- R39: the invariants hold after power-on reset. -/
def Obligations.InvariantsHoldAtReset : Prop := Inv Config.lpc State.reset

/-- R39: every step keeps the invariants, whatever the host presents. -/
def Obligations.EveryStepKeepsTheInvariants : Prop :=
  ∀ s t : State, Inv Config.lpc s → step s = .next t → Inv Config.lpc t
end

