-- ==== Sys2Proof/Laws/Compander.lean ====
section
/-! SUPPORT. The segment search of the companders, said once. -/

namespace Sys2Proof.Machine

/-- Where some segment admits the magnitude, the search answers the least that does. -/
theorem leastSeg_spec {admits : Fin 8 → Bool} {free : Fin 8} (h : ∃ i, admits i = true) :
    admits (leastSeg admits free) = true ∧ ∀ i, i < leastSeg admits free → admits i = false := by
  unfold leastSeg
  obtain ⟨i, hi⟩ := h
  cases hf : (List.finRange 8).find? admits with
  | none => exact absurd hi (List.find?_eq_none.mp hf i (List.mem_finRange i))
  | some j =>
    obtain ⟨hj, as, bs, hab, hno⟩ := List.find?_eq_some_iff_append.mp hf
    refine ⟨hj, fun k hk => ?_⟩
    have hlen : as.length = j.val := by
      have := congrArg (fun l => l[as.length]?) hab
      simp only [List.getElem?_append_right (Nat.le_refl _), Nat.sub_self, List.getElem?_cons_zero] at this
      obtain ⟨h1, h2⟩ := List.getElem?_eq_some_iff.mp this
      rw [List.getElem_finRange] at h2
      simpa using congrArg Fin.val h2
    have hkm : k ∈ as := by
      have hk' : k.val < as.length := hlen ▸ hk
      have := congrArg (fun l => l[k.val]?) hab
      simp only [List.getElem?_append_left hk'] at this
      have h8 : k.val < (List.finRange 8).length := by simp
      rw [List.getElem?_eq_getElem h8, List.getElem?_eq_getElem hk', List.getElem_finRange] at this
      have e : as[k.val] = k := by simpa using (Option.some.inj this).symm
      exact e ▸ List.getElem_mem hk'
    simpa using hno k hkm

/-- A magnitude that admits more segments has no higher a segment. -/
theorem leastSeg_mono {p q : Fin 8 → Bool} {f g : Fin 8} (hpq : ∀ i, q i = true → p i = true)
    (hq : ∃ i, q i = true) : leastSeg p f ≤ leastSeg q g := by
  obtain ⟨h1, -⟩ := leastSeg_spec (free := g) hq
  obtain ⟨-, h2⟩ := leastSeg_spec (admits := p) (free := f) ⟨_, hpq _ h1⟩
  by_contra hlt
  have := h2 _ (not_le.mp hlt)
  rw [hpq _ h1] at this
  exact absurd this (by decide)

/-- A compander byte as a number, before its mask. -/
theorem packByte_eq (sign : Bool) (seg : Fin 8) (m : Nat) (mask : Byte) :
    packByte sign seg (BitVec.ofNat 4 m) mask =
      BitVec.ofNat 8 ((if sign then 0x80 else 0) + seg.val * 16 + m % 16) ^^^ mask := by
  unfold packByte
  congr 1
  have hm : BitVec.ofNat 4 m = BitVec.ofNat 4 (m % 16) := by
    apply BitVec.eq_of_toNat_eq
    simp
  rw [hm]
  have : m % 16 < 16 := Nat.mod_lt _ (by decide)
  generalize m % 16 = k at this
  revert sign seg
  interval_cases k <;> decide

end Sys2Proof.Machine
end

