-- ==== Sys2Proof/Laws/State.lean ====
section
/-! SUPPORT. One lemma per field (and per accessor of a field the update leaves alone) per named update of the state,
each true by `rfl`, so that no later proof unfolds a record update. -/

namespace Sys2Proof.Machine

variable (s : State)

/-! ### `State.advance` -/

@[simp] theorem State.advance_status : s.advance.status = s.status := rfl
@[simp] theorem State.advance_fs : s.advance.fs = s.fs := rfl
@[simp] theorem State.advance_nch : s.advance.nch = s.nch := rfl
@[simp] theorem State.advance_order : s.advance.order = s.order := rfl
@[simp] theorem State.advance_d : s.advance.d = s.d := rfl
@[simp] theorem State.advance_mode : s.advance.mode = s.mode := rfl
@[simp] theorem State.advance_codec : s.advance.codec = s.codec := rfl
@[simp] theorem State.advance_coef : s.advance.coef = s.coef := rfl
@[simp] theorem State.advance_z : s.advance.z = s.z := rfl
@[simp] theorem State.advance_lcz : s.advance.lcz = s.lcz := rfl
@[simp] theorem State.advance_cnt : s.advance.cnt = s.cnt := rfl
@[simp] theorem State.advance_held : s.advance.held = s.held := rfl
@[simp] theorem State.advance_vox : s.advance.vox = s.vox := rfl
@[simp] theorem State.advance_buf : s.advance.buf = s.buf := rfl
@[simp] theorem State.advance_role : s.advance.role = s.role := rfl
@[simp] theorem State.advance_gidx : s.advance.gidx = s.gidx := rfl
@[simp] theorem State.advance_frame : s.advance.frame = s.frame := rfl
@[simp] theorem State.advance_gstate : s.advance.gstate = s.gstate := rfl
@[simp] theorem State.advance_xin : s.advance.xin = s.xin := rfl
@[simp] theorem State.advance_yout : s.advance.yout = s.yout := rfl
@[simp] theorem State.advance_stream : s.advance.stream = s.stream := rfl
@[simp] theorem State.advance_pc : s.advance.pc = s.pc + 1 := rfl
@[simp] theorem State.advance_rdata : s.advance.rdata = s.rdata := rfl
@[simp] theorem State.advance_freeIdx : s.advance.freeIdx = s.freeIdx := rfl
@[simp] theorem State.nsec_advance : s.advance.nsec = s.nsec := rfl
@[simp] theorem State.coefAt_advance (k : Nat) : s.advance.coefAt k = s.coefAt k := rfl
@[simp] theorem State.zAt_advance (c' ch' k' : Nat) : s.advance.zAt c' ch' k' = s.zAt c' ch' k' := rfl
@[simp] theorem State.cntAt_advance (ch' : Nat) : s.advance.cntAt ch' = s.cntAt ch' := rfl
@[simp] theorem State.heldAt_advance (ch' : Nat) : s.advance.heldAt ch' = s.heldAt ch' := rfl
@[simp] theorem State.voxAt_advance (dir' ch' : Nat) : s.advance.voxAt dir' ch' = s.voxAt dir' ch' := rfl
@[simp] theorem State.xinAt_advance (ch' : Nat) : s.advance.xinAt ch' = s.xinAt ch' := rfl
@[simp] theorem State.youtAt_advance (ch' : Nat) : s.advance.youtAt ch' = s.youtAt ch' := rfl
@[simp] theorem State.bufAt_advance (p i : Nat) : s.advance.bufAt p i = s.bufAt p i := rfl
@[simp] theorem State.frameAt_advance (i : Nat) : s.advance.frameAt i = s.frameAt i := rfl

/-! ### `State.answer` -/

@[simp] theorem State.answer_status (w : Word) : (s.answer w).status = s.status := rfl
@[simp] theorem State.answer_fs (w : Word) : (s.answer w).fs = s.fs := rfl
@[simp] theorem State.answer_nch (w : Word) : (s.answer w).nch = s.nch := rfl
@[simp] theorem State.answer_order (w : Word) : (s.answer w).order = s.order := rfl
@[simp] theorem State.answer_d (w : Word) : (s.answer w).d = s.d := rfl
@[simp] theorem State.answer_mode (w : Word) : (s.answer w).mode = s.mode := rfl
@[simp] theorem State.answer_codec (w : Word) : (s.answer w).codec = s.codec := rfl
@[simp] theorem State.answer_coef (w : Word) : (s.answer w).coef = s.coef := rfl
@[simp] theorem State.answer_z (w : Word) : (s.answer w).z = s.z := rfl
@[simp] theorem State.answer_lcz (w : Word) : (s.answer w).lcz = s.lcz := rfl
@[simp] theorem State.answer_cnt (w : Word) : (s.answer w).cnt = s.cnt := rfl
@[simp] theorem State.answer_held (w : Word) : (s.answer w).held = s.held := rfl
@[simp] theorem State.answer_vox (w : Word) : (s.answer w).vox = s.vox := rfl
@[simp] theorem State.answer_buf (w : Word) : (s.answer w).buf = s.buf := rfl
@[simp] theorem State.answer_role (w : Word) : (s.answer w).role = s.role := rfl
@[simp] theorem State.answer_gidx (w : Word) : (s.answer w).gidx = s.gidx := rfl
@[simp] theorem State.answer_frame (w : Word) : (s.answer w).frame = s.frame := rfl
@[simp] theorem State.answer_gstate (w : Word) : (s.answer w).gstate = s.gstate := rfl
@[simp] theorem State.answer_xin (w : Word) : (s.answer w).xin = s.xin := rfl
@[simp] theorem State.answer_yout (w : Word) : (s.answer w).yout = s.yout := rfl
@[simp] theorem State.answer_stream (w : Word) : (s.answer w).stream = s.stream := rfl
@[simp] theorem State.answer_pc (w : Word) : (s.answer w).pc = s.pc := rfl
@[simp] theorem State.answer_rdata (w : Word) : (s.answer w).rdata = w := rfl
@[simp] theorem State.answer_freeIdx (w : Word) : (s.answer w).freeIdx = s.freeIdx + 1 := rfl
@[simp] theorem State.nsec_answer (w : Word) : (s.answer w).nsec = s.nsec := rfl
@[simp] theorem State.coefAt_answer (w : Word) (k : Nat) : (s.answer w).coefAt k = s.coefAt k := rfl
@[simp] theorem State.zAt_answer (w : Word) (c' ch' k' : Nat) : (s.answer w).zAt c' ch' k' = s.zAt c' ch' k' := rfl
@[simp] theorem State.cntAt_answer (w : Word) (ch' : Nat) : (s.answer w).cntAt ch' = s.cntAt ch' := rfl
@[simp] theorem State.heldAt_answer (w : Word) (ch' : Nat) : (s.answer w).heldAt ch' = s.heldAt ch' := rfl
@[simp] theorem State.voxAt_answer (w : Word) (dir' ch' : Nat) : (s.answer w).voxAt dir' ch' = s.voxAt dir' ch' := rfl
@[simp] theorem State.xinAt_answer (w : Word) (ch' : Nat) : (s.answer w).xinAt ch' = s.xinAt ch' := rfl
@[simp] theorem State.youtAt_answer (w : Word) (ch' : Nat) : (s.answer w).youtAt ch' = s.youtAt ch' := rfl
@[simp] theorem State.bufAt_answer (w : Word) (p i : Nat) : (s.answer w).bufAt p i = s.bufAt p i := rfl
@[simp] theorem State.frameAt_answer (w : Word) (i : Nat) : (s.answer w).frameAt i = s.frameAt i := rfl

/-! ### `State.raise` -/

@[simp] theorem State.raise_status (cfg : Config) (c : Cause) : (s.raise cfg c).status = s.status.raise c := rfl
@[simp] theorem State.raise_fs (cfg : Config) (c : Cause) : (s.raise cfg c).fs = s.fs := rfl
@[simp] theorem State.raise_nch (cfg : Config) (c : Cause) : (s.raise cfg c).nch = s.nch := rfl
@[simp] theorem State.raise_order (cfg : Config) (c : Cause) : (s.raise cfg c).order = s.order := rfl
@[simp] theorem State.raise_d (cfg : Config) (c : Cause) : (s.raise cfg c).d = s.d := rfl
@[simp] theorem State.raise_mode (cfg : Config) (c : Cause) : (s.raise cfg c).mode = s.mode := rfl
@[simp] theorem State.raise_codec (cfg : Config) (c : Cause) : (s.raise cfg c).codec = s.codec := rfl
@[simp] theorem State.raise_coef (cfg : Config) (c : Cause) : (s.raise cfg c).coef = s.coef := rfl
@[simp] theorem State.raise_z (cfg : Config) (c : Cause) : (s.raise cfg c).z = s.z := rfl
@[simp] theorem State.raise_lcz (cfg : Config) (c : Cause) : (s.raise cfg c).lcz = s.lcz := rfl
@[simp] theorem State.raise_cnt (cfg : Config) (c : Cause) : (s.raise cfg c).cnt = s.cnt := rfl
@[simp] theorem State.raise_held (cfg : Config) (c : Cause) : (s.raise cfg c).held = s.held := rfl
@[simp] theorem State.raise_vox (cfg : Config) (c : Cause) : (s.raise cfg c).vox = s.vox := rfl
@[simp] theorem State.raise_buf (cfg : Config) (c : Cause) : (s.raise cfg c).buf = s.buf := rfl
@[simp] theorem State.raise_role (cfg : Config) (c : Cause) : (s.raise cfg c).role = s.role := rfl
@[simp] theorem State.raise_gidx (cfg : Config) (c : Cause) : (s.raise cfg c).gidx = s.gidx := rfl
@[simp] theorem State.raise_frame (cfg : Config) (c : Cause) : (s.raise cfg c).frame = s.frame := rfl
@[simp] theorem State.raise_gstate (cfg : Config) (c : Cause) : (s.raise cfg c).gstate = s.gstate := rfl
@[simp] theorem State.raise_xin (cfg : Config) (c : Cause) : (s.raise cfg c).xin = s.xin := rfl
@[simp] theorem State.raise_yout (cfg : Config) (c : Cause) : (s.raise cfg c).yout = s.yout := rfl
@[simp] theorem State.raise_stream (cfg : Config) (c : Cause) : (s.raise cfg c).stream = s.stream := rfl
@[simp] theorem State.raise_pc (cfg : Config) (c : Cause) : (s.raise cfg c).pc = s.pc := rfl
@[simp] theorem State.raise_rdata (cfg : Config) (c : Cause) : (s.raise cfg c).rdata = cfg.freeWord s.freeIdx := rfl
@[simp] theorem State.raise_freeIdx (cfg : Config) (c : Cause) : (s.raise cfg c).freeIdx = s.freeIdx + 1 := rfl
@[simp] theorem State.nsec_raise (cfg : Config) (c : Cause) : (s.raise cfg c).nsec = s.nsec := rfl
@[simp] theorem State.coefAt_raise (cfg : Config) (c : Cause) (k : Nat) : (s.raise cfg c).coefAt k = s.coefAt k := rfl
@[simp] theorem State.zAt_raise (cfg : Config) (c : Cause) (c' ch' k' : Nat) : (s.raise cfg c).zAt c' ch' k' = s.zAt c' ch' k' := rfl
@[simp] theorem State.cntAt_raise (cfg : Config) (c : Cause) (ch' : Nat) : (s.raise cfg c).cntAt ch' = s.cntAt ch' := rfl
@[simp] theorem State.heldAt_raise (cfg : Config) (c : Cause) (ch' : Nat) : (s.raise cfg c).heldAt ch' = s.heldAt ch' := rfl
@[simp] theorem State.voxAt_raise (cfg : Config) (c : Cause) (dir' ch' : Nat) : (s.raise cfg c).voxAt dir' ch' = s.voxAt dir' ch' := rfl
@[simp] theorem State.xinAt_raise (cfg : Config) (c : Cause) (ch' : Nat) : (s.raise cfg c).xinAt ch' = s.xinAt ch' := rfl
@[simp] theorem State.youtAt_raise (cfg : Config) (c : Cause) (ch' : Nat) : (s.raise cfg c).youtAt ch' = s.youtAt ch' := rfl
@[simp] theorem State.bufAt_raise (cfg : Config) (c : Cause) (p i : Nat) : (s.raise cfg c).bufAt p i = s.bufAt p i := rfl
@[simp] theorem State.frameAt_raise (cfg : Config) (c : Cause) (i : Nat) : (s.raise cfg c).frameAt i = s.frameAt i := rfl

/-! ### `State.setZ` -/

@[simp] theorem State.setZ_status (c ch k : Nat) (v : Delay) : (s.setZ c ch k v).status = s.status := rfl
@[simp] theorem State.setZ_fs (c ch k : Nat) (v : Delay) : (s.setZ c ch k v).fs = s.fs := rfl
@[simp] theorem State.setZ_nch (c ch k : Nat) (v : Delay) : (s.setZ c ch k v).nch = s.nch := rfl
@[simp] theorem State.setZ_order (c ch k : Nat) (v : Delay) : (s.setZ c ch k v).order = s.order := rfl
@[simp] theorem State.setZ_d (c ch k : Nat) (v : Delay) : (s.setZ c ch k v).d = s.d := rfl
@[simp] theorem State.setZ_mode (c ch k : Nat) (v : Delay) : (s.setZ c ch k v).mode = s.mode := rfl
@[simp] theorem State.setZ_codec (c ch k : Nat) (v : Delay) : (s.setZ c ch k v).codec = s.codec := rfl
@[simp] theorem State.setZ_coef (c ch k : Nat) (v : Delay) : (s.setZ c ch k v).coef = s.coef := rfl
@[simp] theorem State.setZ_lcz (c ch k : Nat) (v : Delay) : (s.setZ c ch k v).lcz = s.lcz := rfl
@[simp] theorem State.setZ_cnt (c ch k : Nat) (v : Delay) : (s.setZ c ch k v).cnt = s.cnt := rfl
@[simp] theorem State.setZ_held (c ch k : Nat) (v : Delay) : (s.setZ c ch k v).held = s.held := rfl
@[simp] theorem State.setZ_vox (c ch k : Nat) (v : Delay) : (s.setZ c ch k v).vox = s.vox := rfl
@[simp] theorem State.setZ_buf (c ch k : Nat) (v : Delay) : (s.setZ c ch k v).buf = s.buf := rfl
@[simp] theorem State.setZ_role (c ch k : Nat) (v : Delay) : (s.setZ c ch k v).role = s.role := rfl
@[simp] theorem State.setZ_gidx (c ch k : Nat) (v : Delay) : (s.setZ c ch k v).gidx = s.gidx := rfl
@[simp] theorem State.setZ_frame (c ch k : Nat) (v : Delay) : (s.setZ c ch k v).frame = s.frame := rfl
@[simp] theorem State.setZ_gstate (c ch k : Nat) (v : Delay) : (s.setZ c ch k v).gstate = s.gstate := rfl
@[simp] theorem State.setZ_xin (c ch k : Nat) (v : Delay) : (s.setZ c ch k v).xin = s.xin := rfl
@[simp] theorem State.setZ_yout (c ch k : Nat) (v : Delay) : (s.setZ c ch k v).yout = s.yout := rfl
@[simp] theorem State.setZ_stream (c ch k : Nat) (v : Delay) : (s.setZ c ch k v).stream = s.stream := rfl
@[simp] theorem State.setZ_pc (c ch k : Nat) (v : Delay) : (s.setZ c ch k v).pc = s.pc := rfl
@[simp] theorem State.setZ_rdata (c ch k : Nat) (v : Delay) : (s.setZ c ch k v).rdata = s.rdata := rfl
@[simp] theorem State.setZ_freeIdx (c ch k : Nat) (v : Delay) : (s.setZ c ch k v).freeIdx = s.freeIdx := rfl
@[simp] theorem State.nsec_setZ (c ch k : Nat) (v : Delay) : (s.setZ c ch k v).nsec = s.nsec := rfl
@[simp] theorem State.coefAt_setZ (c ch k : Nat) (v : Delay) (j : Nat) : (s.setZ c ch k v).coefAt j = s.coefAt j := rfl
@[simp] theorem State.cntAt_setZ (c ch k : Nat) (v : Delay) (ch' : Nat) : (s.setZ c ch k v).cntAt ch' = s.cntAt ch' := rfl
@[simp] theorem State.heldAt_setZ (c ch k : Nat) (v : Delay) (ch' : Nat) : (s.setZ c ch k v).heldAt ch' = s.heldAt ch' := rfl
@[simp] theorem State.voxAt_setZ (c ch k : Nat) (v : Delay) (dir' ch' : Nat) : (s.setZ c ch k v).voxAt dir' ch' = s.voxAt dir' ch' := rfl
@[simp] theorem State.xinAt_setZ (c ch k : Nat) (v : Delay) (ch' : Nat) : (s.setZ c ch k v).xinAt ch' = s.xinAt ch' := rfl
@[simp] theorem State.youtAt_setZ (c ch k : Nat) (v : Delay) (ch' : Nat) : (s.setZ c ch k v).youtAt ch' = s.youtAt ch' := rfl
@[simp] theorem State.bufAt_setZ (c ch k : Nat) (v : Delay) (p i : Nat) : (s.setZ c ch k v).bufAt p i = s.bufAt p i := rfl
@[simp] theorem State.frameAt_setZ (c ch k : Nat) (v : Delay) (i : Nat) : (s.setZ c ch k v).frameAt i = s.frameAt i := rfl

/-! ### `State.setLcz` -/

@[simp] theorem State.setLcz_status (v : Delay) : (s.setLcz v).status = s.status := rfl
@[simp] theorem State.setLcz_fs (v : Delay) : (s.setLcz v).fs = s.fs := rfl
@[simp] theorem State.setLcz_nch (v : Delay) : (s.setLcz v).nch = s.nch := rfl
@[simp] theorem State.setLcz_order (v : Delay) : (s.setLcz v).order = s.order := rfl
@[simp] theorem State.setLcz_d (v : Delay) : (s.setLcz v).d = s.d := rfl
@[simp] theorem State.setLcz_mode (v : Delay) : (s.setLcz v).mode = s.mode := rfl
@[simp] theorem State.setLcz_codec (v : Delay) : (s.setLcz v).codec = s.codec := rfl
@[simp] theorem State.setLcz_coef (v : Delay) : (s.setLcz v).coef = s.coef := rfl
@[simp] theorem State.setLcz_z (v : Delay) : (s.setLcz v).z = s.z := rfl
@[simp] theorem State.setLcz_lcz (v : Delay) : (s.setLcz v).lcz = v := rfl
@[simp] theorem State.setLcz_cnt (v : Delay) : (s.setLcz v).cnt = s.cnt := rfl
@[simp] theorem State.setLcz_held (v : Delay) : (s.setLcz v).held = s.held := rfl
@[simp] theorem State.setLcz_vox (v : Delay) : (s.setLcz v).vox = s.vox := rfl
@[simp] theorem State.setLcz_buf (v : Delay) : (s.setLcz v).buf = s.buf := rfl
@[simp] theorem State.setLcz_role (v : Delay) : (s.setLcz v).role = s.role := rfl
@[simp] theorem State.setLcz_gidx (v : Delay) : (s.setLcz v).gidx = s.gidx := rfl
@[simp] theorem State.setLcz_frame (v : Delay) : (s.setLcz v).frame = s.frame := rfl
@[simp] theorem State.setLcz_gstate (v : Delay) : (s.setLcz v).gstate = s.gstate := rfl
@[simp] theorem State.setLcz_xin (v : Delay) : (s.setLcz v).xin = s.xin := rfl
@[simp] theorem State.setLcz_yout (v : Delay) : (s.setLcz v).yout = s.yout := rfl
@[simp] theorem State.setLcz_stream (v : Delay) : (s.setLcz v).stream = s.stream := rfl
@[simp] theorem State.setLcz_pc (v : Delay) : (s.setLcz v).pc = s.pc := rfl
@[simp] theorem State.setLcz_rdata (v : Delay) : (s.setLcz v).rdata = s.rdata := rfl
@[simp] theorem State.setLcz_freeIdx (v : Delay) : (s.setLcz v).freeIdx = s.freeIdx := rfl
@[simp] theorem State.nsec_setLcz (v : Delay) : (s.setLcz v).nsec = s.nsec := rfl
@[simp] theorem State.coefAt_setLcz (v : Delay) (k : Nat) : (s.setLcz v).coefAt k = s.coefAt k := rfl
@[simp] theorem State.zAt_setLcz (v : Delay) (c' ch' k' : Nat) : (s.setLcz v).zAt c' ch' k' = s.zAt c' ch' k' := rfl
@[simp] theorem State.cntAt_setLcz (v : Delay) (ch' : Nat) : (s.setLcz v).cntAt ch' = s.cntAt ch' := rfl
@[simp] theorem State.heldAt_setLcz (v : Delay) (ch' : Nat) : (s.setLcz v).heldAt ch' = s.heldAt ch' := rfl
@[simp] theorem State.voxAt_setLcz (v : Delay) (dir' ch' : Nat) : (s.setLcz v).voxAt dir' ch' = s.voxAt dir' ch' := rfl
@[simp] theorem State.xinAt_setLcz (v : Delay) (ch' : Nat) : (s.setLcz v).xinAt ch' = s.xinAt ch' := rfl
@[simp] theorem State.youtAt_setLcz (v : Delay) (ch' : Nat) : (s.setLcz v).youtAt ch' = s.youtAt ch' := rfl
@[simp] theorem State.bufAt_setLcz (v : Delay) (p i : Nat) : (s.setLcz v).bufAt p i = s.bufAt p i := rfl
@[simp] theorem State.frameAt_setLcz (v : Delay) (i : Nat) : (s.setLcz v).frameAt i = s.frameAt i := rfl

/-! ### `State.setCnt` -/

@[simp] theorem State.setCnt_status (ch : Nat) (v : BitVec 4) : (s.setCnt ch v).status = s.status := rfl
@[simp] theorem State.setCnt_fs (ch : Nat) (v : BitVec 4) : (s.setCnt ch v).fs = s.fs := rfl
@[simp] theorem State.setCnt_nch (ch : Nat) (v : BitVec 4) : (s.setCnt ch v).nch = s.nch := rfl
@[simp] theorem State.setCnt_order (ch : Nat) (v : BitVec 4) : (s.setCnt ch v).order = s.order := rfl
@[simp] theorem State.setCnt_d (ch : Nat) (v : BitVec 4) : (s.setCnt ch v).d = s.d := rfl
@[simp] theorem State.setCnt_mode (ch : Nat) (v : BitVec 4) : (s.setCnt ch v).mode = s.mode := rfl
@[simp] theorem State.setCnt_codec (ch : Nat) (v : BitVec 4) : (s.setCnt ch v).codec = s.codec := rfl
@[simp] theorem State.setCnt_coef (ch : Nat) (v : BitVec 4) : (s.setCnt ch v).coef = s.coef := rfl
@[simp] theorem State.setCnt_z (ch : Nat) (v : BitVec 4) : (s.setCnt ch v).z = s.z := rfl
@[simp] theorem State.setCnt_lcz (ch : Nat) (v : BitVec 4) : (s.setCnt ch v).lcz = s.lcz := rfl
@[simp] theorem State.setCnt_cnt (ch : Nat) (v : BitVec 4) : (s.setCnt ch v).cnt = vset s.cnt ch v := rfl
@[simp] theorem State.setCnt_held (ch : Nat) (v : BitVec 4) : (s.setCnt ch v).held = s.held := rfl
@[simp] theorem State.setCnt_vox (ch : Nat) (v : BitVec 4) : (s.setCnt ch v).vox = s.vox := rfl
@[simp] theorem State.setCnt_buf (ch : Nat) (v : BitVec 4) : (s.setCnt ch v).buf = s.buf := rfl
@[simp] theorem State.setCnt_role (ch : Nat) (v : BitVec 4) : (s.setCnt ch v).role = s.role := rfl
@[simp] theorem State.setCnt_gidx (ch : Nat) (v : BitVec 4) : (s.setCnt ch v).gidx = s.gidx := rfl
@[simp] theorem State.setCnt_frame (ch : Nat) (v : BitVec 4) : (s.setCnt ch v).frame = s.frame := rfl
@[simp] theorem State.setCnt_gstate (ch : Nat) (v : BitVec 4) : (s.setCnt ch v).gstate = s.gstate := rfl
@[simp] theorem State.setCnt_xin (ch : Nat) (v : BitVec 4) : (s.setCnt ch v).xin = s.xin := rfl
@[simp] theorem State.setCnt_yout (ch : Nat) (v : BitVec 4) : (s.setCnt ch v).yout = s.yout := rfl
@[simp] theorem State.setCnt_stream (ch : Nat) (v : BitVec 4) : (s.setCnt ch v).stream = s.stream := rfl
@[simp] theorem State.setCnt_pc (ch : Nat) (v : BitVec 4) : (s.setCnt ch v).pc = s.pc := rfl
@[simp] theorem State.setCnt_rdata (ch : Nat) (v : BitVec 4) : (s.setCnt ch v).rdata = s.rdata := rfl
@[simp] theorem State.setCnt_freeIdx (ch : Nat) (v : BitVec 4) : (s.setCnt ch v).freeIdx = s.freeIdx := rfl
@[simp] theorem State.nsec_setCnt (ch : Nat) (v : BitVec 4) : (s.setCnt ch v).nsec = s.nsec := rfl
@[simp] theorem State.coefAt_setCnt (ch : Nat) (v : BitVec 4) (k : Nat) : (s.setCnt ch v).coefAt k = s.coefAt k := rfl
@[simp] theorem State.zAt_setCnt (ch : Nat) (v : BitVec 4) (c' ch' k' : Nat) : (s.setCnt ch v).zAt c' ch' k' = s.zAt c' ch' k' := rfl
@[simp] theorem State.heldAt_setCnt (ch : Nat) (v : BitVec 4) (ch' : Nat) : (s.setCnt ch v).heldAt ch' = s.heldAt ch' := rfl
@[simp] theorem State.voxAt_setCnt (ch : Nat) (v : BitVec 4) (dir' ch' : Nat) : (s.setCnt ch v).voxAt dir' ch' = s.voxAt dir' ch' := rfl
@[simp] theorem State.xinAt_setCnt (ch : Nat) (v : BitVec 4) (ch' : Nat) : (s.setCnt ch v).xinAt ch' = s.xinAt ch' := rfl
@[simp] theorem State.youtAt_setCnt (ch : Nat) (v : BitVec 4) (ch' : Nat) : (s.setCnt ch v).youtAt ch' = s.youtAt ch' := rfl
@[simp] theorem State.bufAt_setCnt (ch : Nat) (v : BitVec 4) (p i : Nat) : (s.setCnt ch v).bufAt p i = s.bufAt p i := rfl
@[simp] theorem State.frameAt_setCnt (ch : Nat) (v : BitVec 4) (i : Nat) : (s.setCnt ch v).frameAt i = s.frameAt i := rfl

/-! ### `State.setHeld` -/

@[simp] theorem State.setHeld_status (ch : Nat) (v : Word) : (s.setHeld ch v).status = s.status := rfl
@[simp] theorem State.setHeld_fs (ch : Nat) (v : Word) : (s.setHeld ch v).fs = s.fs := rfl
@[simp] theorem State.setHeld_nch (ch : Nat) (v : Word) : (s.setHeld ch v).nch = s.nch := rfl
@[simp] theorem State.setHeld_order (ch : Nat) (v : Word) : (s.setHeld ch v).order = s.order := rfl
@[simp] theorem State.setHeld_d (ch : Nat) (v : Word) : (s.setHeld ch v).d = s.d := rfl
@[simp] theorem State.setHeld_mode (ch : Nat) (v : Word) : (s.setHeld ch v).mode = s.mode := rfl
@[simp] theorem State.setHeld_codec (ch : Nat) (v : Word) : (s.setHeld ch v).codec = s.codec := rfl
@[simp] theorem State.setHeld_coef (ch : Nat) (v : Word) : (s.setHeld ch v).coef = s.coef := rfl
@[simp] theorem State.setHeld_z (ch : Nat) (v : Word) : (s.setHeld ch v).z = s.z := rfl
@[simp] theorem State.setHeld_lcz (ch : Nat) (v : Word) : (s.setHeld ch v).lcz = s.lcz := rfl
@[simp] theorem State.setHeld_cnt (ch : Nat) (v : Word) : (s.setHeld ch v).cnt = s.cnt := rfl
@[simp] theorem State.setHeld_held (ch : Nat) (v : Word) : (s.setHeld ch v).held = vset s.held ch v := rfl
@[simp] theorem State.setHeld_vox (ch : Nat) (v : Word) : (s.setHeld ch v).vox = s.vox := rfl
@[simp] theorem State.setHeld_buf (ch : Nat) (v : Word) : (s.setHeld ch v).buf = s.buf := rfl
@[simp] theorem State.setHeld_role (ch : Nat) (v : Word) : (s.setHeld ch v).role = s.role := rfl
@[simp] theorem State.setHeld_gidx (ch : Nat) (v : Word) : (s.setHeld ch v).gidx = s.gidx := rfl
@[simp] theorem State.setHeld_frame (ch : Nat) (v : Word) : (s.setHeld ch v).frame = s.frame := rfl
@[simp] theorem State.setHeld_gstate (ch : Nat) (v : Word) : (s.setHeld ch v).gstate = s.gstate := rfl
@[simp] theorem State.setHeld_xin (ch : Nat) (v : Word) : (s.setHeld ch v).xin = s.xin := rfl
@[simp] theorem State.setHeld_yout (ch : Nat) (v : Word) : (s.setHeld ch v).yout = s.yout := rfl
@[simp] theorem State.setHeld_stream (ch : Nat) (v : Word) : (s.setHeld ch v).stream = s.stream := rfl
@[simp] theorem State.setHeld_pc (ch : Nat) (v : Word) : (s.setHeld ch v).pc = s.pc := rfl
@[simp] theorem State.setHeld_rdata (ch : Nat) (v : Word) : (s.setHeld ch v).rdata = s.rdata := rfl
@[simp] theorem State.setHeld_freeIdx (ch : Nat) (v : Word) : (s.setHeld ch v).freeIdx = s.freeIdx := rfl
@[simp] theorem State.nsec_setHeld (ch : Nat) (v : Word) : (s.setHeld ch v).nsec = s.nsec := rfl
@[simp] theorem State.coefAt_setHeld (ch : Nat) (v : Word) (k : Nat) : (s.setHeld ch v).coefAt k = s.coefAt k := rfl
@[simp] theorem State.zAt_setHeld (ch : Nat) (v : Word) (c' ch' k' : Nat) : (s.setHeld ch v).zAt c' ch' k' = s.zAt c' ch' k' := rfl
@[simp] theorem State.cntAt_setHeld (ch : Nat) (v : Word) (ch' : Nat) : (s.setHeld ch v).cntAt ch' = s.cntAt ch' := rfl
@[simp] theorem State.voxAt_setHeld (ch : Nat) (v : Word) (dir' ch' : Nat) : (s.setHeld ch v).voxAt dir' ch' = s.voxAt dir' ch' := rfl
@[simp] theorem State.xinAt_setHeld (ch : Nat) (v : Word) (ch' : Nat) : (s.setHeld ch v).xinAt ch' = s.xinAt ch' := rfl
@[simp] theorem State.youtAt_setHeld (ch : Nat) (v : Word) (ch' : Nat) : (s.setHeld ch v).youtAt ch' = s.youtAt ch' := rfl
@[simp] theorem State.bufAt_setHeld (ch : Nat) (v : Word) (p i : Nat) : (s.setHeld ch v).bufAt p i = s.bufAt p i := rfl
@[simp] theorem State.frameAt_setHeld (ch : Nat) (v : Word) (i : Nat) : (s.setHeld ch v).frameAt i = s.frameAt i := rfl

/-! ### `State.setVox` -/

@[simp] theorem State.setVox_status (dir ch : Nat) (v : VoxState) : (s.setVox dir ch v).status = s.status := rfl
@[simp] theorem State.setVox_fs (dir ch : Nat) (v : VoxState) : (s.setVox dir ch v).fs = s.fs := rfl
@[simp] theorem State.setVox_nch (dir ch : Nat) (v : VoxState) : (s.setVox dir ch v).nch = s.nch := rfl
@[simp] theorem State.setVox_order (dir ch : Nat) (v : VoxState) : (s.setVox dir ch v).order = s.order := rfl
@[simp] theorem State.setVox_d (dir ch : Nat) (v : VoxState) : (s.setVox dir ch v).d = s.d := rfl
@[simp] theorem State.setVox_mode (dir ch : Nat) (v : VoxState) : (s.setVox dir ch v).mode = s.mode := rfl
@[simp] theorem State.setVox_codec (dir ch : Nat) (v : VoxState) : (s.setVox dir ch v).codec = s.codec := rfl
@[simp] theorem State.setVox_coef (dir ch : Nat) (v : VoxState) : (s.setVox dir ch v).coef = s.coef := rfl
@[simp] theorem State.setVox_z (dir ch : Nat) (v : VoxState) : (s.setVox dir ch v).z = s.z := rfl
@[simp] theorem State.setVox_lcz (dir ch : Nat) (v : VoxState) : (s.setVox dir ch v).lcz = s.lcz := rfl
@[simp] theorem State.setVox_cnt (dir ch : Nat) (v : VoxState) : (s.setVox dir ch v).cnt = s.cnt := rfl
@[simp] theorem State.setVox_held (dir ch : Nat) (v : VoxState) : (s.setVox dir ch v).held = s.held := rfl
@[simp] theorem State.setVox_buf (dir ch : Nat) (v : VoxState) : (s.setVox dir ch v).buf = s.buf := rfl
@[simp] theorem State.setVox_role (dir ch : Nat) (v : VoxState) : (s.setVox dir ch v).role = s.role := rfl
@[simp] theorem State.setVox_gidx (dir ch : Nat) (v : VoxState) : (s.setVox dir ch v).gidx = s.gidx := rfl
@[simp] theorem State.setVox_frame (dir ch : Nat) (v : VoxState) : (s.setVox dir ch v).frame = s.frame := rfl
@[simp] theorem State.setVox_gstate (dir ch : Nat) (v : VoxState) : (s.setVox dir ch v).gstate = s.gstate := rfl
@[simp] theorem State.setVox_xin (dir ch : Nat) (v : VoxState) : (s.setVox dir ch v).xin = s.xin := rfl
@[simp] theorem State.setVox_yout (dir ch : Nat) (v : VoxState) : (s.setVox dir ch v).yout = s.yout := rfl
@[simp] theorem State.setVox_stream (dir ch : Nat) (v : VoxState) : (s.setVox dir ch v).stream = s.stream := rfl
@[simp] theorem State.setVox_pc (dir ch : Nat) (v : VoxState) : (s.setVox dir ch v).pc = s.pc := rfl
@[simp] theorem State.setVox_rdata (dir ch : Nat) (v : VoxState) : (s.setVox dir ch v).rdata = s.rdata := rfl
@[simp] theorem State.setVox_freeIdx (dir ch : Nat) (v : VoxState) : (s.setVox dir ch v).freeIdx = s.freeIdx := rfl
@[simp] theorem State.nsec_setVox (dir ch : Nat) (v : VoxState) : (s.setVox dir ch v).nsec = s.nsec := rfl
@[simp] theorem State.coefAt_setVox (dir ch : Nat) (v : VoxState) (k : Nat) : (s.setVox dir ch v).coefAt k = s.coefAt k := rfl
@[simp] theorem State.zAt_setVox (dir ch : Nat) (v : VoxState) (c' ch' k' : Nat) : (s.setVox dir ch v).zAt c' ch' k' = s.zAt c' ch' k' := rfl
@[simp] theorem State.cntAt_setVox (dir ch : Nat) (v : VoxState) (ch' : Nat) : (s.setVox dir ch v).cntAt ch' = s.cntAt ch' := rfl
@[simp] theorem State.heldAt_setVox (dir ch : Nat) (v : VoxState) (ch' : Nat) : (s.setVox dir ch v).heldAt ch' = s.heldAt ch' := rfl
@[simp] theorem State.xinAt_setVox (dir ch : Nat) (v : VoxState) (ch' : Nat) : (s.setVox dir ch v).xinAt ch' = s.xinAt ch' := rfl
@[simp] theorem State.youtAt_setVox (dir ch : Nat) (v : VoxState) (ch' : Nat) : (s.setVox dir ch v).youtAt ch' = s.youtAt ch' := rfl
@[simp] theorem State.bufAt_setVox (dir ch : Nat) (v : VoxState) (p i : Nat) : (s.setVox dir ch v).bufAt p i = s.bufAt p i := rfl
@[simp] theorem State.frameAt_setVox (dir ch : Nat) (v : VoxState) (i : Nat) : (s.setVox dir ch v).frameAt i = s.frameAt i := rfl

/-! ### `State.setXin` -/

@[simp] theorem State.setXin_status (ch : Nat) (v : Word) : (s.setXin ch v).status = s.status := rfl
@[simp] theorem State.setXin_fs (ch : Nat) (v : Word) : (s.setXin ch v).fs = s.fs := rfl
@[simp] theorem State.setXin_nch (ch : Nat) (v : Word) : (s.setXin ch v).nch = s.nch := rfl
@[simp] theorem State.setXin_order (ch : Nat) (v : Word) : (s.setXin ch v).order = s.order := rfl
@[simp] theorem State.setXin_d (ch : Nat) (v : Word) : (s.setXin ch v).d = s.d := rfl
@[simp] theorem State.setXin_mode (ch : Nat) (v : Word) : (s.setXin ch v).mode = s.mode := rfl
@[simp] theorem State.setXin_codec (ch : Nat) (v : Word) : (s.setXin ch v).codec = s.codec := rfl
@[simp] theorem State.setXin_coef (ch : Nat) (v : Word) : (s.setXin ch v).coef = s.coef := rfl
@[simp] theorem State.setXin_z (ch : Nat) (v : Word) : (s.setXin ch v).z = s.z := rfl
@[simp] theorem State.setXin_lcz (ch : Nat) (v : Word) : (s.setXin ch v).lcz = s.lcz := rfl
@[simp] theorem State.setXin_cnt (ch : Nat) (v : Word) : (s.setXin ch v).cnt = s.cnt := rfl
@[simp] theorem State.setXin_held (ch : Nat) (v : Word) : (s.setXin ch v).held = s.held := rfl
@[simp] theorem State.setXin_vox (ch : Nat) (v : Word) : (s.setXin ch v).vox = s.vox := rfl
@[simp] theorem State.setXin_buf (ch : Nat) (v : Word) : (s.setXin ch v).buf = s.buf := rfl
@[simp] theorem State.setXin_role (ch : Nat) (v : Word) : (s.setXin ch v).role = s.role := rfl
@[simp] theorem State.setXin_gidx (ch : Nat) (v : Word) : (s.setXin ch v).gidx = s.gidx := rfl
@[simp] theorem State.setXin_frame (ch : Nat) (v : Word) : (s.setXin ch v).frame = s.frame := rfl
@[simp] theorem State.setXin_gstate (ch : Nat) (v : Word) : (s.setXin ch v).gstate = s.gstate := rfl
@[simp] theorem State.setXin_xin (ch : Nat) (v : Word) : (s.setXin ch v).xin = vset s.xin ch v := rfl
@[simp] theorem State.setXin_yout (ch : Nat) (v : Word) : (s.setXin ch v).yout = s.yout := rfl
@[simp] theorem State.setXin_stream (ch : Nat) (v : Word) : (s.setXin ch v).stream = s.stream := rfl
@[simp] theorem State.setXin_pc (ch : Nat) (v : Word) : (s.setXin ch v).pc = s.pc := rfl
@[simp] theorem State.setXin_rdata (ch : Nat) (v : Word) : (s.setXin ch v).rdata = s.rdata := rfl
@[simp] theorem State.setXin_freeIdx (ch : Nat) (v : Word) : (s.setXin ch v).freeIdx = s.freeIdx := rfl
@[simp] theorem State.nsec_setXin (ch : Nat) (v : Word) : (s.setXin ch v).nsec = s.nsec := rfl
@[simp] theorem State.coefAt_setXin (ch : Nat) (v : Word) (k : Nat) : (s.setXin ch v).coefAt k = s.coefAt k := rfl
@[simp] theorem State.zAt_setXin (ch : Nat) (v : Word) (c' ch' k' : Nat) : (s.setXin ch v).zAt c' ch' k' = s.zAt c' ch' k' := rfl
@[simp] theorem State.cntAt_setXin (ch : Nat) (v : Word) (ch' : Nat) : (s.setXin ch v).cntAt ch' = s.cntAt ch' := rfl
@[simp] theorem State.heldAt_setXin (ch : Nat) (v : Word) (ch' : Nat) : (s.setXin ch v).heldAt ch' = s.heldAt ch' := rfl
@[simp] theorem State.voxAt_setXin (ch : Nat) (v : Word) (dir' ch' : Nat) : (s.setXin ch v).voxAt dir' ch' = s.voxAt dir' ch' := rfl
@[simp] theorem State.youtAt_setXin (ch : Nat) (v : Word) (ch' : Nat) : (s.setXin ch v).youtAt ch' = s.youtAt ch' := rfl
@[simp] theorem State.bufAt_setXin (ch : Nat) (v : Word) (p i : Nat) : (s.setXin ch v).bufAt p i = s.bufAt p i := rfl
@[simp] theorem State.frameAt_setXin (ch : Nat) (v : Word) (i : Nat) : (s.setXin ch v).frameAt i = s.frameAt i := rfl

/-! ### `State.setYout` -/

@[simp] theorem State.setYout_status (ch : Nat) (v : Word) : (s.setYout ch v).status = s.status := rfl
@[simp] theorem State.setYout_fs (ch : Nat) (v : Word) : (s.setYout ch v).fs = s.fs := rfl
@[simp] theorem State.setYout_nch (ch : Nat) (v : Word) : (s.setYout ch v).nch = s.nch := rfl
@[simp] theorem State.setYout_order (ch : Nat) (v : Word) : (s.setYout ch v).order = s.order := rfl
@[simp] theorem State.setYout_d (ch : Nat) (v : Word) : (s.setYout ch v).d = s.d := rfl
@[simp] theorem State.setYout_mode (ch : Nat) (v : Word) : (s.setYout ch v).mode = s.mode := rfl
@[simp] theorem State.setYout_codec (ch : Nat) (v : Word) : (s.setYout ch v).codec = s.codec := rfl
@[simp] theorem State.setYout_coef (ch : Nat) (v : Word) : (s.setYout ch v).coef = s.coef := rfl
@[simp] theorem State.setYout_z (ch : Nat) (v : Word) : (s.setYout ch v).z = s.z := rfl
@[simp] theorem State.setYout_lcz (ch : Nat) (v : Word) : (s.setYout ch v).lcz = s.lcz := rfl
@[simp] theorem State.setYout_cnt (ch : Nat) (v : Word) : (s.setYout ch v).cnt = s.cnt := rfl
@[simp] theorem State.setYout_held (ch : Nat) (v : Word) : (s.setYout ch v).held = s.held := rfl
@[simp] theorem State.setYout_vox (ch : Nat) (v : Word) : (s.setYout ch v).vox = s.vox := rfl
@[simp] theorem State.setYout_buf (ch : Nat) (v : Word) : (s.setYout ch v).buf = s.buf := rfl
@[simp] theorem State.setYout_role (ch : Nat) (v : Word) : (s.setYout ch v).role = s.role := rfl
@[simp] theorem State.setYout_gidx (ch : Nat) (v : Word) : (s.setYout ch v).gidx = s.gidx := rfl
@[simp] theorem State.setYout_frame (ch : Nat) (v : Word) : (s.setYout ch v).frame = s.frame := rfl
@[simp] theorem State.setYout_gstate (ch : Nat) (v : Word) : (s.setYout ch v).gstate = s.gstate := rfl
@[simp] theorem State.setYout_xin (ch : Nat) (v : Word) : (s.setYout ch v).xin = s.xin := rfl
@[simp] theorem State.setYout_yout (ch : Nat) (v : Word) : (s.setYout ch v).yout = vset s.yout ch v := rfl
@[simp] theorem State.setYout_stream (ch : Nat) (v : Word) : (s.setYout ch v).stream = s.stream := rfl
@[simp] theorem State.setYout_pc (ch : Nat) (v : Word) : (s.setYout ch v).pc = s.pc := rfl
@[simp] theorem State.setYout_rdata (ch : Nat) (v : Word) : (s.setYout ch v).rdata = s.rdata := rfl
@[simp] theorem State.setYout_freeIdx (ch : Nat) (v : Word) : (s.setYout ch v).freeIdx = s.freeIdx := rfl
@[simp] theorem State.nsec_setYout (ch : Nat) (v : Word) : (s.setYout ch v).nsec = s.nsec := rfl
@[simp] theorem State.coefAt_setYout (ch : Nat) (v : Word) (k : Nat) : (s.setYout ch v).coefAt k = s.coefAt k := rfl
@[simp] theorem State.zAt_setYout (ch : Nat) (v : Word) (c' ch' k' : Nat) : (s.setYout ch v).zAt c' ch' k' = s.zAt c' ch' k' := rfl
@[simp] theorem State.cntAt_setYout (ch : Nat) (v : Word) (ch' : Nat) : (s.setYout ch v).cntAt ch' = s.cntAt ch' := rfl
@[simp] theorem State.heldAt_setYout (ch : Nat) (v : Word) (ch' : Nat) : (s.setYout ch v).heldAt ch' = s.heldAt ch' := rfl
@[simp] theorem State.voxAt_setYout (ch : Nat) (v : Word) (dir' ch' : Nat) : (s.setYout ch v).voxAt dir' ch' = s.voxAt dir' ch' := rfl
@[simp] theorem State.xinAt_setYout (ch : Nat) (v : Word) (ch' : Nat) : (s.setYout ch v).xinAt ch' = s.xinAt ch' := rfl
@[simp] theorem State.bufAt_setYout (ch : Nat) (v : Word) (p i : Nat) : (s.setYout ch v).bufAt p i = s.bufAt p i := rfl
@[simp] theorem State.frameAt_setYout (ch : Nat) (v : Word) (i : Nat) : (s.setYout ch v).frameAt i = s.frameAt i := rfl

/-! ### `State.rebuild` -/

@[simp] theorem State.rebuild_status (cfg : Config) : (s.rebuild cfg).status = s.status := rfl
@[simp] theorem State.rebuild_fs (cfg : Config) : (s.rebuild cfg).fs = s.fs := rfl
@[simp] theorem State.rebuild_nch (cfg : Config) : (s.rebuild cfg).nch = s.nch := rfl
@[simp] theorem State.rebuild_order (cfg : Config) : (s.rebuild cfg).order = s.order := rfl
@[simp] theorem State.rebuild_d (cfg : Config) : (s.rebuild cfg).d = s.d := rfl
@[simp] theorem State.rebuild_mode (cfg : Config) : (s.rebuild cfg).mode = s.mode := rfl
@[simp] theorem State.rebuild_codec (cfg : Config) : (s.rebuild cfg).codec = s.codec := rfl
@[simp] theorem State.rebuild_coef (cfg : Config) : (s.rebuild cfg).coef = State.designedCoef cfg s.fs s.d s.order := rfl
@[simp] theorem State.rebuild_z (cfg : Config) : (s.rebuild cfg).z = State.zeroDelays := rfl
@[simp] theorem State.rebuild_lcz (cfg : Config) : (s.rebuild cfg).lcz = Delay.zero := rfl
@[simp] theorem State.rebuild_cnt (cfg : Config) : (s.rebuild cfg).cnt = s.cnt := rfl
@[simp] theorem State.rebuild_held (cfg : Config) : (s.rebuild cfg).held = s.held := rfl
@[simp] theorem State.rebuild_vox (cfg : Config) : (s.rebuild cfg).vox = s.vox := rfl
@[simp] theorem State.rebuild_buf (cfg : Config) : (s.rebuild cfg).buf = s.buf := rfl
@[simp] theorem State.rebuild_role (cfg : Config) : (s.rebuild cfg).role = s.role := rfl
@[simp] theorem State.rebuild_gidx (cfg : Config) : (s.rebuild cfg).gidx = s.gidx := rfl
@[simp] theorem State.rebuild_frame (cfg : Config) : (s.rebuild cfg).frame = s.frame := rfl
@[simp] theorem State.rebuild_gstate (cfg : Config) : (s.rebuild cfg).gstate = s.gstate := rfl
@[simp] theorem State.rebuild_xin (cfg : Config) : (s.rebuild cfg).xin = s.xin := rfl
@[simp] theorem State.rebuild_yout (cfg : Config) : (s.rebuild cfg).yout = s.yout := rfl
@[simp] theorem State.rebuild_stream (cfg : Config) : (s.rebuild cfg).stream = s.stream := rfl
@[simp] theorem State.rebuild_pc (cfg : Config) : (s.rebuild cfg).pc = s.pc := rfl
@[simp] theorem State.rebuild_rdata (cfg : Config) : (s.rebuild cfg).rdata = s.rdata := rfl
@[simp] theorem State.rebuild_freeIdx (cfg : Config) : (s.rebuild cfg).freeIdx = s.freeIdx := rfl
@[simp] theorem State.nsec_rebuild (cfg : Config) : (s.rebuild cfg).nsec = s.nsec := rfl
@[simp] theorem State.cntAt_rebuild (cfg : Config) (ch' : Nat) : (s.rebuild cfg).cntAt ch' = s.cntAt ch' := rfl
@[simp] theorem State.heldAt_rebuild (cfg : Config) (ch' : Nat) : (s.rebuild cfg).heldAt ch' = s.heldAt ch' := rfl
@[simp] theorem State.voxAt_rebuild (cfg : Config) (dir' ch' : Nat) : (s.rebuild cfg).voxAt dir' ch' = s.voxAt dir' ch' := rfl
@[simp] theorem State.xinAt_rebuild (cfg : Config) (ch' : Nat) : (s.rebuild cfg).xinAt ch' = s.xinAt ch' := rfl
@[simp] theorem State.youtAt_rebuild (cfg : Config) (ch' : Nat) : (s.rebuild cfg).youtAt ch' = s.youtAt ch' := rfl
@[simp] theorem State.bufAt_rebuild (cfg : Config) (p i : Nat) : (s.rebuild cfg).bufAt p i = s.bufAt p i := rfl
@[simp] theorem State.frameAt_rebuild (cfg : Config) (i : Nat) : (s.rebuild cfg).frameAt i = s.frameAt i := rfl

/-! ### `State.resetState` -/

@[simp] theorem State.resetState_status (cfg : Config) : (s.resetState cfg).status = s.status := rfl
@[simp] theorem State.resetState_fs (cfg : Config) : (s.resetState cfg).fs = s.fs := rfl
@[simp] theorem State.resetState_nch (cfg : Config) : (s.resetState cfg).nch = s.nch := rfl
@[simp] theorem State.resetState_order (cfg : Config) : (s.resetState cfg).order = s.order := rfl
@[simp] theorem State.resetState_d (cfg : Config) : (s.resetState cfg).d = s.d := rfl
@[simp] theorem State.resetState_mode (cfg : Config) : (s.resetState cfg).mode = s.mode := rfl
@[simp] theorem State.resetState_codec (cfg : Config) : (s.resetState cfg).codec = s.codec := rfl
@[simp] theorem State.resetState_coef (cfg : Config) : (s.resetState cfg).coef = s.coef := rfl
@[simp] theorem State.resetState_z (cfg : Config) : (s.resetState cfg).z = State.zeroDelays := rfl
@[simp] theorem State.resetState_lcz (cfg : Config) : (s.resetState cfg).lcz = Delay.zero := rfl
@[simp] theorem State.resetState_cnt (cfg : Config) : (s.resetState cfg).cnt = Vector.replicate nchMax 0#4 := rfl
@[simp] theorem State.resetState_held (cfg : Config) : (s.resetState cfg).held = Vector.replicate nchMax 0#32 := rfl
@[simp] theorem State.resetState_vox (cfg : Config) : (s.resetState cfg).vox = Vector.replicate 2 (Vector.replicate nchMax ⟨0, 0⟩) := rfl
@[simp] theorem State.resetState_buf (cfg : Config) : (s.resetState cfg).buf = Vector.replicate gsmBufs (Vector.replicate frameLen 0#16) := rfl
@[simp] theorem State.resetState_role (cfg : Config) : (s.resetState cfg).role = ⟨0, 1, 2⟩ := rfl
@[simp] theorem State.resetState_gidx (cfg : Config) : (s.resetState cfg).gidx = 0 := rfl
@[simp] theorem State.resetState_frame (cfg : Config) : (s.resetState cfg).frame = Vector.replicate frameBytes 0#8 := rfl
@[simp] theorem State.resetState_gstate (cfg : Config) : (s.resetState cfg).gstate = cfg.gsm.init := rfl
@[simp] theorem State.resetState_xin (cfg : Config) : (s.resetState cfg).xin = s.xin := rfl
@[simp] theorem State.resetState_yout (cfg : Config) : (s.resetState cfg).yout = s.yout := rfl
@[simp] theorem State.resetState_stream (cfg : Config) : (s.resetState cfg).stream = s.stream := rfl
@[simp] theorem State.resetState_pc (cfg : Config) : (s.resetState cfg).pc = s.pc := rfl
@[simp] theorem State.resetState_rdata (cfg : Config) : (s.resetState cfg).rdata = s.rdata := rfl
@[simp] theorem State.resetState_freeIdx (cfg : Config) : (s.resetState cfg).freeIdx = s.freeIdx := rfl
@[simp] theorem State.nsec_resetState (cfg : Config) : (s.resetState cfg).nsec = s.nsec := rfl
@[simp] theorem State.coefAt_resetState (cfg : Config) (k : Nat) : (s.resetState cfg).coefAt k = s.coefAt k := rfl
@[simp] theorem State.xinAt_resetState (cfg : Config) (ch' : Nat) : (s.resetState cfg).xinAt ch' = s.xinAt ch' := rfl
@[simp] theorem State.youtAt_resetState (cfg : Config) (ch' : Nat) : (s.resetState cfg).youtAt ch' = s.youtAt ch' := rfl

end Sys2Proof.Machine
end

