-- ==== Sys2Proof/Laws/Ops.lean ====
section
/-! SUPPORT. What the shared operations do, said once: indexed storage, the end of a command, `Rebuild` and
`ResetState` seen through the accessors, and the register map. -/

namespace Sys2Proof.Machine

/-! ## Indexed storage -/

section
variable {α : Type} {n : Nat} [Inhabited α]

theorem vget_vset (v : Vector α n) (i j : Nat) (a : α) :
    vget (vset v i a) j = if i = j ∧ i < n then a else vget v j := by
  unfold vget vset
  by_cases hi : i < n <;> by_cases hj : j < n <;> simp [hi, hj, Vector.getElem_set]
  rintro rfl
  exact absurd hi hj

theorem vget_vset_self (v : Vector α n) (i : Nat) (a : α) (h : i < n) : vget (vset v i a) i = a := by
  simp [vget_vset, h]

theorem vget_vset_ne (v : Vector α n) (i j : Nat) (a : α) (h : i ≠ j) : vget (vset v i a) j = vget v j := by
  simp [vget_vset, h]

theorem vget_of_lt (v : Vector α n) (i : Nat) (h : i < n) : vget v i = v[i] := by simp [vget, h]

theorem vget_of_ge (v : Vector α n) (i : Nat) (h : n ≤ i) : vget v i = default := by
  simp [vget, Nat.not_lt.mpr h]

theorem vget_replicate (a : α) (i : Nat) (h : a = default) : vget (Vector.replicate n a) i = a := by
  unfold vget
  split <;> simp [h]

theorem vget_vset_vget (v : Vector α n) (i : Nat) : vset v i (vget v i) = v := by
  unfold vget vset
  split
  · rename_i h
    simp
  · rfl

theorem vget_ofFn (f : Fin n → α) (i : Nat) (h : i < n) : vget (Vector.ofFn f) i = f ⟨i, h⟩ := by
  simp [vget, h]

theorem vector_ext_vget {v w : Vector α n} (h : ∀ i, vget v i = vget w i) : v = w := by
  ext i hi
  simpa [vget, hi] using h i

end

/-! ## Accessors after their own update -/

namespace State
variable (s : State)

theorem zAt_setZ (c ch k c' ch' k' : Nat) (v : Delay) :
    (s.setZ c ch k v).zAt c' ch' k' =
      if c = c' ∧ ch = ch' ∧ k = k' ∧ c < 2 ∧ ch < nchMax ∧ k < nsecMax then v else s.zAt c' ch' k' := by
  unfold zAt setZ
  dsimp only
  rw [vget_vset]
  split_ifs with hc h h
  · obtain ⟨rfl, rfl, rfl, _, h1, h2⟩ := h
    rw [vget_vset_self _ _ _ h1, vget_vset_self _ _ _ h2]
  · obtain ⟨rfl, hc⟩ := hc
    rw [vget_vset]
    split_ifs with hch
    · obtain ⟨rfl, hch⟩ := hch
      rw [vget_vset, if_neg]
      rintro ⟨rfl, hk⟩
      exact h ⟨rfl, rfl, rfl, hc, hch, hk⟩
    · rfl
  · exact absurd ⟨h.1, h.2.2.2.1⟩ hc
  · rfl

theorem zAt_setZ_self (c ch k : Nat) (v : Delay) (hc : c < 2) (hch : ch < nchMax) (hk : k < nsecMax) :
    (s.setZ c ch k v).zAt c ch k = v := by simp [zAt_setZ, hc, hch, hk]

theorem zAt_setZ_other (c ch k c' ch' k' : Nat) (v : Delay) (h : ¬ (c' = c ∧ ch' = ch ∧ k' = k)) :
    (s.setZ c ch k v).zAt c' ch' k' = s.zAt c' ch' k' := by
  rw [zAt_setZ, if_neg]
  rintro ⟨a, b, d, -⟩
  exact h ⟨a.symm, b.symm, d.symm⟩

theorem voxAt_setVox (dir ch dir' ch' : Nat) (v : VoxState) :
    (s.setVox dir ch v).voxAt dir' ch' =
      if dir = dir' ∧ ch = ch' ∧ dir < 2 ∧ ch < nchMax then v else s.voxAt dir' ch' := by
  unfold voxAt setVox
  dsimp only
  rw [vget_vset]
  split_ifs with hd h h
  · obtain ⟨rfl, rfl, _, h1⟩ := h
    rw [vget_vset_self _ _ _ h1]
  · obtain ⟨rfl, hd⟩ := hd
    rw [vget_vset, if_neg]
    rintro ⟨rfl, hch⟩
    exact h ⟨rfl, rfl, hd, hch⟩
  · exact absurd ⟨h.1, h.2.2.1⟩ hd
  · rfl

theorem voxAt_setVox_self (dir ch : Nat) (v : VoxState) (hd : dir < 2) (hch : ch < nchMax) :
    (s.setVox dir ch v).voxAt dir ch = v := by simp [voxAt_setVox, hd, hch]

theorem voxAt_setVox_other (dir ch dir' ch' : Nat) (v : VoxState) (h : ¬ (dir' = dir ∧ ch' = ch)) :
    (s.setVox dir ch v).voxAt dir' ch' = s.voxAt dir' ch' := by
  rw [voxAt_setVox, if_neg]
  rintro ⟨a, b, -⟩
  exact h ⟨a.symm, b.symm⟩

theorem cntAt_setCnt (ch ch' : Nat) (v : BitVec 4) :
    (s.setCnt ch v).cntAt ch' = if ch = ch' ∧ ch < nchMax then v else s.cntAt ch' := by
  simp [cntAt, setCnt, vget_vset]

theorem heldAt_setHeld (ch ch' : Nat) (v : Word) :
    (s.setHeld ch v).heldAt ch' = if ch = ch' ∧ ch < nchMax then v else s.heldAt ch' := by
  simp [heldAt, setHeld, vget_vset]

theorem xinAt_setXin (ch ch' : Nat) (v : Word) :
    (s.setXin ch v).xinAt ch' = if ch = ch' ∧ ch < nchMax then v else s.xinAt ch' := by
  simp [xinAt, setXin, vget_vset]

theorem youtAt_setYout (ch ch' : Nat) (v : Word) :
    (s.setYout ch v).youtAt ch' = if ch = ch' ∧ ch < nchMax then v else s.youtAt ch' := by
  simp [youtAt, setYout, vget_vset]

/-! ## Cleared storage -/

theorem vget_replicate2 {α : Type} [Inhabited α] (m n : Nat) (a : α) (i j : Nat) (h : a = default) :
    vget (vget (Vector.replicate m (Vector.replicate n a)) i) j = a := by
  by_cases hi : i < m
  · rw [vget_of_lt _ _ hi, Vector.getElem_replicate]
    exact vget_replicate a j h
  · rw [vget_of_ge _ _ (Nat.not_lt.mp hi), h]
    exact vget_replicate default j rfl

theorem zeroDelays_at (c ch k : Nat) : vget (vget (vget zeroDelays c) ch) k = Delay.zero := by
  unfold zeroDelays
  by_cases hc : c < 2
  · rw [vget_of_lt _ _ hc, Vector.getElem_replicate]
    exact vget_replicate2 nchMax nsecMax Delay.zero ch k rfl
  · rw [vget_of_ge _ _ (Nat.not_lt.mp hc)]
    exact vget_replicate2 nchMax nsecMax Delay.zero ch k rfl

@[simp] theorem zAt_rebuild (cfg : Config) (c ch k : Nat) : (s.rebuild cfg).zAt c ch k = Delay.zero :=
  zeroDelays_at c ch k

@[simp] theorem zAt_resetState (cfg : Config) (c ch k : Nat) : (s.resetState cfg).zAt c ch k = Delay.zero :=
  zeroDelays_at c ch k

@[simp] theorem cntAt_resetState (cfg : Config) (ch : Nat) : (s.resetState cfg).cntAt ch = 0#4 :=
  vget_replicate 0#4 ch rfl

@[simp] theorem heldAt_resetState (cfg : Config) (ch : Nat) : (s.resetState cfg).heldAt ch = 0#32 :=
  vget_replicate 0#32 ch rfl

theorem zeroVox_at (dir ch : Nat) :
    vget (vget (Vector.replicate 2 (Vector.replicate nchMax (⟨0, 0⟩ : VoxState))) dir) ch = ⟨0, 0⟩ :=
  vget_replicate2 2 nchMax (⟨0, 0⟩ : VoxState) dir ch rfl

@[simp] theorem voxAt_resetState (cfg : Config) (dir ch : Nat) : (s.resetState cfg).voxAt dir ch = ⟨0, 0⟩ :=
  zeroVox_at dir ch

@[simp] theorem bufAt_resetState (cfg : Config) (p i : Nat) : (s.resetState cfg).bufAt p i = 0#16 :=
  vget_replicate2 gsmBufs frameLen 0#16 p i rfl

@[simp] theorem frameAt_resetState (cfg : Config) (i : Nat) : (s.resetState cfg).frameAt i = 0#8 :=
  vget_replicate 0#8 i rfl

theorem designedCoef_lt (cfg : Config) (fs : Word) (d order k : Nat) (h : k < order / 2) (hk : k < nsecMax) :
    vget (designedCoef cfg fs d order) k = (cfg.design fs d order)[k] := by
  simp [designedCoef, vget_ofFn _ _ hk, h]

theorem designedCoef_ge (cfg : Config) (fs : Word) (d order k : Nat) (h : order / 2 ≤ k) (hk : k < nsecMax) :
    vget (designedCoef cfg fs d order) k = Coef.zero := by
  simp [designedCoef, vget_ofFn _ _ hk, Nat.not_lt.mpr h]

/-! ## How a command ends -/

theorem channelCheck_ok {ch : Nat} (hp : s.status.prepared = true) (hch : ch < s.nch) : s.channelCheck ch = none := by
  simp [channelCheck, hp, Nat.not_le.mpr hch]

theorem channelCheck_unprepared {ch : Nat} (hp : s.status.prepared = false) :
    s.channelCheck ch = some .notPrepared := by simp [channelCheck, hp]

theorem channelCheck_beyond {ch : Nat} (hp : s.status.prepared = true) (hch : s.nch ≤ ch) :
    s.channelCheck ch = some .badChannel := by simp [channelCheck, hp, hch]

@[simp] theorem complete_none (cfg : Config) (done : State) : s.complete cfg none done = .next done := rfl

@[simp] theorem complete_some (cfg : Config) (c : Cause) (done : State) :
    s.complete cfg (some c) done = .next (s.raise cfg c) := rfl

/-- A command that completes raised its check or did its work. -/
theorem complete_cases {cfg : Config} {check : Option Cause} {done t : State}
    (h : s.complete cfg check done = .next t) :
    (∃ c, check = some c ∧ t = s.raise cfg c) ∨ (check = none ∧ t = done) := by
  cases check with
  | none => exact .inr ⟨rfl, by simpa using h.symm⟩
  | some c => exact .inl ⟨c, rfl, by simpa using h.symm⟩

end State

/-- A raised fault is what R252 says. -/
theorem faultsWith_raise (cfg : Config) (s : State) (c : Cause) :
    FaultsWith (.next (s.raise cfg c)) s c.code := ⟨s.raise cfg c, rfl, rfl, rfl⟩

theorem faultsWith_complete (cfg : Config) (s done : State) {check : Option Cause} {c : Cause}
    (h : check = some c) : FaultsWith (s.complete cfg check done) s c.code := by
  subst h
  exact faultsWith_raise cfg s c

/-! ## The register map -/

theorem regAt_of_guess {a : Nat} {r : Reg} (h : regGuess a = some r) (hr : regExists r = true) :
    regAt a = some r := by
  rw [regAt, h, Option.filter_some, if_pos hr]

theorem regGuess_regAddr (r : Reg) (h : regExists r = true) : regGuess (regAddr r) = some r := by
  cases r <;> (try rfl) <;> simp only [regExists, Bool.and_eq_true, decide_eq_true_eq, nchMax, nsecMax,
    frameBytes, gsmBufs, frameLen] at h <;> simp only [regAddr] <;> unfold regGuess
  all_goals
    repeat first
      | rw [if_neg]
        on_goal 2 => omega
      | rw [if_pos]
        on_goal 2 => omega
    simp only [Option.some.injEq, Reg.cnt.injEq, Reg.held.injEq, Reg.xin.injEq, Reg.yout.injEq, Reg.vox.injEq,
      Reg.coef.injEq, Reg.z.injEq, Reg.lcz.injEq, Reg.frame.injEq, Reg.buf.injEq]
    omega

theorem regAt_regAddr (r : Reg) (h : regExists r = true) : regAt (regAddr r) = some r :=
  regAt_of_guess (regGuess_regAddr r h) h

theorem regGuess_low {a : Nat} {r : Reg} (ha : a < 0x10) (h : regGuess a = some r) : regAddr r = a := by
  interval_cases a <;> first | (cases h; rfl) | cases h

theorem ite_eq_some_cases {α : Type} {c : Prop} [Decidable c] {x y : Option α} {r : α}
    (h : (if c then x else y) = some r) : (c ∧ x = some r) ∨ (¬ c ∧ y = some r) := by
  by_cases hc : c
  · exact .inl ⟨hc, by rwa [if_pos hc] at h⟩
  · exact .inr ⟨hc, by rwa [if_neg hc] at h⟩

theorem regGuess_addr {a : Nat} {r : Reg} (h : regGuess a = some r) : regAddr r = a := by
  by_cases h0 : a < 0x10
  · exact regGuess_low h0 h
  unfold regGuess at h
  rw [if_neg h0] at h
  obtain ⟨h1, h⟩ | ⟨h1, h⟩ := ite_eq_some_cases h
  · obtain rfl := Option.some.inj h
    simp only [regAddr]; omega
  obtain ⟨h1, h⟩ | ⟨h1, h⟩ := ite_eq_some_cases h
  · obtain rfl := Option.some.inj h
    simp only [regAddr]; omega
  obtain ⟨h1, h⟩ | ⟨h1, h⟩ := ite_eq_some_cases h
  · obtain rfl := Option.some.inj h
    simp only [regAddr]; omega
  obtain ⟨h1, h⟩ | ⟨h1, h⟩ := ite_eq_some_cases h
  · obtain rfl := Option.some.inj h
    simp only [regAddr]; omega
  obtain ⟨h1, h⟩ | ⟨h1, h⟩ := ite_eq_some_cases h
  · cases h
  obtain ⟨h1, h⟩ | ⟨h1, h⟩ := ite_eq_some_cases h
  · obtain rfl := Option.some.inj h
    simp only [regAddr]; omega
  obtain ⟨h1, h⟩ | ⟨h1, h⟩ := ite_eq_some_cases h
  · obtain rfl := Option.some.inj h
    simp only [regAddr]; omega
  obtain ⟨h1, h⟩ | ⟨h1, h⟩ := ite_eq_some_cases h
  · obtain rfl := Option.some.inj h
    simp only [regAddr]; omega
  obtain ⟨h1, h⟩ | ⟨h1, h⟩ := ite_eq_some_cases h
  · obtain rfl := Option.some.inj h
    simp only [regAddr]; omega
  obtain ⟨h1, h⟩ | ⟨h1, h⟩ := ite_eq_some_cases h
  · obtain rfl := Option.some.inj h
    simp only [regAddr]; omega
  obtain ⟨h1, h⟩ | ⟨h1, h⟩ := ite_eq_some_cases h
  · obtain rfl := Option.some.inj h
    simp only [regAddr]; omega
  obtain ⟨h1, h⟩ | ⟨h1, h⟩ := ite_eq_some_cases h
  · obtain rfl := Option.some.inj h
    simp only [regAddr]; omega
  obtain rfl := Option.some.inj h
  simp only [regAddr]; omega

theorem regAt_addr {a : Nat} {r : Reg} (h : regAt a = some r) : regExists r = true ∧ regAddr r = a := by
  simp only [regAt, Option.filter_eq_some_iff] at h
  exact ⟨h.2, regGuess_addr h.1⟩

theorem regAt_none {a : Nat} (h : ∀ r, regExists r = true → regAddr r ≠ a) : regAt a = none := by
  cases hr : regAt a with
  | none => rfl
  | some r => exact absurd (regAt_addr hr).2 (h r (regAt_addr hr).1)

theorem memRead_regAddr (s : State) (r : Reg) (h : regExists r = true) :
    memRead s (regAddr r) = some (regValue s r) := by simp [memRead, regAt_regAddr r h]

end Sys2Proof.Machine
end

