-- ==== Sys2Proof/Laws/Filter.lean ====
section
/-! SUPPORT. What one section and one chain do, said once: the frame, the section's own delay line, and that the outcome
depends on the chain's own storage alone. -/

namespace Sys2Proof.Machine

/-- The part of the state one chain reads: coefficients, its delay lines, the counter of the free values. -/
structure SameChain (s s' : State) (c ch : Nat) : Prop where
  coef : ∀ k, s.coefAt k = s'.coefAt k
  z : ∀ k, s.zAt c ch k = s'.zAt c ch k
  free : s.freeIdx = s'.freeIdx

theorem SameChain.refl (s : State) (c ch : Nat) : SameChain s s c ch := ⟨fun _ => rfl, fun _ => rfl, rfl⟩

section
variable (cfg : Config) (s : State) (c ch : Nat) (x : Word)

/-! ## One section -/

theorem applySection_frame (k : Nat) :
    (applySection cfg s c ch k x).2 = { s with z := (applySection cfg s c ch k x).2.z } := rfl

theorem applySection_self (k : Nat) (hc : c < 2) (hch : ch < nchMax) (hk : k < nsecMax) :
    ((applySection cfg s c ch k x).1, (applySection cfg s c ch k x).2.zAt c ch k) =
      biquad (cfg.freeNaN s.freeIdx (.sec c ch k)) (s.coefAt k) (s.zAt c ch k) x :=
  Prod.ext rfl (State.zAt_setZ_self s c ch k _ hc hch hk)

theorem applySection_other (k c' ch' k' : Nat) (h : ¬ (c' = c ∧ ch' = ch ∧ k' = k)) :
    (applySection cfg s c ch k x).2.zAt c' ch' k' = s.zAt c' ch' k' :=
  State.zAt_setZ_other s c ch k c' ch' k' _ h

theorem applySection_congr {s s' : State} {c ch : Nat} (h : SameChain s s' c ch) (k : Nat) :
    (applySection cfg s c ch k x).1 = (applySection cfg s' c ch k x).1 ∧
      SameChain (applySection cfg s c ch k x).2 (applySection cfg s' c ch k x).2 c ch := by
  refine ⟨by simp only [applySection, h.coef k, h.z k, h.free], h.coef, fun j => ?_, h.free⟩
  simp only [applySection, State.zAt_setZ, h.coef k, h.z k, h.z j, h.free]

/-! ## A chain -/

theorem cascadeUpTo_frame (n : Nat) :
    (cascadeUpTo cfg s c ch x n).2 = { s with z := (cascadeUpTo cfg s c ch x n).2.z } := by
  obtain ⟨z, hz⟩ : ∃ z, (cascadeUpTo cfg s c ch x n).2 = { s with z := z } := by
    induction n with
    | zero => exact ⟨s.z, rfl⟩
    | succ n ih =>
      obtain ⟨z, hz⟩ := ih
      exact ⟨_, by rw [cascadeUpTo, applySection_frame, hz]⟩
  rw [hz]

theorem cascadeUpTo_other (n c' ch' k' : Nat) (h : ¬ (c' = c ∧ ch' = ch ∧ k' < n)) :
    (cascadeUpTo cfg s c ch x n).2.zAt c' ch' k' = s.zAt c' ch' k' := by
  induction n with
  | zero => rfl
  | succ n ih =>
    rw [cascadeUpTo, applySection_other, ih]
    · exact fun ⟨a, b, d⟩ => h ⟨a, b, by omega⟩
    · exact fun ⟨a, b, d⟩ => h ⟨a, b, by omega⟩

/-- Section `k` of a chain: its output and its new delay line are those of R115, on the output of section `k - 1`. -/
theorem cascadeUpTo_section (n k : Nat) (hk : k < n) (hc : c < 2) (hch : ch < nchMax) (hn : n ≤ nsecMax) :
    ((cascadeUpTo cfg s c ch x (k + 1)).1, (cascadeUpTo cfg s c ch x n).2.zAt c ch k) =
      biquad (cfg.freeNaN s.freeIdx (.sec c ch k)) (s.coefAt k) (s.zAt c ch k) (cascadeUpTo cfg s c ch x k).1 := by
  induction n with
  | zero => omega
  | succ n ih =>
    rcases Nat.lt_or_ge k n with h | h
    · rw [← ih h (by omega)]
      congr 1
      exact applySection_other _ _ _ _ _ _ _ _ _ (by omega)
    · obtain rfl : k = n := by omega
      rw [cascadeUpTo, applySection_self _ _ _ _ _ _ hc hch (by omega), cascadeUpTo_other _ _ _ _ _ _ _ _ _ (by omega),
        cascadeUpTo_frame]
      rfl

theorem cascadeUpTo_congr {s s' : State} {c ch : Nat} (h : SameChain s s' c ch) (n : Nat) :
    (cascadeUpTo cfg s c ch x n).1 = (cascadeUpTo cfg s' c ch x n).1 ∧
      SameChain (cascadeUpTo cfg s c ch x n).2 (cascadeUpTo cfg s' c ch x n).2 c ch := by
  induction n with
  | zero => exact ⟨rfl, h⟩
  | succ n ih =>
    simp only [cascadeUpTo]
    rw [ih.1]
    exact applySection_congr cfg _ ih.2 n

theorem cascadeChain_frame :
    (cascadeChain cfg s c ch x).2 = { s with z := (cascadeChain cfg s c ch x).2.z } :=
  cascadeUpTo_frame cfg s c ch x _

theorem cascadeChain_other (c' ch' k' : Nat) (h : ¬ (c' = c ∧ ch' = ch)) :
    (cascadeChain cfg s c ch x).2.zAt c' ch' k' = s.zAt c' ch' k' :=
  cascadeUpTo_other cfg s c ch x _ c' ch' k' fun ⟨a, b, _⟩ => h ⟨a, b⟩

theorem cascadeChain_congr {s s' : State} {c ch : Nat} (h : SameChain s s' c ch) (ho : s.order = s'.order) :
    (cascadeChain cfg s c ch x).1 = (cascadeChain cfg s' c ch x).1 ∧
      SameChain (cascadeChain cfg s c ch x).2 (cascadeChain cfg s' c ch x).2 c ch := by
  have hn : s.nsec = s'.nsec := by rw [State.nsec, State.nsec, ho]
  rw [cascadeChain, cascadeChain, hn]
  exact cascadeUpTo_congr cfg x h _

end

/-! ## The commands, when their checks pass -/

theorem applyCheck_ok {s : State} {c ch k : Nat} (hp : s.status.prepared = true) (hch : ch < s.nch) (hc : c ≤ 1)
    (hk : k < s.nsec) : applyCheck s c ch k = none := by
  simp only [applyCheck, State.channelCheck_ok s hp hch]
  exact if_neg (by omega)

theorem cascadeCheck_ok {s : State} {c ch : Nat} (hp : s.status.prepared = true) (hch : ch < s.nch) (hc : c ≤ 1) :
    cascadeCheck s c ch = none := by
  simp only [cascadeCheck, State.channelCheck_ok s hp hch]
  exact if_neg (by omega)

theorem doApply_ok (cfg : Config) {s : State} {c ch k : Nat} (x : Word) (hp : s.status.prepared = true)
    (hch : ch < s.nch) (hc : c ≤ 1) (hk : k < s.nsec) :
    doApply cfg c ch k x s =
      .next ((applySection cfg s c ch k x).2.answer (applySection cfg s c ch k x).1) := by
  simp only [doApply, applyCheck_ok hp hch hc hk, State.complete_none, resF32]

theorem doCascade_ok (cfg : Config) {s : State} {c ch : Nat} (x : Word) (hp : s.status.prepared = true)
    (hch : ch < s.nch) (hc : c ≤ 1) :
    doCascade cfg c ch x s = .next ((cascadeChain cfg s c ch x).2.answer (cascadeChain cfg s c ch x).1) := by
  simp only [doCascade, cascadeCheck_ok hp hch hc, State.complete_none, resF32]

end Sys2Proof.Machine
end

