-- ==== Sys2Proof/Laws/Vox.lean ====
section
/-! SUPPORT. What the VOX operations do, said once. -/

namespace Sys2Proof.Machine

theorem clamp_bounds {v lo hi : Int} (h : lo ≤ hi) : lo ≤ clamp v lo hi ∧ clamp v lo hi ≤ hi := by
  unfold clamp
  split
  · omega
  · split <;> omega

theorem clamp_eq {v lo hi : Int} (h : lo ≤ hi) : clamp v lo hi = max lo (min hi v) := by
  unfold clamp
  split
  · omega
  · split <;> omega

theorem nstep_pos (t : VoxTables) : 0 < nstep t := Nat.succ_pos _

/-- Within the table the step is its entry (R161). -/
theorem stepSize_of_lt (t : VoxTables) {idx : Nat} (h : idx < (t.step0 :: t.steps).length) :
    stepSize t idx = ((t.step0 :: t.steps)[idx] : Nat) := by
  simp only [stepSize, List.getD_eq_getElem _ _ h]

/-- The reconstruction with plain arithmetic (R163). -/
theorem voxRecon_eq (t : VoxTables) (st : VoxState) (code : BitVec 4) :
    (voxRecon t st code).pred = max (-2048) (min 2047
      (if 8 ≤ code.toNat then st.pred - (((2 * (code.toNat % 8) + 1) * stepSize t st.idx) / 8 : Nat)
        else st.pred + (((2 * (code.toNat % 8) + 1) * stepSize t st.idx) / 8 : Nat))) ∧
    ((voxRecon t st code).idx : Int) =
      max 0 (min (((t.step0 :: t.steps).length : Int) - 1) ((st.idx : Int) + t.indexDelta code)) := by
  have hm : voxMag code = code.toNat % 8 := by
    simp only [voxMag, BitVec.extractLsb'_toNat]
    rfl
  have hd : voxDelta t st.idx code = ((2 * (code.toNat % 8) + 1) * stepSize t st.idx) / 8 := by
    rw [voxDelta, hm, Nat.shiftRight_eq_div_pow]
  have hn := nstep_pos t
  constructor
  · simp only [voxRecon, hd, clamp_eq (show (-2048 : Int) ≤ 2047 by decide), BitVec.msb_eq_decide, decide_eq_true_eq]
  · simp only [voxRecon]
    rw [clamp_eq (by omega), Int.toNat_of_nonneg (by omega)]
    rfl

/-- The reconstruction stays in the ranges of 10_state.md R34. -/
theorem voxRecon_bounds (t : VoxTables) (st : VoxState) (code : BitVec 4) :
    -2048 ≤ (voxRecon t st code).pred ∧ (voxRecon t st code).pred ≤ 2047 ∧ (voxRecon t st code).idx < nstep t := by
  have hn := nstep_pos t
  refine ⟨(clamp_bounds (by decide)).1, (clamp_bounds (by decide)).2, ?_⟩
  have h := clamp_bounds (v := (st.idx : Int) + t.indexDelta code) (lo := 0) (hi := (nstep t : Int) - 1) (by omega)
  simp only [voxRecon]
  omega

theorem voxTest_fst (d threshold : Nat) : (voxTest d threshold).1 = decide (threshold ≤ d) := by
  unfold voxTest
  split <;> simp [*]

theorem voxTest_snd (d threshold : Nat) :
    (voxTest d threshold).2 = if threshold ≤ d then d - threshold else d := by
  unfold voxTest
  split <;> rfl

section
variable (cfg : Config) (s : State) (ch : Nat)

theorem voxEnc_frame (v : Half) : (voxEnc cfg s ch v).2 = { s with vox := (voxEnc cfg s ch v).2.vox } := rfl

theorem voxEnc_self (v : Half) (h : ch < nchMax) :
    (voxEnc cfg s ch v).2.voxAt 0 ch = voxRecon cfg.vox (s.voxAt 0 ch) (voxCode cfg.vox (s.voxAt 0 ch) v) :=
  State.voxAt_setVox_self s 0 ch _ (by decide) h

theorem voxEnc_other (v : Half) (dir ch' : Nat) (h : ¬ (dir = 0 ∧ ch' = ch)) :
    (voxEnc cfg s ch v).2.voxAt dir ch' = s.voxAt dir ch' :=
  State.voxAt_setVox_other s 0 ch dir ch' _ h

theorem voxDec_frame (code : BitVec 4) : (voxDec cfg s ch code).2 = { s with vox := (voxDec cfg s ch code).2.vox } := rfl

theorem voxDec_self (code : BitVec 4) (h : ch < nchMax) :
    (voxDec cfg s ch code).2.voxAt 1 ch = voxRecon cfg.vox (s.voxAt 1 ch) code :=
  State.voxAt_setVox_self s 1 ch _ (by decide) h

theorem voxDec_other (code : BitVec 4) (dir ch' : Nat) (h : ¬ (dir = 1 ∧ ch' = ch)) :
    (voxDec cfg s ch code).2.voxAt dir ch' = s.voxAt dir ch' :=
  State.voxAt_setVox_other s 1 ch dir ch' _ h

/-- The decoder's output is 16 times its predictor, with no wrap. -/
theorem voxDec_value (code : BitVec 4) :
    (voxDec cfg s ch code).1.toInt = (voxRecon cfg.vox (s.voxAt 1 ch) code).pred * 16 := by
  obtain ⟨h1, h2, -⟩ := voxRecon_bounds cfg.vox (s.voxAt 1 ch) code
  simp only [voxDec, BitVec.toInt_ofInt]
  exact Int.bmod_eq_of_le (by omega) (by omega)

end

theorem doVoxenc_ok (cfg : Config) {s : State} {ch : Nat} (v : Half) (hp : s.status.prepared = true)
    (hch : ch < s.nch) :
    doVoxenc cfg ch v s = .next ((voxEnc cfg s ch v).2.answer (resU4 (voxEnc cfg s ch v).1)) := by
  simp only [doVoxenc, State.channelCheck_ok s hp hch, State.complete_none]

theorem doVoxdec_ok (cfg : Config) {s : State} {ch : Nat} (code : BitVec 4) (hp : s.status.prepared = true)
    (hch : ch < s.nch) :
    doVoxdec cfg ch code s = .next ((voxDec cfg s ch code).2.answer (resS16 (voxDec cfg s ch code).1)) := by
  simp only [doVoxdec, State.channelCheck_ok s hp hch, State.complete_none]

/-- A sign-extended result keeps its value. -/
theorem resS16_toInt (v : Half) : (resS16 v).toInt = v.toInt :=
  BitVec.toInt_signExtend_of_le (by decide)

theorem quantize_eq (v : Half) : quantize v = v.toInt / 16 := by
  simp only [quantize, opS16, Int.shiftRight_eq_div_pow]
  norm_num

end Sys2Proof.Machine
end

