-- ==== Sys2Proof/Laws/Gsm.lean ====
section
/-! SUPPORT. What one push does to the frame engine, said once for each of its two cases. -/

namespace Sys2Proof.Machine

theorem workWord_toInt (v : BitVec 13) : (workWord v).toInt = 8 * v.toInt := by
  have h : ∀ a < 64, ∀ b < 128,
      (workWord (BitVec.ofNat 13 (a * 128 + b))).toInt = 8 * (BitVec.ofNat 13 (a * 128 + b)).toInt := by
    decide +kernel
  have hv := v.isLt
  have := h (v.toNat / 128) (by omega) (v.toNat % 128) (by omega)
  rwa [Nat.div_add_mod', BitVec.ofNat_toNat, BitVec.setWidth_eq] at this

section
variable (cfg : Config) (s : State)

theorem bufAt_eq (p : Fin gsmBufs) (i : Fin frameLen) : s.bufAt p i = s.buf[p][i] := by
  rw [State.bufAt, vget_of_lt _ _ p.isLt, vget_of_lt _ _ i.isLt]
  rfl

theorem bufAt_lt {p i : Nat} (hp : p < gsmBufs) (hi : i < frameLen) : s.bufAt p i = s.buf[p][i] := by
  rw [State.bufAt, vget_of_lt _ _ hp, vget_of_lt _ _ hi]

theorem gsmStore_bufAt (w : Half) (p i : Nat) :
    (gsmStore s w).bufAt p i = if p = s.role.rin.val ∧ i = s.gidx.val then w else s.bufAt p i := by
  have e : gsmStore s w = { s with buf := vset s.buf s.role.rin (vset (vget s.buf s.role.rin) s.gidx w) } := by
    simp only [gsmStore, vset, vget, s.role.rin.isLt, s.gidx.isLt, dif_pos]
    rfl
  rw [e]
  unfold State.bufAt
  dsimp only
  rw [vget_vset]
  split_ifs with h h2 h2
  · rw [← h2.1, h2.2, vget_vset_self _ _ _ s.gidx.isLt]
  · rw [vget_vset_ne _ _ _ _ (fun e => h2 ⟨h.1.symm, e.symm⟩), h.1]
  · exact absurd ⟨h2.1.symm, s.role.rin.isLt⟩ h
  · rfl

theorem gsmPush_out (v : BitVec 13) : (gsmPush cfg s v).1 = s.bufAt s.role.rout s.gidx :=
  (bufAt_eq s _ _).symm

theorem gsmPush_early (v : BitVec 13) (h : s.gidx.val + 1 < frameLen) :
    (gsmPush cfg s v).2 = { gsmStore s (workWord v) with gidx := ⟨s.gidx.val + 1, h⟩ } := by
  simp only [gsmPush, dif_pos h]

theorem gsmPush_last (v : BitVec 13) (h : s.gidx.val = 159) :
    (gsmPush cfg s v).2 = gsmRoundTrip cfg (gsmStore s (workWord v)) := by
  simp only [gsmPush, dif_neg (show ¬ s.gidx.val + 1 < 160 by omega)]

/-- A push touches the frame engine only. -/
theorem gsmPush_frame (v : BitVec 13) :
    (gsmPush cfg s v).2 = { s with
      buf := (gsmPush cfg s v).2.buf, role := (gsmPush cfg s v).2.role, gidx := (gsmPush cfg s v).2.gidx,
      frame := (gsmPush cfg s v).2.frame, gstate := (gsmPush cfg s v).2.gstate } := by
  by_cases h : s.gidx.val + 1 < frameLen
  · rw [gsmPush_early cfg s v h]; rfl
  · rw [gsmPush_last cfg s v (by have : s.gidx.val < 160 := s.gidx.isLt; simp only [frameLen] at h; omega)]; rfl

/-- A push reads and writes the frame engine only, so a change elsewhere commutes with it. -/
theorem gsmPush_with (v : BitVec 13) (z : Vector (Vector (Vector Delay nsecMax) nchMax) 2) (lcz : Delay) :
    gsmPush cfg { s with z := z, lcz := lcz } v =
      ((gsmPush cfg s v).1, { (gsmPush cfg s v).2 with z := z, lcz := lcz }) := by
  by_cases h : s.gidx.val + 1 < frameLen
  · simp only [gsmPush, dif_pos h]; rfl
  · simp only [gsmPush, dif_neg h]; rfl

/-- The decoded frame lands in the buffer just filled. -/
theorem gsmRoundTrip_bufAt (p i : Nat) :
    (gsmRoundTrip cfg s).bufAt p i =
      if p = s.role.rin.val then
        vget (cfg.gsm.decode (cfg.gsm.encode s.gstate s.buf[s.role.rin]).1
          (cfg.gsm.encode s.gstate s.buf[s.role.rin]).2).2 i
      else s.bufAt p i := by
  have e : (gsmRoundTrip cfg s).buf = vset s.buf s.role.rin
      (cfg.gsm.decode (cfg.gsm.encode s.gstate s.buf[s.role.rin]).1
        (cfg.gsm.encode s.gstate s.buf[s.role.rin]).2).2 := by
    simp only [gsmRoundTrip, vset, s.role.rin.isLt, dif_pos, Fin.getElem_fin]
  unfold State.bufAt
  rw [e, vget_vset]
  by_cases h : p = s.role.rin.val
  · rw [if_pos ⟨h.symm, s.role.rin.isLt⟩, if_pos h]
  · rw [if_neg fun h2 => h h2.1.symm, if_neg h]

end

end Sys2Proof.Machine
end

