-- ==== Sys2Proof/Laws/Decimator.lean ====
section
/-! SUPPORT. What `HoldAndFilter` does, said once of the state before it, for any insert that keeps to its own state; that
it depends on its own channel alone; and what a sample period is for each number of channels. -/

namespace Sys2Proof.Machine

/-- What every insert leaves alone: the filter, the counters and the held samples. -/
structure InsertKeeps (ins : InsertFn) : Prop where
  order : ∀ s u, (ins s u).2.order = s.order
  d : ∀ s u, (ins s u).2.d = s.d
  coef : ∀ s u, (ins s u).2.coef = s.coef
  z : ∀ s u, (ins s u).2.z = s.z
  cnt : ∀ s u, (ins s u).2.cnt = s.cnt
  held : ∀ s u, (ins s u).2.held = s.held
  free : ∀ s u, (ins s u).2.freeIdx = s.freeIdx

theorem insertNone_keeps : InsertKeeps insertNone := by constructor <;> intros <;> rfl
theorem insertVox_keeps (cfg : Config) (ch : Nat) : InsertKeeps (insertVox cfg ch) := by
  constructor <;> intros <;> rfl
theorem insertMulaw_keeps (cfg : Config) : InsertKeeps (insertMulaw cfg) := by constructor <;> intros <;> rfl
theorem insertAlaw_keeps (cfg : Config) : InsertKeeps (insertAlaw cfg) := by constructor <;> intros <;> rfl
theorem insertGsm_keeps (cfg : Config) : InsertKeeps (insertGsm cfg) := by
  constructor <;> intro s u <;> simp only [insertGsm] <;> rw [gsmPush_frame]

section
variable (cfg : Config) (s : State) (ch : Nat) (x : Word) (ins : InsertFn)

/-- The state after the input chain and the latch (R140, R141). -/
def latched : State := latch (cascadeChain cfg s 0 ch x).2 ch (cascadeChain cfg s 0 ch x).1 ins

/-- What is held after the latch (R140, R141). -/
def heldNext : Word :=
  if s.cntAt ch = 0#4 then (ins (cascadeChain cfg s 0 ch x).2 (cascadeChain cfg s 0 ch x).1).1 else s.heldAt ch

variable {ins}

theorem latch_keeps (h : InsertKeeps ins) (u : Word) :
    let t := latch s ch u ins
    t.order = s.order ∧ t.d = s.d ∧ t.coef = s.coef ∧ t.z = s.z ∧ t.cnt = s.cnt ∧ t.freeIdx = s.freeIdx ∧
      (∀ j, j ≠ ch → t.heldAt j = s.heldAt j) := by
  simp only [latch]
  split
  · refine ⟨h.order s u, h.d s u, h.coef s u, h.z s u, h.cnt s u, h.free s u, fun j hj => ?_⟩
    rw [State.heldAt_setHeld, if_neg fun e => hj e.1.symm, State.heldAt, h.held, State.heldAt]
  · exact ⟨rfl, rfl, rfl, rfl, rfl, rfl, fun _ _ => rfl⟩

theorem latch_heldAt (hch : ch < nchMax) (u : Word) :
    (latch s ch u ins).heldAt ch = if s.cntAt ch = 0#4 then (ins s u).1 else s.heldAt ch := by
  simp only [latch]
  split
  · rw [State.heldAt_setHeld, if_pos ⟨rfl, hch⟩]
  · rfl

theorem zAt_eq_of_z {s t : State} (h : t.z = s.z) (c ch k : Nat) : t.zAt c ch k = s.zAt c ch k := by
  rw [State.zAt, h, State.zAt]

theorem cntAt_eq_of_cnt {s t : State} (h : t.cnt = s.cnt) (ch : Nat) : t.cntAt ch = s.cntAt ch := by
  rw [State.cntAt, h, State.cntAt]

theorem heldAt_eq_of_held {s t : State} (h : t.held = s.held) (ch : Nat) : t.heldAt ch = s.heldAt ch := by
  rw [State.heldAt, h, State.heldAt]

theorem coefAt_eq_of_coef {s t : State} (h : t.coef = s.coef) (k : Nat) : t.coefAt k = s.coefAt k := by
  rw [State.coefAt, h, State.coefAt]

/-- `HoldAndFilter` in terms of the state before it (R140 to R142). -/
theorem holdAndFilter_spec (h : InsertKeeps ins) (hch : ch < nchMax) :
    let pre := cascadeChain cfg s 0 ch x
    let held := heldNext cfg s ch x ins
    let post := cascadeChain cfg s 1 ch held
    let r := holdAndFilter cfg s ch x ins
    r.1 = fmul (cfg.freeNaN s.freeIdx (.gain ch) 0) post.1 (cfg.gain s.d) ∧
      r.2 = { latched cfg s ch x ins with z := r.2.z, cnt := r.2.cnt } ∧
      r.2.heldAt ch = held ∧ r.2.cntAt ch = nextCnt s.d (s.cntAt ch) ∧
      (∀ k, r.2.zAt 0 ch k = pre.2.zAt 0 ch k) ∧ (∀ k, r.2.zAt 1 ch k = post.2.zAt 1 ch k) ∧
      (∀ j, j ≠ ch → r.2.cntAt j = s.cntAt j ∧ r.2.heldAt j = s.heldAt j ∧ ∀ c k, r.2.zAt c j k = s.zAt c j k) := by
  intro pre held post r
  have hpre : pre.2 = { s with z := pre.2.z } := cascadeChain_frame cfg s 0 ch x
  obtain ⟨ho, hd, hcoef, hz, hcnt, hfree, hheld⟩ := latch_keeps pre.2 ch h pre.1
  have hself : (latch pre.2 ch pre.1 ins).heldAt ch = held := by
    rw [latch_heldAt _ _ hch]
    show _ = heldNext cfg s ch x ins
    unfold heldNext
    have e1 : pre.2.cntAt ch = s.cntAt ch := cntAt_eq_of_cnt (by rw [hpre]) ch
    have e2 : pre.2.heldAt ch = s.heldAt ch := heldAt_eq_of_held (by rw [hpre]) ch
    rw [e1, e2]
  -- the state the second chain starts from
  let s2 := (latch pre.2 ch pre.1 ins).setCnt ch
    (nextCnt (latch pre.2 ch pre.1 ins).d ((latch pre.2 ch pre.1 ins).cntAt ch))
  have hs2 : SameChain s2 s 1 ch := by
    refine ⟨fun k => ?_, fun k => ?_, ?_⟩
    · exact coefAt_eq_of_coef (s := s) (t := s2) (by show (latch pre.2 ch pre.1 ins).coef = _; rw [hcoef, hpre]) k
    · have e : s2.zAt 1 ch k = pre.2.zAt 1 ch k := zAt_eq_of_z (t := s2) hz 1 ch k
      rw [e]
      exact cascadeChain_other cfg s 0 ch x 1 ch k (by omega)
    · show (latch pre.2 ch pre.1 ins).freeIdx = _
      rw [hfree, hpre]
  have hso : s2.order = s.order := by show (latch pre.2 ch pre.1 ins).order = _; rw [ho, hpre]
  have hsd : s2.d = s.d := by show (latch pre.2 ch pre.1 ins).d = _; rw [hd, hpre]
  have hheld2 : s2.heldAt ch = held := hself
  have hrun : r = (fmul (cfg.freeNaN s.freeIdx (.gain ch) 0) (cascadeChain cfg s2 1 ch held).1 (cfg.gain s.d),
      (cascadeChain cfg s2 1 ch held).2) := by
    rw [← hheld2]
    rfl
  have hpost : (cascadeChain cfg s2 1 ch held).1 = post.1 ∧ _ := cascadeChain_congr cfg held hs2 hso
  have hframe := cascadeChain_frame cfg s2 1 ch held
  have hcnt2 : ∀ j, s2.cntAt j = if ch = j then nextCnt s.d (s.cntAt ch) else s.cntAt j := by
    intro j
    have ec : ∀ j, (latch pre.2 ch pre.1 ins).cntAt j = s.cntAt j := fun j =>
      cntAt_eq_of_cnt (by rw [hcnt, hpre]) j
    show ((latch pre.2 ch pre.1 ins).setCnt ch _).cntAt j = _
    rw [State.cntAt_setCnt]
    by_cases hj : ch = j
    · rw [if_pos ⟨hj, hch⟩, if_pos hj, ec]
      exact congrArg (nextCnt · _) hsd
    · rw [if_neg fun e => hj e.1, if_neg hj, ec]
  rw [hrun]
  refine ⟨by rw [hpost.1], ?_, ?_, ?_, fun k => ?_, fun k => hpost.2.z k, fun j hj => ⟨?_, ?_, fun c k => ?_⟩⟩
  · rw [hframe]; rfl
  · rw [hframe]; exact hself
  · rw [hframe]
    exact (hcnt2 ch).trans (if_pos rfl)
  · rw [cascadeChain_other cfg s2 1 ch held 0 ch k (by omega)]
    exact zAt_eq_of_z (t := s2) hz 0 ch k
  · rw [hframe]
    exact (hcnt2 j).trans (if_neg fun e => hj e.symm)
  · rw [hframe]
    show s2.heldAt j = _
    have : s2.heldAt j = pre.2.heldAt j := hheld j hj
    rw [this]
    exact heldAt_eq_of_held (by rw [hpre]) j
  · rw [cascadeChain_other cfg s2 1 ch held c j k (by tauto)]
    rw [show s2.zAt c j k = pre.2.zAt c j k from zAt_eq_of_z (t := s2) hz c j k]
    exact cascadeChain_other cfg s 0 ch x c j k (by tauto)

end

/-! ## A sample period, channel by channel -/

/-- An insert that keeps to the VOX pair of its own channel (R146). -/
structure ChannelInsert (ch : Nat) (ins : InsertFn) : Prop where
  frame : ∀ s u, (ins s u).2 = { s with vox := (ins s u).2.vox }
  other : ∀ s u dir j, j ≠ ch → (ins s u).2.voxAt dir j = s.voxAt dir j
  own : ∀ (s s' : State) u, (∀ dir, s.voxAt dir ch = s'.voxAt dir ch) →
    (ins s u).1 = (ins s' u).1 ∧ ∀ dir, (ins s u).2.voxAt dir ch = (ins s' u).2.voxAt dir ch

theorem ChannelInsert.keeps {ch : Nat} {ins : InsertFn} (h : ChannelInsert ch ins) : InsertKeeps ins := by
  constructor <;> intro s u <;> rw [h.frame s u]

theorem insertMulaw_channel (cfg : Config) (ch : Nat) : ChannelInsert ch (insertMulaw cfg) :=
  ⟨fun _ _ => rfl, fun _ _ _ _ _ => rfl, fun _ _ _ h => ⟨rfl, h⟩⟩

theorem insertAlaw_channel (cfg : Config) (ch : Nat) : ChannelInsert ch (insertAlaw cfg) :=
  ⟨fun _ _ => rfl, fun _ _ _ _ _ => rfl, fun _ _ _ h => ⟨rfl, h⟩⟩

/-- What the VOX insert answers and leaves: the encoder's code goes straight into the decoder (R146, R167). -/
theorem insertVox_spec (cfg : Config) (ch : Nat) (s : State) (u : Word) (hch : ch < nchMax) :
    let code := voxCode cfg.vox (s.voxAt 0 ch) (f2i16 u)
    let dec := voxRecon cfg.vox (s.voxAt 1 ch) code
    (insertVox cfg ch s u).1 = i2f16 (BitVec.ofInt 16 (dec.pred * 16)) ∧
      (insertVox cfg ch s u).2.voxAt 0 ch = voxRecon cfg.vox (s.voxAt 0 ch) code ∧
      (insertVox cfg ch s u).2.voxAt 1 ch = dec ∧
      ∀ dir j, j ≠ ch → (insertVox cfg ch s u).2.voxAt dir j = s.voxAt dir j := by
  intro code dec
  have h1 : (voxEnc cfg s ch (f2i16 u)).2.voxAt 1 ch = s.voxAt 1 ch := voxEnc_other cfg s ch _ 1 ch (by omega)
  refine ⟨?_, ?_, ?_, fun dir j hj => ?_⟩
  · simp only [insertVox, voxDec, h1]; rfl
  · simp only [insertVox]
    rw [voxDec_other _ _ _ _ _ _ (by omega), voxEnc_self _ _ _ _ hch]
  · simp only [insertVox]
    rw [voxDec_self _ _ _ _ hch, h1]; rfl
  · simp only [insertVox]
    rw [voxDec_other _ _ _ _ _ _ (by tauto), voxEnc_other _ _ _ _ _ _ (by tauto)]

theorem voxAt_beyond_dir (s : State) {dir : Nat} (h : 2 ≤ dir) (ch : Nat) : s.voxAt dir ch = ⟨0, 0⟩ := by
  rw [State.voxAt, vget_of_ge _ _ h]
  exact vget_replicate (n := nchMax) (⟨0, 0⟩ : VoxState) ch rfl

theorem insertVox_channel (cfg : Config) {ch : Nat} (hch : ch < nchMax) : ChannelInsert ch (insertVox cfg ch) := by
  refine ⟨fun _ _ => rfl, fun s u dir j hj => (insertVox_spec cfg ch s u hch).2.2.2 dir j hj, fun s s' u h => ?_⟩
  obtain ⟨a1, b1, c1, -⟩ := insertVox_spec cfg ch s u hch
  obtain ⟨a2, b2, c2, -⟩ := insertVox_spec cfg ch s' u hch
  refine ⟨by rw [a1, a2, h 0, h 1], fun dir => ?_⟩
  match dir with
  | 0 => rw [b1, b2, h 0]
  | 1 => rw [c1, c2, h 0, h 1]
  | n + 2 => rw [voxAt_beyond_dir _ (by omega), voxAt_beyond_dir _ (by omega)]

/-- What a sample period has done to channel `ch` of `s` (R140 to R150). -/
structure ChannelDone (cfg : Config) (ins : InsertFn) (s t : State) (ch : Nat) : Prop where
  yout : t.youtAt ch = fmul (cfg.freeNaN s.freeIdx (.gain ch) 0)
    (cascadeChain cfg s 1 ch (heldNext cfg s ch (s.xinAt ch) ins)).1 (cfg.gain s.d)
  held : t.heldAt ch = heldNext cfg s ch (s.xinAt ch) ins
  cnt : t.cntAt ch = nextCnt s.d (s.cntAt ch)
  z0 : ∀ k, t.zAt 0 ch k = (cascadeChain cfg s 0 ch (s.xinAt ch)).2.zAt 0 ch k
  z1 : ∀ k, t.zAt 1 ch k = (cascadeChain cfg s 1 ch (heldNext cfg s ch (s.xinAt ch) ins)).2.zAt 1 ch k
  vox : ∀ dir, t.voxAt dir ch =
    if s.cntAt ch = 0#4 then (ins s (cascadeChain cfg s 0 ch (s.xinAt ch)).1).2.voxAt dir ch else s.voxAt dir ch

/-- The part of the state one channel reads and writes in a sample period. -/
structure SameChannel (s t : State) (ch : Nat) : Prop where
  order : t.order = s.order
  d : t.d = s.d
  coef : t.coef = s.coef
  free : t.freeIdx = s.freeIdx
  xin : t.xinAt ch = s.xinAt ch
  yout : t.youtAt ch = s.youtAt ch
  held : t.heldAt ch = s.heldAt ch
  cnt : t.cntAt ch = s.cntAt ch
  vox : ∀ dir, t.voxAt dir ch = s.voxAt dir ch
  z : ∀ c k, t.zAt c ch k = s.zAt c ch k

theorem SameChannel.chain {s t : State} {ch : Nat} (h : SameChannel s t ch) (c : Nat) : SameChain t s c ch :=
  ⟨fun k => coefAt_eq_of_coef h.coef k, h.z c, h.free⟩

/-- One channel's part of a sample period, in terms of the state before it. -/
theorem codecChannel_spec (cfg : Config) (ins : Nat → InsertFn) (s : State) {ch : Nat} (hch : ch < nchMax)
    (hi : ChannelInsert ch (ins ch)) :
    let t := codecChannel cfg ins s ch
    ChannelDone cfg (ins ch) s t ch ∧ (∀ j, j ≠ ch → SameChannel s t j) ∧
      t = { s with z := t.z, cnt := t.cnt, held := t.held, vox := t.vox, yout := t.yout } := by
  intro t
  have hx : (cascadeChain cfg s 0 ch (s.xinAt ch)).2 = _ := cascadeChain_frame cfg s 0 ch (s.xinAt ch)
  obtain ⟨hy, hr, hheld, hcnt, hz0, hz1, hoth⟩ := holdAndFilter_spec cfg s ch (s.xinAt ch) hi.keeps hch
  -- the latch, its frame
  have hl : latched cfg s ch (s.xinAt ch) (ins ch) =
      { s with z := (latched cfg s ch (s.xinAt ch) (ins ch)).z,
               held := (latched cfg s ch (s.xinAt ch) (ins ch)).held,
               vox := (latched cfg s ch (s.xinAt ch) (ins ch)).vox } := by
    unfold latched latch
    split
    · rw [State.setHeld, hi.frame, hx]
    · rw [hx]
  have hlv : ∀ dir, (latched cfg s ch (s.xinAt ch) (ins ch)).voxAt dir ch =
      if s.cntAt ch = 0#4 then (ins ch s (cascadeChain cfg s 0 ch (s.xinAt ch)).1).2.voxAt dir ch
      else s.voxAt dir ch := by
    intro dir
    have hc : (cascadeChain cfg s 0 ch (s.xinAt ch)).2.cntAt ch = s.cntAt ch := cntAt_eq_of_cnt (by rw [hx]) ch
    have hv : ∀ dir, (cascadeChain cfg s 0 ch (s.xinAt ch)).2.voxAt dir ch = s.voxAt dir ch := by
      intro dir; rw [hx]; rfl
    unfold latched latch
    rw [hc]
    split
    · exact (hi.own _ s _ hv).2 dir
    · exact hv dir
  have hlo : ∀ dir j, j ≠ ch → (latched cfg s ch (s.xinAt ch) (ins ch)).voxAt dir j = s.voxAt dir j := by
    intro dir j hj
    have hv : (cascadeChain cfg s 0 ch (s.xinAt ch)).2.voxAt dir j = s.voxAt dir j := by rw [hx]; rfl
    unfold latched latch
    split
    · exact (hi.other _ _ dir j hj).trans hv
    · exact hv
  have ht : t = ((holdAndFilter cfg s ch (s.xinAt ch) (ins ch)).2).setYout ch
      (holdAndFilter cfg s ch (s.xinAt ch) (ins ch)).1 := rfl
  have hvox : t.vox = (latched cfg s ch (s.xinAt ch) (ins ch)).vox := by
    rw [ht]; show (holdAndFilter cfg s ch (s.xinAt ch) (ins ch)).2.vox = _; rw [hr]
  have hvoxAt : ∀ dir j, t.voxAt dir j = (latched cfg s ch (s.xinAt ch) (ins ch)).voxAt dir j := by
    intro dir j; rw [State.voxAt, hvox, State.voxAt]
  have hframe : t = { s with z := t.z, cnt := t.cnt, held := t.held, vox := t.vox, yout := t.yout } := by
    rw [ht, State.setYout, hr, hl]
  have hyo : ∀ j, t.youtAt j = if ch = j then (holdAndFilter cfg s ch (s.xinAt ch) (ins ch)).1 else s.youtAt j := by
    intro j
    have : (holdAndFilter cfg s ch (s.xinAt ch) (ins ch)).2.youtAt j = s.youtAt j := by rw [hr, hl]; rfl
    rw [ht, State.youtAt_setYout, this]
    by_cases h : ch = j
    · rw [if_pos ⟨h, hch⟩, if_pos h]
    · rw [if_neg fun e => h e.1, if_neg h]
  refine ⟨⟨?_, hheld, hcnt, hz0, hz1, fun dir => (hvoxAt dir ch).trans (hlv dir)⟩, fun j hj => ?_, hframe⟩
  · rw [hyo, if_pos rfl, hy]
  · obtain ⟨o1, o2, o3⟩ := hoth j hj
    refine ⟨?_, ?_, ?_, ?_, ?_, ?_, o2, o1, fun dir => (hvoxAt dir j).trans (hlo dir j hj), o3⟩
    · rw [hframe]
    · rw [hframe]
    · rw [hframe]
    · rw [hframe]
    · rw [hframe]; rfl
    · rw [hyo, if_neg (Ne.symm hj)]

/-- What a period does to a channel depends on that channel alone. -/
theorem ChannelDone.of_same {cfg : Config} {ins : InsertFn} {s s' t : State} {ch : Nat} (hi : ChannelInsert ch ins)
    (h : SameChannel s s' ch) (hd : ChannelDone cfg ins s' t ch) : ChannelDone cfg ins s t ch := by
  have c0 := cascadeChain_congr cfg (s.xinAt ch) (h.chain 0) h.order
  have hx0 : (cascadeChain cfg s' 0 ch (s.xinAt ch)).1 = (cascadeChain cfg s 0 ch (s.xinAt ch)).1 := c0.1
  have fv : ∀ (q : State) dir, (cascadeChain cfg q 0 ch (s.xinAt ch)).2.voxAt dir ch = q.voxAt dir ch := by
    intro q dir; rw [cascadeChain_frame]; rfl
  have hh : heldNext cfg s' ch (s.xinAt ch) ins = heldNext cfg s ch (s.xinAt ch) ins := by
    unfold heldNext
    rw [h.cnt, h.held, hx0]
    split
    · exact (hi.own _ _ _ fun dir => by rw [fv, fv, h.vox]).1
    · rfl
  have c1 := cascadeChain_congr cfg (heldNext cfg s ch (s.xinAt ch) ins) (h.chain 1) h.order
  obtain ⟨y, he, cn, z0, z1, vx⟩ := hd
  rw [h.xin] at y he z0 z1 vx
  rw [hh] at y he z1
  refine ⟨?_, he, ?_, fun k => (z0 k).trans (c0.2.z k), fun k => (z1 k).trans (c1.2.z k), fun dir => ?_⟩
  · rw [y, h.free, h.d, c1.1]
  · rw [cn, h.d, h.cnt]
  · rw [vx dir, h.cnt, hx0, h.vox]
    split
    · exact (hi.own s' s _ h.vox).2 dir
    · rfl

/-- A sample period over the first `n` channels (R150), said of the state before it. -/
theorem channels_spec (cfg : Config) (ins : Nat → InsertFn) (s : State) (n : Nat) (hn : n ≤ nchMax)
    (hi : ∀ ch, ch < n → ChannelInsert ch (ins ch)) :
    let t := (List.range n).foldl (codecChannel cfg ins) s
    (∀ ch, ch < n → ChannelDone cfg (ins ch) s t ch) ∧ (∀ ch, n ≤ ch → SameChannel s t ch) ∧
      t = { s with z := t.z, cnt := t.cnt, held := t.held, vox := t.vox, yout := t.yout } := by
  induction n with
  | zero =>
    exact ⟨fun ch h => absurd h (Nat.not_lt_zero ch),
      fun ch _ => ⟨rfl, rfl, rfl, rfl, rfl, rfl, rfl, rfl, fun _ => rfl, fun _ _ => rfl⟩, rfl⟩
  | succ n ih =>
    intro t
    obtain ⟨h1, h2, h3⟩ := ih (by omega) fun ch h => hi ch (by omega)
    generalize hu : (List.range n).foldl (codecChannel cfg ins) s = u at h1 h2 h3
    have ht : t = codecChannel cfg ins u n := by
      show (List.range (n + 1)).foldl (codecChannel cfg ins) s = _
      rw [List.range_succ, List.foldl_append, hu]
      rfl
    have hin := hi n (Nat.lt_succ_self n)
    obtain ⟨g1, g2, g3⟩ := codecChannel_spec cfg ins u (ch := n) (by omega) hin
    rw [← ht] at g1 g2 g3
    refine ⟨fun ch h => ?_, fun ch h => ?_, ?_⟩
    · rcases Nat.lt_or_ge ch n with hlt | hge
      · obtain ⟨a, b, c, d, e, f⟩ := h1 ch hlt
        have g := g2 ch (by omega)
        exact ⟨g.yout.trans a, g.held.trans b, g.cnt.trans c, fun k => (g.z 0 k).trans (d k),
          fun k => (g.z 1 k).trans (e k), fun dir => (g.vox dir).trans (f dir)⟩
      · obtain rfl : ch = n := by omega
        exact g1.of_same hin (h2 ch (Nat.le_refl ch))
    · have a := h2 ch (by omega)
      have b := g2 ch (by omega)
      exact ⟨b.order.trans a.order, b.d.trans a.d, b.coef.trans a.coef, b.free.trans a.free, b.xin.trans a.xin,
        b.yout.trans a.yout, b.held.trans a.held, b.cnt.trans a.cnt, fun dir => (b.vox dir).trans (a.vox dir),
        fun c k => (b.z c k).trans (a.z c k)⟩
    · rw [g3, h3]

/-- The pass-through of a period with no module (R152). -/
theorem passChannels_spec (s : State) (n : Nat) (hn : n ≤ nchMax) :
    let t := (List.range n).foldl passChannel s
    (∀ ch, ch < n → t.youtAt ch = s.xinAt ch) ∧ (∀ ch, n ≤ ch → t.youtAt ch = s.youtAt ch) ∧
      t = { s with yout := t.yout } := by
  induction n with
  | zero => exact ⟨fun ch h => absurd h (Nat.not_lt_zero ch), fun _ _ => rfl, rfl⟩
  | succ n ih =>
    intro t
    obtain ⟨h1, h2, h3⟩ := ih (by omega)
    generalize hu : (List.range n).foldl passChannel s = u at h1 h2 h3
    have ht : t = u.setYout n (u.xinAt n) := by
      show (List.range (n + 1)).foldl passChannel s = _
      rw [List.range_succ, List.foldl_append, hu]
      rfl
    have hx : u.xinAt n = s.xinAt n := by rw [h3]; rfl
    refine ⟨fun ch h => ?_, fun ch h => ?_, ?_⟩
    · rw [ht, State.youtAt_setYout]
      by_cases e : n = ch
      · rw [if_pos ⟨e, by omega⟩, hx, e]
      · rw [if_neg fun q => e q.1, h1 ch (by omega)]
    · rw [ht, State.youtAt_setYout, if_neg (by omega), h2 ch (by omega)]
    · rw [ht, State.setYout, h3]

/-- The same result in every active channel (R210). -/
theorem setYouts_spec (s : State) (y : Word) (n : Nat) (hn : n ≤ nchMax) :
    let t := (List.range n).foldl (fun u ch => u.setYout ch y) s
    (∀ ch, ch < n → t.youtAt ch = y) ∧ (∀ ch, n ≤ ch → t.youtAt ch = s.youtAt ch) ∧
      t = { s with yout := t.yout } := by
  induction n with
  | zero => exact ⟨fun ch h => absurd h (Nat.not_lt_zero ch), fun _ _ => rfl, rfl⟩
  | succ n ih =>
    intro t
    obtain ⟨h1, h2, h3⟩ := ih (by omega)
    generalize hu : (List.range n).foldl (fun u ch => u.setYout ch y) s = u at h1 h2 h3
    have ht : t = u.setYout n y := by
      show (List.range (n + 1)).foldl (fun u ch => u.setYout ch y) s = _
      rw [List.range_succ, List.foldl_append, hu]
      rfl
    refine ⟨fun ch h => ?_, fun ch h => ?_, ?_⟩
    · rw [ht, State.youtAt_setYout]
      by_cases e : n = ch
      · rw [if_pos ⟨e, by omega⟩]
      · rw [if_neg fun q => e q.1, h1 ch (by omega)]
    · rw [ht, State.youtAt_setYout, if_neg (by omega), h2 ch (by omega)]
    · rw [ht, State.setYout, h3]

end Sys2Proof.Machine
end

