-- ==== Sys2Proof/Laws/Decode.lean ====
section
/-! SUPPORT. The decoder said once: what a legal command word is (`decode_eq_ok_iff`), a row's mask as fields
(`mask_iff`), the fields of an encoder's word, and the round trip by format. -/

namespace Sys2Proof

/-! ## Fields as numbers -/

theorem opOf_eq (w : Word) : opOf w = w.toNat / 2 ^ 24 := by
  simp only [opOf, BitVec.extractLsb'_toNat, Nat.shiftRight_eq_div_pow]
  omega

theorem chOf_eq (w : Word) : chOf w = w.toNat / 2 ^ 20 % 16 := by
  simp [chOf, BitVec.extractLsb'_toNat, Nat.shiftRight_eq_div_pow]

theorem cOf_eq (w : Word) : cOf w = w.toNat / 2 ^ 16 % 16 := by
  simp [cOf, BitVec.extractLsb'_toNat, Nat.shiftRight_eq_div_pow]

theorem kOf_eq (w : Word) : kOf w = w.toNat / 2 ^ 12 % 16 := by
  simp [kOf, BitVec.extractLsb'_toNat, Nat.shiftRight_eq_div_pow]

theorem immOf_eq (w : Word) : immOf w = w.toNat % 2 ^ 16 := by
  simp [immOf, BitVec.extractLsb'_toNat]

theorem extract_eq_zero_iff (w : Word) (s n : Nat) : w.extractLsb' s n = 0#n ↔ w.toNat / 2 ^ s % 2 ^ n = 0 := by
  rw [← BitVec.toNat_inj, BitVec.extractLsb'_toNat, Nat.shiftRight_eq_div_pow]
  simp

/-- Bits 23:0 a format fixes at 0: where they start and how many they are (R81). -/
def Format.zeros : Format → Nat × Nat
  | .n => (0, 24)
  | .c => (0, 20)
  | .k => (0, 12)
  | .kz => (0, 16)
  | .i => (16, 8)

theorem zerosOk_iff (f : Format) (w : Word) :
    f.zerosOk w = true ↔ w.toNat / 2 ^ f.zeros.1 % 2 ^ f.zeros.2 = 0 := by
  cases f <;> simp only [Format.zerosOk, Format.zeros, beq_iff_eq] <;> exact extract_eq_zero_iff ..

/-! ## The decoder, inverted once -/

theorem decode_eq_ok_iff (w : Command) (i : Instr) :
    decode w = .ok i ↔ ∃ f, rowOf (opOf w.cmd) w = some (f, i) ∧ f.zerosOk w.cmd = true := by
  unfold decode
  cases rowOf (opOf w.cmd) w with
  | none => simp
  | some r => cases hz : r.1.zerosOk w.cmd <;> simp [hz, Prod.ext_iff]

theorem decode_of_row {w : Command} {op : Nat} {f : Format} {i : Instr} (hop : opOf w.cmd = op)
    (hr : rowOf op w = some (f, i)) (hz : f.zerosOk w.cmd = true) : decode w = .ok i :=
  (decode_eq_ok_iff w i).2 ⟨f, hop ▸ hr, hz⟩

/-- A row spells a word exactly when the word has its opcode and the zeros of its format. -/
theorem mask_iff (c m p : Word) (s n : Nat)
    (hm : ∀ i < 32, m.getLsbD i = (decide (24 ≤ i) || (decide (s ≤ i) && decide (i < s + n))))
    (hp : ∀ i < 24, p.getLsbD i = false) (hs : s + n ≤ 24) :
    c &&& m = p ↔ opOf c = opOf p ∧ c.extractLsb' s n = 0#n := by
  constructor
  · rintro rfl
    constructor
    · unfold opOf
      congr 1
      apply BitVec.eq_of_getLsbD_eq
      intro i hi
      simp [hi, hm (24 + i) (by omega)]
    · apply BitVec.eq_of_getLsbD_eq
      intro i hi
      have := hp (s + i) (by omega)
      simp only [BitVec.getLsbD_and, hm (s + i) (by omega)] at this
      have h2 : s + i < s + n := by omega
      simp [h2] at this
      simp [hi, this]
  · rintro ⟨hop, hz⟩
    apply BitVec.eq_of_getLsbD_eq
    intro i hi
    rw [BitVec.getLsbD_and, hm i hi]
    by_cases h24 : 24 ≤ i
    · have := congrArg (BitVec.getLsbD · (i - 24)) (BitVec.eq_of_toNat_eq hop)
      have e : 24 + (i - 24) = i := by omega
      simp only [BitVec.getLsbD_extractLsb', e] at this
      have h8 : i - 24 < 8 := by omega
      simpa [h24, h8] using this
    · rw [hp i (by omega)]
      by_cases hin : s ≤ i ∧ i < s + n
      · have := congrArg (BitVec.getLsbD · (i - s)) hz
        have e : s + (i - s) = i := by omega
        have hn : i - s < n := by omega
        simp only [BitVec.getLsbD_extractLsb', e] at this
        simp [hn] at this
        simp [this]
      · have : (decide (s ≤ i) && decide (i < s + n)) = false := by
          simp only [Bool.and_eq_false_iff, decide_eq_false_iff_not]
          omega
        simp [h24, this]

/-- What a row of the table says of a word, format by format. -/
theorem spells_iff (f : Format) (c m p : Word)
    (hm : ∀ i < 32, m.getLsbD i =
      (decide (24 ≤ i) || (decide (f.zeros.1 ≤ i) && decide (i < f.zeros.1 + f.zeros.2))))
    (hp : ∀ i < 24, p.getLsbD i = false) :
    c &&& m = p ↔ opOf c = opOf p ∧ f.zerosOk c = true := by
  rw [mask_iff c m p f.zeros.1 f.zeros.2 hm hp (by cases f <;> decide)]
  cases f <;> simp [Format.zerosOk, Format.zeros]

/-- Two rows that spell one word agree where both have mask bits, so distinct rows of the table never do. -/
theorem opcodeMap_disjoint :
    opcodeMap.Pairwise fun r q => r.pat &&& q.mask ≠ q.pat &&& r.mask := by decide

theorem spells_agree {r q : OpRow} {w : Word} (hr : r.spells w = true) (hq : q.spells w = true) :
    r.pat &&& q.mask = q.pat &&& r.mask := by
  simp only [OpRow.spells, beq_iff_eq] at hr hq
  rw [← hr, ← hq, BitVec.and_assoc, BitVec.and_assoc, BitVec.and_comm r.mask q.mask]

/-- The encoder's word for a row, as a number. -/
theorem cmdWord_toNat {op low : Nat} (ho : op < 256) (hl : low < 2 ^ 24) :
    (cmdWord op low).toNat = op * 2 ^ 24 + low := by
  rw [cmdWord, BitVec.toNat_ofNat]
  omega

theorem opOf_cmdWord {op low : Nat} (ho : op < 256) (hl : low < 2 ^ 24) : opOf (cmdWord op low) = op := by
  rw [opOf_eq, cmdWord_toNat ho hl]
  omega

/-- Every legal command word is in the range of its format. -/
theorem toNat_of_legal {w : Word} {op : Nat} (h : opOf w = op) : w.toNat = op * 2 ^ 24 + w.toNat % 2 ^ 24 := by
  rw [opOf_eq] at h
  omega

theorem extract_setWidth_16 (v : BitVec 16) : (v.setWidth 32).extractLsb' 0 16 = v := by
  apply BitVec.eq_of_toNat_eq
  simpa [BitVec.extractLsb'_toNat] using v.isLt

theorem extract_setWidth_13 (v : BitVec 13) : (v.setWidth 32).extractLsb' 0 13 = v := by
  apply BitVec.eq_of_toNat_eq
  simpa [BitVec.extractLsb'_toNat] using v.isLt

theorem extract_setWidth_8 (v : BitVec 8) : (v.setWidth 32).extractLsb' 0 8 = v := by
  apply BitVec.eq_of_toNat_eq
  simpa [BitVec.extractLsb'_toNat] using v.isLt

theorem extract_setWidth_4 (v : BitVec 4) : (v.setWidth 32).extractLsb' 0 4 = v := by
  apply BitVec.eq_of_toNat_eq
  simpa [BitVec.extractLsb'_toNat] using v.isLt

theorem append_toNat_16 (a b : BitVec 16) : (a ++ b).toNat = a.toNat * 2 ^ 16 + b.toNat := by
  rw [BitVec.toNat_append, ← Nat.shiftLeft_add_eq_or_of_lt b.isLt, Nat.shiftLeft_eq]

theorem extract_append_high (a b : BitVec 16) : (a ++ b).extractLsb' 16 16 = a := by
  apply BitVec.eq_of_toNat_eq
  rw [BitVec.extractLsb'_toNat, Nat.shiftRight_eq_div_pow, append_toNat_16]
  omega

theorem extract_append_low (a b : BitVec 16) : (a ++ b).extractLsb' 0 16 = b := by
  apply BitVec.eq_of_toNat_eq
  rw [BitVec.extractLsb'_toNat, Nat.shiftRight_eq_div_pow, append_toNat_16]
  omega

end Sys2Proof
end

