-- ==== Sys2Proof/Laws/Design.lean ====
section
/-! SUPPORT. What the named properties of `Design` (40_filter_cascade.md R111, R112) say at the cutoff frequency. -/

namespace Sys2Proof

open Sys2Proof.Machine

/-- R111: as a fraction of the sample rate the cutoff is `0.4 / D`, whatever the sample rate. -/
theorem cutoff_div (fs : Word) (d : Nat) (h : fs ≠ 0#32) : cutoff fs d / fs.toNat = 0.4 / d := by
  have hf : (fs.toNat : ℚ) ≠ 0 := by
    exact_mod_cast fun h0 => h (BitVec.eq_of_toNat_eq h0)
  unfold cutoff
  rw [div_mul_eq_mul_div, div_div, mul_comm (d : ℚ), mul_div_mul_left _ _ hf]

/-- R111: the cutoff of a legal design is above 0 and below half the sample rate. -/
theorem cutoff_bounds {fs : Word} {d n : Nat} (h : LegalDesignArgs fs d n) :
    0 < cutoff fs d ∧ cutoff fs d < (fs.toNat : ℚ) / 2 := by
  obtain ⟨h0, hd, -⟩ := h
  have hf : (0 : ℚ) < fs.toNat := by
    exact_mod_cast Nat.pos_of_ne_zero fun h1 => h0 (BitVec.eq_of_toNat_eq h1)
  have hd1 : (1 : ℚ) ≤ d := by exact_mod_cast hd
  have hq : (fs.toNat : ℚ) / d ≤ fs.toNat := div_le_self hf.le hd1
  have hp : (0 : ℚ) < (fs.toNat : ℚ) / d := by positivity
  unfold cutoff
  constructor
  · positivity
  · linarith

/-- The Butterworth response is one half at its half-power frequency. -/
theorem butterworthPower_half {fs : Word} {n : Nat} {fc : ℝ} (hf : (0 : ℝ) < fs.toNat) (h0 : 0 < fc)
    (h1 : fc < (fs.toNat : ℝ) / 2) : butterworthPower fs n fc fc = 1 / 2 := by
  have hlow : 0 < Real.pi * fc / fs.toNat := by positivity
  have hhigh : Real.pi * fc / fs.toNat < Real.pi / 2 := by
    rw [div_lt_div_iff₀ hf two_pos]
    nlinarith [Real.pi_pos]
  have ht := Real.tan_pos_of_pos_of_lt_pi_div_two hlow hhigh
  rw [butterworthPower, div_self ht.ne', one_pow]
  norm_num

/-- R111, R112: under `P_BUTTERWORTH` the power response at `fc = (fs / D) * 0.4` is one half up to the tolerance. -/
theorem PButterworth.half_power_at_cutoff {cfg : Config} {tol : ℝ} (h : PButterworth cfg tol) {fs : Word} {d n : Nat}
    (ha : LegalDesignArgs fs d n) :
    |powerResponse (cfg.design fs d n).toList fs (cutoff fs d) - 1 / 2| ≤ tol := by
  obtain ⟨h0, h1⟩ := cutoff_bounds ha
  have h0' : (0 : ℝ) < (cutoff fs d : ℝ) := by exact_mod_cast h0
  have h1' : (cutoff fs d : ℝ) < (fs.toNat : ℝ) / 2 := by
    have hr := (Rat.cast_lt (K := ℝ)).2 h1
    push_cast at hr
    exact hr
  have hb := h.2 fs d n ha _ h0' h1'
  rwa [butterworthPower_half (by linarith) h0' h1'] at hb

end Sys2Proof
end

