-- ==== Sys2Proof/Laws/Float.lean ====
section
/-! SUPPORT. binary32 said once over the rationals: an encoding's magnitude is a strictly increasing function of its bits
30:0 (`magVal`), and `round32` picks the nearest of the two neighbours, ties to even. -/

namespace Sys2Proof.Machine

/-! ## The value of bits 30:0 -/

/-- The value of the magnitude bits `n`, the exponent field read past 254 as one more binade. -/
def magVal (n : Nat) : ℚ :=
  if n / 2 ^ 23 = 0 then (n % 2 ^ 23 : Nat) * (2 : ℚ) ^ (-149 : ℤ)
  else ((2 ^ 23 + n % 2 ^ 23 : Nat) : ℚ) * (2 : ℚ) ^ ((n / 2 ^ 23 : Nat) - 150 : ℤ)

/-- An encoding counts in units of the last place: `r` units of `2^(k - 149)` above `k` binades. -/
theorem magVal_at (k r : Nat) (h : r ≤ 2 ^ 24) (hk : k = 0 ∨ 2 ^ 23 ≤ r) :
    magVal (k * 2 ^ 23 + r) = (r : ℚ) * (2 : ℚ) ^ ((k : ℤ) - 149) := by
  unfold magVal
  rcases Nat.lt_or_ge r (2 ^ 23) with hr | hr
  · obtain rfl : k = 0 := by omega
    rw [if_pos (by omega), show (0 * 2 ^ 23 + r) % 2 ^ 23 = r by omega]
    norm_num
  · rcases Nat.lt_or_ge r (2 ^ 24) with hr2 | hr2
    · rw [if_neg (by omega), show (k * 2 ^ 23 + r) / 2 ^ 23 = k + 1 by omega,
        show 2 ^ 23 + (k * 2 ^ 23 + r) % 2 ^ 23 = r by omega]
      congr 2
      push_cast
      ring
    · obtain rfl : r = 2 ^ 24 := by omega
      rw [if_neg (by omega), show (k * 2 ^ 23 + 2 ^ 24) / 2 ^ 23 = k + 2 by omega,
        show 2 ^ 23 + (k * 2 ^ 23 + 2 ^ 24) % 2 ^ 23 = 2 ^ 23 by omega]
      have e : (2 : ℚ) ^ ((k + 2 : ℕ) - 150 : ℤ) = 2 * (2 : ℚ) ^ ((k : ℤ) - 149) := by
        rw [show ((k + 2 : ℕ) - 150 : ℤ) = 1 + ((k : ℤ) - 149) by push_cast; ring, zpow_add₀ (by norm_num), zpow_one]
      rw [e]
      push_cast
      ring

theorem magVal_zero : magVal 0 = 0 := by simp [magVal]

/-- Two neighbouring magnitudes, as units of one last place. -/
theorem exists_units (n : Nat) : ∃ k r, n = k * 2 ^ 23 + r ∧ r + 1 ≤ 2 ^ 24 ∧ (k = 0 ∨ 2 ^ 23 ≤ r) := by
  rcases Nat.eq_zero_or_pos (n / 2 ^ 23) with h | h
  · exact ⟨0, n, by omega, by omega, .inl rfl⟩
  · exact ⟨n / 2 ^ 23 - 1, 2 ^ 23 + n % 2 ^ 23, by omega, by omega, .inr (by omega)⟩

theorem magVal_strictMono : StrictMono magVal := by
  refine strictMono_nat_of_lt_succ fun n => ?_
  obtain ⟨k, r, rfl, h, hk⟩ := exists_units n
  rw [Nat.add_assoc, magVal_at k r (by omega) hk, magVal_at k (r + 1) h (by omega)]
  have : (0 : ℚ) < (2 : ℚ) ^ ((k : ℤ) - 149) := by positivity
  push_cast
  nlinarith

theorem magVal_nonneg (n : Nat) : 0 ≤ magVal n := magVal_zero ▸ magVal_strictMono.monotone (Nat.zero_le n)

theorem magVal_infBits : magVal infBits = (2 : ℚ) ^ 128 := by
  have := magVal_at 253 (2 ^ 24) (by decide) (by decide)
  rw [show infBits = 253 * 2 ^ 23 + 2 ^ 24 by decide, this]
  norm_num [zpow_natCast]

theorem magVal_maxFinite : magVal (infBits - 1) = (2 : ℚ) ^ 128 - (2 : ℚ) ^ 104 := by
  have := magVal_at 253 (2 ^ 24 - 1) (by decide) (by decide)
  rw [show infBits - 1 = 253 * 2 ^ 23 + (2 ^ 24 - 1) by decide, this]
  norm_num

/-! ## Encodings as a sign and a magnitude -/

theorem expField_eq (w : Word) : expField w = w.toNat / 2 ^ 23 % 256 := by
  simp [expField, BitVec.extractLsb'_toNat, Nat.shiftRight_eq_div_pow]

theorem fracField_eq (w : Word) : fracField w = w.toNat % 2 ^ 23 := by
  simp [fracField, BitVec.extractLsb'_toNat]

/-- Bits 30:0 of a word. -/
def magBits (w : Word) : Nat := w.toNat % 2 ^ 31

theorem isFinite_iff (w : Word) : isFinite w = true ↔ magBits w < infBits := by
  simp only [isFinite, bne_iff_ne, ne_eq, expField_eq, magBits, infBits]
  omega

theorem signed_toNat (neg : Bool) {n : Nat} (h : n < 2 ^ 31) :
    (signed neg n).toNat = (if neg then 2 ^ 31 else 0) + n := by
  rw [signed, BitVec.toNat_ofNat]
  cases neg <;> simp <;> omega

theorem magBits_signed (neg : Bool) {n : Nat} (h : n < 2 ^ 31) : magBits (signed neg n) = n := by
  rw [magBits, signed_toNat neg h]
  cases neg <;> simp <;> omega

theorem msb_signed (neg : Bool) {n : Nat} (h : n < 2 ^ 31) : (signed neg n).msb = neg := by
  rw [BitVec.msb_eq_decide, signed_toNat neg h]
  cases neg <;> (simp; try omega)

theorem signed_parts (w : Word) : signed w.msb (magBits w) = w := by
  apply BitVec.eq_of_toNat_eq
  have hw := w.isLt
  have hm : magBits w < 2 ^ 31 := Nat.mod_lt _ (by decide)
  rw [signed_toNat _ hm, BitVec.msb_eq_decide]
  simp only [magBits, decide_eq_true_eq, Nat.reduceSub]
  split <;> omega

/-- `(-1)^neg`. -/
def signQ (neg : Bool) : ℚ := if neg then -1 else 1

theorem signQ_xor (a b : Bool) : signQ (a != b) = signQ a * signQ b := by
  cases a <;> cases b <;> norm_num [signQ]

theorem abs_signQ (neg : Bool) : |signQ neg| = 1 := by cases neg <;> simp [signQ]

theorem unpack_finite {w : Word} (h : isFinite w = true) :
    ∃ m e, unpack w = .fin w.msb m e ∧ m < 2 ^ 24 ∧ -149 ≤ e ∧ (m : ℚ) * (2 : ℚ) ^ e = magVal (magBits w) := by
  have hf : expField w ≠ 255 := by simpa [isFinite] using h
  have h1 := expField_eq w
  have h2 := fracField_eq w
  have hm : magBits w / 2 ^ 23 = expField w := by rw [h1, magBits]; omega
  have hr : magBits w % 2 ^ 23 = fracField w := by rw [h2, magBits]; omega
  unfold unpack magVal
  rw [if_neg hf, hm, hr]
  by_cases h0 : expField w = 0
  · rw [if_pos h0, if_pos h0]
    exact ⟨_, _, rfl, by omega, by omega, rfl⟩
  · rw [if_neg h0, if_neg h0]
    exact ⟨_, _, rfl, by omega, by omega, rfl⟩

/-- The value of a finite encoding is its sign times its magnitude. -/
theorem valQ_finite {w : Word} (h : isFinite w = true) : valQ w = signQ w.msb * magVal (magBits w) := by
  obtain ⟨m, e, hu, -, -, hv⟩ := unpack_finite h
  rw [valQ, hu, ← hv, signQ]
  exact mul_assoc _ _ _

theorem isFinite_signed (neg : Bool) {n : Nat} (h : n < infBits) : isFinite (signed neg n) = true := by
  rw [isFinite_iff, magBits_signed neg (lt_trans h (by decide))]
  exact h

theorem valQ_signed (neg : Bool) {n : Nat} (h : n < infBits) : valQ (signed neg n) = signQ neg * magVal n := by
  have h31 : n < 2 ^ 31 := lt_trans h (by decide)
  rw [valQ_finite (isFinite_signed neg h), msb_signed neg h31, magBits_signed neg h31]

/-! ## Rounding -/

/-- What `roundMag` computes before it overflows. -/
def roundUnits (m : Nat) (e : Int) : Nat :=
  (ulpExp m e + 149).toNat * 2 ^ 23 +
    (if ulpExp m e ≤ e then m * 2 ^ (e - ulpExp m e).toNat else shiftRNE m (ulpExp m e - e).toNat)

theorem roundMag_eq {m : Nat} (h : m ≠ 0) (e : Int) : roundMag m e = min (roundUnits m e) infBits := by
  simp only [roundMag, if_neg h, roundUnits]

/-- The magnitude bits just below a value, and how `roundUnits` chooses between them and the next. -/
structure Neighbours (m : Nat) (e : Int) (n : Nat) : Prop where
  below : magVal n ≤ (m : ℚ) * (2 : ℚ) ^ e
  above : (m : ℚ) * (2 : ℚ) ^ e < magVal (n + 1)
  down : 2 * ((m : ℚ) * (2 : ℚ) ^ e) < magVal n + magVal (n + 1) → roundUnits m e = n
  up : magVal n + magVal (n + 1) < 2 * ((m : ℚ) * (2 : ℚ) ^ e) → roundUnits m e = n + 1
  tie : 2 * ((m : ℚ) * (2 : ℚ) ^ e) = magVal n + magVal (n + 1) →
    (roundUnits m e = n ∨ roundUnits m e = n + 1) ∧ roundUnits m e % 2 = 0

theorem log2_bounds {m : Nat} (h : m ≠ 0) : 2 ^ m.log2 ≤ m ∧ m < 2 ^ (m.log2 + 1) :=
  ⟨Nat.log2_self_le h, Nat.lt_log2_self⟩

/-- Every positive value has its neighbours. -/
theorem neighbours {m : Nat} (hm : m ≠ 0) (e : Int) : ∃ n, Neighbours m e n := by
  obtain ⟨hlo, hhi⟩ := log2_bounds hm
  set L := m.log2 with hL
  set q := ulpExp m e with hq
  have hqd : q = max ((L : Int) + e - 23) (-149) := rfl
  obtain ⟨K, hK⟩ : ∃ K : Nat, (K : Int) = q + 149 := ⟨(q + 149).toNat, by omega⟩
  have hKq : (K : ℤ) - 149 = q := by omega
  have hKn : (q + 149).toNat = K := by omega
  have hpos : (0 : ℚ) < (2 : ℚ) ^ q := by positivity
  rcases le_or_gt q e with hle | hgt
  · -- exact: no bit is lost
    obtain ⟨j, hj⟩ : ∃ j : Nat, (j : Int) = e - q := ⟨(e - q).toNat, by omega⟩
    have hjn : (e - q).toNat = j := by omega
    have hr : m * 2 ^ j < 2 ^ 24 := by
      calc m * 2 ^ j < 2 ^ (L + 1) * 2 ^ j := Nat.mul_lt_mul_of_pos_right hhi (by positivity)
        _ = 2 ^ (L + 1 + j) := by rw [pow_add _ (L + 1) j]
        _ ≤ 2 ^ 24 := Nat.pow_le_pow_right (by decide) (by omega)
    have hk : K = 0 ∨ 2 ^ 23 ≤ m * 2 ^ j := by
      by_cases h0 : K = 0
      · exact .inl h0
      · right
        calc 2 ^ 23 = 2 ^ (L + j) := by congr 1; omega
          _ = 2 ^ L * 2 ^ j := by rw [pow_add]
          _ ≤ m * 2 ^ j := Nat.mul_le_mul_right _ hlo
    have hunits : roundUnits m e = K * 2 ^ 23 + m * 2 ^ j := by
      simp only [roundUnits, ← hq, if_pos hle, hKn, hjn]
    have hval : magVal (K * 2 ^ 23 + m * 2 ^ j) = (m : ℚ) * (2 : ℚ) ^ e := by
      rw [magVal_at K _ (by omega) hk, hKq]
      push_cast
      rw [mul_assoc, ← zpow_natCast, ← zpow_add₀ (by norm_num), hj]
      congr 2
      ring
    have hlt := magVal_strictMono (Nat.lt_succ_self (K * 2 ^ 23 + m * 2 ^ j))
    refine ⟨K * 2 ^ 23 + m * 2 ^ j, hval.le, hval ▸ hlt, fun _ => hunits, fun h => ?_, fun h => ?_⟩
    · rw [← hval] at h
      exact absurd h (not_lt.mpr (by linarith))
    · rw [← hval] at h
      exact absurd h (ne_of_lt (by linarith))
  · -- some bits are dropped
    obtain ⟨k, hk⟩ : ∃ k : Nat, (k : Int) = q - e := ⟨(q - e).toNat, by omega⟩
    have hkn : (q - e).toNat = k := by omega
    have h2k : 0 < 2 ^ k := by positivity
    set Q := m / 2 ^ k with hQ
    set R := m % 2 ^ k with hR
    have hdm : m = Q * 2 ^ k + R := by rw [hQ, hR, Nat.mul_comm]; exact (Nat.div_add_mod m (2 ^ k)).symm
    have hRlt : R < 2 ^ k := Nat.mod_lt _ h2k
    have hQlt : Q < 2 ^ 24 := by
      rw [hQ, Nat.div_lt_iff_lt_mul h2k, ← pow_add]
      exact lt_of_lt_of_le hhi (Nat.pow_le_pow_right (by decide) (by omega))
    have hQge : K = 0 ∨ 2 ^ 23 ≤ Q := by
      by_cases h0 : K = 0
      · exact .inl h0
      · right
        rw [hQ, Nat.le_div_iff_mul_le h2k, ← pow_add]
        exact le_trans (Nat.pow_le_pow_right (by decide) (by omega)) hlo
    have v0 : magVal (K * 2 ^ 23 + Q) = (Q : ℚ) * (2 : ℚ) ^ q := by
      rw [magVal_at K Q (by omega) hQge, hKq]
    have v1 : magVal (K * 2 ^ 23 + Q + 1) = ((Q : ℚ) + 1) * (2 : ℚ) ^ q := by
      rw [Nat.add_assoc, magVal_at K (Q + 1) (by omega) (by omega), hKq]
      push_cast
      ring
    have hpk : (2 : ℚ) ^ q = (2 : ℚ) ^ k * (2 : ℚ) ^ e := by
      rw [← zpow_natCast, ← zpow_add₀ (by norm_num), hk]
      congr 1
      ring
    have he : (0 : ℚ) < (2 : ℚ) ^ e := by positivity
    have hmq : (m : ℚ) = (Q : ℚ) * (2 : ℚ) ^ k + (R : ℚ) := by exact_mod_cast hdm
    have hRq : (R : ℚ) < (2 : ℚ) ^ k := by exact_mod_cast hRlt
    have hunits : roundUnits m e = K * 2 ^ 23 + shiftRNE m k := by
      simp only [roundUnits, ← hq, if_neg (not_le.mpr hgt), hKn, hkn]
    have hR0 : (0 : ℚ) ≤ (R : ℚ) := by positivity
    refine ⟨K * 2 ^ 23 + Q, ?_, ?_, fun h => ?_, fun h => ?_, fun h => ?_⟩
    · rw [v0, hpk, hmq]; nlinarith
    · rw [v1, hpk, hmq]; nlinarith
    · rw [v0, v1, hpk, hmq] at h
      have h2 : (2 : ℚ) * R < (2 : ℚ) ^ k := by
        by_contra hc
        nlinarith
      have h3 : 2 * R < 2 ^ k := by exact_mod_cast h2
      rw [hunits, shiftRNE, ← hR, ← hQ]
      simp only [h3, if_true]
    · rw [v0, v1, hpk, hmq] at h
      have h2 : (2 : ℚ) ^ k < (2 : ℚ) * R := by
        by_contra hc
        nlinarith
      have h3 : 2 ^ k < 2 * R := by exact_mod_cast h2
      rw [hunits, shiftRNE, ← hR, ← hQ]
      simp only [if_neg (show ¬ 2 * R < 2 ^ k by omega), h3, if_true]
      omega
    · rw [v0, v1, hpk, hmq] at h
      have h2 : (2 : ℚ) * R = (2 : ℚ) ^ k := by
        have : (2 * R - (2 : ℚ) ^ k) * (2 : ℚ) ^ e = 0 := by linarith
        rcases mul_eq_zero.mp this with h | h
        · linarith
        · exact absurd h he.ne'
      have h3 : 2 * R = 2 ^ k := by exact_mod_cast h2
      rw [hunits, shiftRNE, ← hR, ← hQ]
      simp only [if_neg (show ¬ 2 * R < 2 ^ k by omega), if_neg (show ¬ 2 ^ k < 2 * R by omega)]
      omega

/-- A positive value reaches the overflow threshold exactly when its units reach the encoding of infinity. -/
theorem overflow_iff {m : Nat} {e : Int} {n : Nat} (h : Neighbours m e n) :
    (2 : ℚ) ^ 128 - (2 : ℚ) ^ 103 ≤ (m : ℚ) * (2 : ℚ) ^ e ↔ infBits ≤ roundUnits m e := by
  have hmono := magVal_strictMono
  rcases lt_trichotomy (n + 1) infBits with hn | hn | hn
  · have h1 : magVal (n + 1) ≤ magVal (infBits - 1) := hmono.monotone (by omega)
    rw [magVal_maxFinite] at h1
    have h2 := h.above
    have h3 : roundUnits m e ≤ n + 1 := by
      rcases lt_trichotomy (2 * ((m : ℚ) * (2 : ℚ) ^ e)) (magVal n + magVal (n + 1)) with c | c | c
      · rw [h.down c]; omega
      · rcases (h.tie c).1 with q | q <;> omega
      · rw [h.up c]
    constructor
    · intro c
      norm_num at c h1
      linarith
    · intro c
      omega
  · have h1 : magVal n = (2 : ℚ) ^ 128 - (2 : ℚ) ^ 104 := by rw [← magVal_maxFinite]; congr 1; omega
    have h2 : magVal (n + 1) = (2 : ℚ) ^ 128 := by rw [hn, magVal_infBits]
    have hmid : magVal n + magVal (n + 1) = 2 * ((2 : ℚ) ^ 128 - (2 : ℚ) ^ 103) := by rw [h1, h2]; norm_num
    have hodd : n % 2 = 1 := by simp only [infBits] at hn; omega
    rcases lt_trichotomy (2 * ((m : ℚ) * (2 : ℚ) ^ e)) (magVal n + magVal (n + 1)) with c | c | c
    · rw [h.down c]
      rw [hmid] at c
      exact ⟨fun q => absurd c (by linarith), fun q => absurd q (by omega)⟩
    · have t := h.tie c
      rw [hmid] at c
      exact ⟨fun _ => by omega, fun _ => by linarith⟩
    · rw [h.up c]
      rw [hmid] at c
      exact ⟨fun _ => by omega, fun _ => by linarith⟩
  · have h1 : magVal infBits ≤ magVal n := hmono.monotone (by omega)
    rw [magVal_infBits] at h1
    have h2 := h.below
    constructor
    · intro _
      rcases lt_trichotomy (2 * ((m : ℚ) * (2 : ℚ) ^ e)) (magVal n + magVal (n + 1)) with c | c | c
      · rw [h.down c]; omega
      · rcases (h.tie c).1 with q | q <;> omega
      · rw [h.up c]; omega
    · intro _
      have : (0 : ℚ) < (2 : ℚ) ^ 103 := by positivity
      linarith

/-- What is picked between two neighbours `a` and `b` is no farther than any value outside them. -/
theorem nearest {a b x c y : ℚ} (h1 : a ≤ x) (h2 : x < b) (hy : y ≤ a ∨ b ≤ y)
    (hc : (2 * x ≤ a + b ∧ c = a) ∨ (a + b ≤ 2 * x ∧ c = b)) :
    |c - x| ≤ |y - x| ∧ (|c - x| = |y - x| → y ≠ c → 2 * x = a + b) := by
  rcases hc with ⟨hc, rfl⟩ | ⟨hc, rfl⟩
  · rw [abs_of_nonpos (by linarith : c - x ≤ 0)]
    rcases hy with hy | hy
    · rw [abs_of_nonpos (by linarith : y - x ≤ 0)]
      exact ⟨by linarith, fun h hne => absurd (by linarith) hne⟩
    · rw [abs_of_nonneg (by linarith : 0 ≤ y - x)]
      exact ⟨by linarith, fun h _ => by linarith⟩
  · rw [abs_of_nonneg (by linarith : 0 ≤ c - x)]
    rcases hy with hy | hy
    · rw [abs_of_nonpos (by linarith : y - x ≤ 0)]
      exact ⟨by linarith, fun h _ => by linarith⟩
    · rw [abs_of_nonneg (by linarith : 0 ≤ y - x)]
      exact ⟨by linarith, fun h hne => absurd (by linarith) hne⟩

theorem abs_sub_signQ (neg : Bool) (a x : ℚ) : |a - signQ neg * x| = |signQ neg * a - x| := by
  cases neg
  · simp [signQ]
  · simp only [signQ, if_true]
    rw [← abs_neg]
    congr 1
    ring

theorem signed_even (neg : Bool) {n : Nat} (h : n < 2 ^ 31) (he : n % 2 = 0) : (signed neg n).toNat % 2 = 0 := by
  rw [signed_toNat neg h]
  cases neg <;> simp <;> omega

/-- `round32` of a nonzero value rounds to nearest even. -/
theorem round32_isRounded (neg : Bool) {m : Nat} (hm : m ≠ 0) (e : Int) :
    IsRoundedTo (round32 neg m e) (signQ neg * ((m : ℚ) * (2 : ℚ) ^ e)) := by
  obtain ⟨n, hn⟩ := neighbours hm e
  have hov := overflow_iff hn
  have hm0 : (0 : ℚ) < m := by exact_mod_cast Nat.pos_of_ne_zero hm
  have hx : 0 < (m : ℚ) * (2 : ℚ) ^ e := by positivity
  set x := (m : ℚ) * (2 : ℚ) ^ e with hxd
  have hneg : decide (signQ neg * x < 0) = neg := by
    cases neg
    · simp [signQ, hx.le]
    · simp [signQ, hx]
  have habs : |signQ neg * x| = x := by rw [abs_mul, abs_signQ, one_mul, abs_of_pos hx]
  unfold IsRoundedTo
  rw [habs, hneg]
  by_cases h : (2 : ℚ) ^ 128 - (2 : ℚ) ^ 103 ≤ x
  · rw [if_pos h, round32, roundMag_eq hm, Nat.min_eq_right (hov.mp h)]
  · rw [if_neg h]
    have hlt : roundUnits m e < infBits := by
      by_contra hc
      exact h (hov.mpr (by omega))
    have h31 : roundUnits m e < 2 ^ 31 := lt_trans hlt (by decide)
    have hw : round32 neg m e = signed neg (roundUnits m e) := by
      rw [round32, roundMag_eq hm, Nat.min_eq_left hlt.le]
    rw [hw]
    refine ⟨isFinite_signed neg hlt, fun _ => msb_signed neg h31, fun u hu => ?_⟩
    have hsq : signQ neg * signQ neg = 1 := by cases neg <;> norm_num [signQ]
    rw [valQ_signed neg hlt, abs_sub_signQ, abs_sub_signQ, ← mul_assoc, hsq, one_mul]
    have hy : signQ neg * valQ u ≤ magVal n ∨ magVal (n + 1) ≤ signQ neg * valQ u := by
      rw [valQ_finite hu, ← mul_assoc, ← signQ_xor]
      cases (neg != u.msb)
      · rcases Nat.lt_or_ge n (magBits u) with hb | hb
        · exact .inr (by simpa [signQ] using magVal_strictMono.monotone hb)
        · exact .inl (by simpa [signQ] using magVal_strictMono.monotone hb)
      · left
        have h1 := magVal_nonneg (magBits u)
        have h2 := magVal_nonneg n
        simp only [signQ, if_true]
        linarith
    have hc : (2 * x ≤ magVal n + magVal (n + 1) ∧ magVal (roundUnits m e) = magVal n) ∨
        (magVal n + magVal (n + 1) ≤ 2 * x ∧ magVal (roundUnits m e) = magVal (n + 1)) := by
      rcases lt_trichotomy (2 * x) (magVal n + magVal (n + 1)) with c | c | c
      · exact .inl ⟨c.le, by rw [hn.down c]⟩
      · rcases (hn.tie c).1 with q | q
        · exact .inl ⟨c.le, by rw [q]⟩
        · exact .inr ⟨c.ge, by rw [q]⟩
      · exact .inr ⟨c.le, by rw [hn.up c]⟩
    obtain ⟨k1, k2⟩ := nearest hn.below hn.above hy hc
    refine ⟨k1, fun heq hne => signed_even neg h31 (hn.tie (k2 heq fun hq => hne ?_)).2⟩
    rw [← hq, ← mul_assoc, hsq, one_mul]

/-- A zero of either sign rounds the value 0. -/
theorem signed_zero_isRounded (neg : Bool) : IsRoundedTo (signed neg 0) 0 := by
  have hf : isFinite (signed neg 0) = true := isFinite_signed neg (by decide)
  have hv : valQ (signed neg 0) = 0 := by rw [valQ_signed neg (by decide), magVal_zero, mul_zero]
  unfold IsRoundedTo
  rw [if_neg (by norm_num)]
  refine ⟨hf, fun h => absurd rfl h, fun u _ => ?_⟩
  rw [hv, sub_zero, sub_zero, abs_zero]
  exact ⟨abs_nonneg _, fun h hne => absurd (abs_eq_zero.mp h.symm) hne⟩

/-- A value some finite encoding has is rounded to itself. -/
theorem isRoundedTo_exact {w u : Word} {v : ℚ} (h : IsRoundedTo w v) (hu : isFinite u = true) (hv : valQ u = v)
    (hlt : |v| < (2 : ℚ) ^ 128 - (2 : ℚ) ^ 103) : isFinite w = true ∧ valQ w = v := by
  unfold IsRoundedTo at h
  rw [if_neg (not_le.mpr hlt)] at h
  obtain ⟨hf, -, hn⟩ := h
  have := (hn u hu).1
  rw [hv, sub_self, abs_zero] at this
  exact ⟨hf, sub_eq_zero.mp (abs_eq_zero.mp (le_antisymm this (abs_nonneg _)))⟩

/-- A value of at most 24 significant bits on the grid is the value of an encoding. -/
theorem representable (neg : Bool) {m : Nat} {e : Int} (hm : m < 2 ^ 24) (he : -149 ≤ e)
    (hlt : (m : ℚ) * (2 : ℚ) ^ e < (2 : ℚ) ^ 128) :
    ∃ u, isFinite u = true ∧ valQ u = signQ neg * ((m : ℚ) * (2 : ℚ) ^ e) := by
  by_cases h0 : m = 0
  · subst h0
    refine ⟨signed neg 0, isFinite_signed neg (by decide), ?_⟩
    rw [valQ_signed neg (by decide), magVal_zero]
    norm_num
  · have hL : m.log2 < 24 := (Nat.log2_lt h0).mpr hm
    obtain ⟨hlo, hhi⟩ := log2_bounds h0
    have hle : ulpExp m e ≤ e := by unfold ulpExp; omega
    obtain ⟨j, hj⟩ : ∃ j : Nat, (j : Int) = e - ulpExp m e := ⟨(e - ulpExp m e).toNat, by omega⟩
    obtain ⟨K, hK⟩ : ∃ K : Nat, (K : Int) = ulpExp m e + 149 := ⟨(ulpExp m e + 149).toNat, by unfold ulpExp at *; omega⟩
    have hqd : ulpExp m e = max ((m.log2 : Int) + e - 23) (-149) := rfl
    have hr : m * 2 ^ j < 2 ^ 24 := by
      calc m * 2 ^ j < 2 ^ (m.log2 + 1) * 2 ^ j := Nat.mul_lt_mul_of_pos_right hhi (by positivity)
        _ = 2 ^ (m.log2 + 1 + j) := by rw [pow_add _ (m.log2 + 1) j]
        _ ≤ 2 ^ 24 := Nat.pow_le_pow_right (by decide) (by omega)
    have hk : K = 0 ∨ 2 ^ 23 ≤ m * 2 ^ j := by
      by_cases hk0 : K = 0
      · exact .inl hk0
      · right
        calc 2 ^ 23 = 2 ^ (m.log2 + j) := by congr 1; omega
          _ = 2 ^ m.log2 * 2 ^ j := by rw [pow_add]
          _ ≤ m * 2 ^ j := Nat.mul_le_mul_right _ hlo
    have hval : magVal (K * 2 ^ 23 + m * 2 ^ j) = (m : ℚ) * (2 : ℚ) ^ e := by
      rw [magVal_at K _ (by omega) hk, show (K : ℤ) - 149 = ulpExp m e by omega]
      push_cast
      rw [mul_assoc, ← zpow_natCast, ← zpow_add₀ (by norm_num), hj]
      congr 2
      ring
    have hinf : K * 2 ^ 23 + m * 2 ^ j < infBits := by
      by_contra hc
      have := magVal_strictMono.monotone (not_lt.mp hc)
      rw [magVal_infBits, hval] at this
      exact absurd hlt (not_lt.mpr this)
    exact ⟨signed neg (K * 2 ^ 23 + m * 2 ^ j), isFinite_signed neg hinf, by rw [valQ_signed neg hinf, hval]⟩

/-- `round32` rounds to nearest even, a zero included. -/
theorem round32_rounds (neg : Bool) (m : Nat) (e : Int) :
    IsRoundedTo (round32 neg m e) (signQ neg * ((m : ℚ) * (2 : ℚ) ^ e)) := by
  by_cases h : m = 0
  · subst h
    have hw : round32 neg 0 e = signed neg 0 := by simp only [round32, roundMag, if_true]
    have hv : signQ neg * (((0 : Nat) : ℚ) * (2 : ℚ) ^ e) = 0 := by norm_num
    rw [hw, hv]
    exact signed_zero_isRounded neg
  · exact round32_isRounded neg h e

theorem valQ_of_unpack {w : Word} {neg : Bool} {m : Nat} {e : Int} (h : unpack w = .fin neg m e) :
    valQ w = signQ neg * ((m : ℚ) * (2 : ℚ) ^ e) := by
  rw [valQ, h]
  exact mul_assoc _ _ _

/-! ## NaN, infinity, finite -/

theorem isNaN_iff (w : Word) : isNaN w = true ↔ infBits < magBits w := by
  simp only [isNaN, Bool.and_eq_true, beq_iff_eq, bne_iff_ne, ne_eq, expField_eq, fracField_eq, magBits, infBits]
  omega

theorem round32_not_nan (neg : Bool) (m : Nat) (e : Int) : isNaN (round32 neg m e) = false := by
  have hle : roundMag m e ≤ infBits := by
    by_cases h : m = 0
    · simp only [roundMag, if_pos h]; exact Nat.zero_le _
    · rw [roundMag_eq h]; exact Nat.min_le_right _ _
  rw [← Bool.not_eq_true, isNaN_iff, round32, magBits_signed neg (lt_of_le_of_lt hle (by decide))]
  omega

theorem signed_inf_not_nan (neg : Bool) : isNaN (signed neg infBits) = false := by cases neg <;> decide

theorem signed_zero_not_nan (neg : Bool) : isNaN (signed neg 0) = false := by cases neg <;> decide

theorem toNaN_isNaN (free : Word) : isNaN (toNaN free) = true := by
  unfold toNaN
  split
  · assumption
  · decide

/-- The three kinds of encoding, as `unpack` and the predicates see them. -/
theorem unpack_cases (w : Word) :
    (unpack w = .nan ∧ isNaN w = true ∧ isFinite w = false) ∨
      (unpack w = .inf w.msb ∧ isNaN w = false ∧ isFinite w = false) ∨
      (∃ m e, unpack w = .fin w.msb m e ∧ isNaN w = false ∧ isFinite w = true) := by
  unfold unpack isNaN isFinite
  by_cases h : expField w = 255
  · by_cases hf : fracField w = 0
    · exact .inr (.inl ⟨by rw [if_pos h, if_pos hf], by simp [hf], by simp [h]⟩)
    · exact .inl ⟨by rw [if_pos h, if_neg hf], by simp [h, hf], by simp [h]⟩
  · refine .inr (.inr ?_)
    rw [if_neg h]
    by_cases h0 : expField w = 0
    · exact ⟨_, _, by rw [if_pos h0], by simp [h], by simp [h]⟩
    · exact ⟨_, _, by rw [if_neg h0], by simp [h], by simp [h]⟩

theorem valQ_eq_zero_iff {w : Word} {neg : Bool} {m : Nat} {e : Int} (h : unpack w = .fin neg m e) :
    valQ w = 0 ↔ m = 0 := by
  have h2 : (2 : ℚ) ^ e ≠ 0 := by positivity
  have h3 : signQ neg ≠ 0 := by cases neg <;> norm_num [signQ]
  rw [valQ_of_unpack h]
  simp [h2, h3]

/-! ## The sign flipped -/

theorem fneg_eq (w : Word) : fneg w = signed (!w.msb) (magBits w) := by
  have h31 : magBits w < 2 ^ 31 := Nat.mod_lt _ (by decide)
  apply BitVec.eq_of_getLsbD_eq
  intro i hi
  have hlow : ∀ j < 31, (signed (!w.msb) (magBits w)).getLsbD j = w.getLsbD j := by
    intro j hj
    have h2 : (signed (!w.msb) (magBits w)).toNat % 2 ^ 31 = w.toNat % 2 ^ 31 := by
      show magBits (signed (!w.msb) (magBits w)) = _
      rw [magBits_signed _ h31]
      rfl
    have := congrArg (fun n => n.testBit j) h2
    simp only [Nat.testBit_mod_two_pow, hj, decide_true, Bool.true_and] at this
    exact this
  by_cases hlt : i < 31
  · rw [hlow i hlt]
    have : (0x80000000#32).getLsbD i = false := by
      clear hlow
      interval_cases i <;> decide
    simp only [fneg, BitVec.getLsbD_xor, this, Bool.xor_false]
  · obtain rfl : i = 31 := by omega
    have := msb_signed (!w.msb) h31
    rw [BitVec.msb_eq_getLsbD_last] at this
    rw [this]
    have h1 : (0x80000000#32).getLsbD 31 = true := by decide
    simp only [fneg, BitVec.getLsbD_xor, h1, Bool.xor_true, BitVec.msb_eq_getLsbD_last]

theorem magBits_fneg (w : Word) : magBits (fneg w) = magBits w := by
  have h31 : magBits w < 2 ^ 31 := Nat.mod_lt _ (by decide)
  rw [fneg_eq, magBits_signed _ h31]

theorem isFinite_fneg (w : Word) : isFinite (fneg w) = isFinite w := by
  rw [Bool.eq_iff_iff, isFinite_iff, isFinite_iff, magBits_fneg]

theorem valQ_fneg {w : Word} (h : isFinite w = true) : valQ (fneg w) = -valQ w := by
  have hm := (isFinite_iff w).mp h
  rw [fneg_eq, valQ_signed _ hm, valQ_finite h]
  cases w.msb <;> simp [signQ]

/-! ## Truncation -/

/-- Truncation toward zero of a rational, by its sign and the floor of its magnitude. -/
theorem tdiv_num_den (neg : Bool) {x : ℚ} (hx : 0 ≤ x) :
    Int.tdiv (signQ neg * x).num (signQ neg * x).den = (if neg then -⌊x⌋ else ⌊x⌋) := by
  have hf : ⌊x⌋ = x.num / (x.den : Int) := Rat.floor_def x
  have hn : 0 ≤ x.num := Rat.num_nonneg.mpr hx
  cases neg
  · rw [signQ, if_neg (by decide), one_mul, hf, Int.tdiv_eq_ediv_of_nonneg hn]
    rfl
  · rw [signQ, if_pos rfl, neg_one_mul, Rat.num_neg_eq_neg_num, Rat.den_neg_eq_den, Int.neg_tdiv, hf,
      Int.tdiv_eq_ediv_of_nonneg hn]
    rfl

/-- The integer part of a magnitude, as `truncSat` computes it. -/
theorem floor_mag (m : Nat) (e : Int) :
    ⌊(m : ℚ) * (2 : ℚ) ^ e⌋ = ((if 0 ≤ e then m * 2 ^ e.toNat else m / 2 ^ (-e).toNat : Nat) : Int) := by
  split
  · rename_i h
    obtain ⟨k, rfl⟩ := Int.eq_ofNat_of_zero_le h
    rw [Int.floor_eq_iff]
    simp
  · rename_i h
    obtain ⟨k, hk⟩ : ∃ k : Nat, (k : Int) = -e := ⟨(-e).toNat, by omega⟩
    have he : e = -(k : Int) := by omega
    rw [show (-e).toNat = k by omega, he, zpow_neg, zpow_natCast, ← div_eq_mul_inv]
    have := Rat.floor_intCast_div_natCast (m : Int) (2 ^ k)
    push_cast at this ⊢
    exact this

theorem truncSat_finite (n : Nat) {w : Word} (h : isFinite w = true) :
    truncSat n w = sat n (Int.tdiv (valQ w).num (valQ w).den) := by
  obtain ⟨m, e, hu, -, -, -⟩ := unpack_finite h
  rw [valQ_of_unpack hu, tdiv_num_den _ (by positivity), floor_mag, truncSat, hu]

/-! ## Zeros and infinities -/

/-- A product with a zero factor has the sign of the two signs. -/
theorem round32_zero (neg : Bool) (e : Int) : round32 neg 0 e = signed neg 0 := by simp [round32, roundMag]

/-- The encoding of an infinity is its sign's. -/
theorem eq_signed_of_inf {w : Word} {neg : Bool} (h : unpack w = .inf neg) : w = signed w.msb infBits ∧ neg = w.msb := by
  unfold unpack at h
  split at h
  · rename_i he
    split at h
    · rename_i hf
      injection h with h
      refine ⟨?_, h.symm⟩
      have hb : magBits w = infBits := by
        rw [expField_eq] at he
        rw [fracField_eq] at hf
        simp only [magBits, infBits]
        omega
      rw [← hb, signed_parts]
    · cases h
  · split at h <;> cases h

theorem fneg_signed (neg : Bool) {n : Nat} (h : n < 2 ^ 31) : fneg (signed neg n) = signed (!neg) n := by
  rw [fneg_eq, msb_signed neg h, magBits_signed neg h]

theorem msb_fneg (w : Word) : (fneg w).msb = !w.msb := by
  rw [fneg_eq, msb_signed _ (show magBits w < 2 ^ 31 from Nat.mod_lt _ (by decide))]

theorem isNaN_fneg (w : Word) : isNaN (fneg w) = isNaN w := by
  rw [Bool.eq_iff_iff, isNaN_iff, isNaN_iff, magBits_fneg]

end Sys2Proof.Machine
end

