-- ==== Sys2Proof/Laws/Step.lean ====
section
/-! SUPPORT. What a command can do, said once: every command is a check and a state (`exec_eq`), what the state of a
command that passes its check keeps, and what a step is. -/

namespace Sys2Proof.Machine

/-- The check of a command (R251, R253). -/
def checkOf (s : State) : Instr → Option Cause
  | .prepare nch fs => prepareCheck nch fs
  | .setord order => setordCheck order
  | .setpar mode d => setparCheck mode d
  | .rdreg addr => if memRead s addr = none then some .badRegaddr else none
  | .apply c ch k _ => applyCheck s c ch k
  | .cascade c ch _ => cascadeCheck s c ch
  | .decim ch _ | .wrx ch _ | .rdy ch | .voxenc ch _ | .voxdec ch _ => s.channelCheck ch
  | .step => stepCheck s
  | .nop | .getpar | .setcodec _ | .reset | .ulenc _ | .uldec _ | .alenc _ | .aldec _ | .gsmpush _ => none

/-- The state and the answer of a command that passes its check. -/
def workOf (cfg : Config) (s : State) : Instr → State × Word
  | .nop => (s, resNone)
  | .prepare nch fs => (({ s with fs := fs, nch := nch, status := s.status.prepare } : State).rebuild cfg, resNone)
  | .setord order => (({ s with order := order.toNat } : State).rebuildIf cfg (order.toNat != s.order), resNone)
  | .setpar mode d =>
    (({ s with d := d.toNat, mode := mode.toNat } : State).rebuildIf cfg (d.toNat != s.d), resNone)
  | .getpar => (s, resPar s.mode s.d)
  | .setcodec id => (selectCodec cfg (codecOfId id) s, resNone)
  | .reset => (s.resetState cfg, resNone)
  | .rdreg addr => (s, (memRead s addr).getD 0#32)
  | .apply c ch k x => ((applySection cfg s c ch k x).2, (applySection cfg s c ch k x).1)
  | .cascade c ch x => ((cascadeChain cfg s c ch x).2, (cascadeChain cfg s c ch x).1)
  | .decim ch x => ((holdAndFilter cfg s ch x insertNone).2, (holdAndFilter cfg s ch x insertNone).1)
  | .wrx ch x => (s.setXin ch x, resNone)
  | .rdy ch => (s, s.youtAt ch)
  | .step => (samplePeriod cfg s, resNone)
  | .voxenc ch v => ((voxEnc cfg s ch v).2, resU4 (voxEnc cfg s ch v).1)
  | .voxdec ch code => ((voxDec cfg s ch code).2, resS16 (voxDec cfg s ch code).1)
  | .ulenc pcm => (s, resU8 (ulEnc cfg.ulaw pcm))
  | .uldec b => (s, resS16 (ulDec cfg.ulaw b))
  | .alenc pcm => (s, resU8 (alEnc cfg.alaw pcm))
  | .aldec b => (s, resS16 (alDec cfg.alaw b))
  | .gsmpush v => ((gsmPush cfg s v).2, resS16 (gsmPush cfg s v).1)

/-- Every command raises its check or answers its work: nothing else can happen. -/
theorem exec_eq (i : Instr) (s : State) :
    exec i s = s.complete Config.lpc (checkOf s i)
      ((workOf Config.lpc s i).1.answer (workOf Config.lpc s i).2) := by
  cases i <;> try rfl
  case rdreg addr =>
    show doRdreg Config.lpc addr s = _
    simp only [doRdreg, checkOf, workOf]
    cases memRead s addr <;> rfl

/-- The two ways a command ends, inverted once. -/
theorem exec_cases {i : Instr} {s t : State} (h : exec i s = .next t) :
    (∃ c, checkOf s i = some c ∧ t = s.raise Config.lpc c) ∨
      (checkOf s i = none ∧ t = (workOf Config.lpc s i).1.answer (workOf Config.lpc s i).2) :=
  State.complete_cases s ((exec_eq i s).symm.trans h)

theorem exec_of_check {i : Instr} {s : State} (h : checkOf s i = none) :
    exec i s = .next ((workOf Config.lpc s i).1.answer (workOf Config.lpc s i).2) := by
  rw [exec_eq, h, State.complete_none]

theorem exec_faults {i : Instr} {s : State} {c : Cause} (h : checkOf s i = some c) :
    FaultsWith (exec i s) s c.code := by
  rw [exec_eq]
  exact faultsWith_complete Config.lpc s _ h

/-! ## What processing leaves alone -/

/-- What no command but a configuration command writes. -/
structure KeepsConfig (s t : State) : Prop where
  status : t.status = s.status
  fs : t.fs = s.fs
  nch : t.nch = s.nch
  order : t.order = s.order
  d : t.d = s.d
  mode : t.mode = s.mode
  codec : t.codec = s.codec
  coef : t.coef = s.coef
  stream : t.stream = s.stream
  pc : t.pc = s.pc
  free : t.freeIdx = s.freeIdx

theorem KeepsConfig.refl (s : State) : KeepsConfig s s := ⟨rfl, rfl, rfl, rfl, rfl, rfl, rfl, rfl, rfl, rfl, rfl⟩

theorem KeepsConfig.trans {s t u : State} (h : KeepsConfig s t) (g : KeepsConfig t u) : KeepsConfig s u :=
  ⟨g.status.trans h.status, g.fs.trans h.fs, g.nch.trans h.nch, g.order.trans h.order, g.d.trans h.d,
    g.mode.trans h.mode, g.codec.trans h.codec, g.coef.trans h.coef, g.stream.trans h.stream, g.pc.trans h.pc,
    g.free.trans h.free⟩

theorem foldl_keeps {f : State → Nat → State} (hf : ∀ s n, KeepsConfig s (f s n)) (l : List Nat) (s : State) :
    KeepsConfig s (l.foldl f s) := by
  induction l generalizing s with
  | nil => exact .refl s
  | cons n l ih => exact (hf s n).trans (ih _)

theorem cascadeChain_keeps (cfg : Config) (s : State) (c ch : Nat) (x : Word) :
    KeepsConfig s (cascadeChain cfg s c ch x).2 := by
  rw [cascadeChain_frame]
  exact ⟨rfl, rfl, rfl, rfl, rfl, rfl, rfl, rfl, rfl, rfl, rfl⟩

theorem gsmPush_keeps (cfg : Config) (s : State) (v : BitVec 13) : KeepsConfig s (gsmPush cfg s v).2 := by
  rw [gsmPush_frame]
  exact ⟨rfl, rfl, rfl, rfl, rfl, rfl, rfl, rfl, rfl, rfl, rfl⟩

theorem holdAndFilter_keeps (cfg : Config) (s : State) (ch : Nat) (x : Word) {ins : InsertFn}
    (hi : ∀ s u, KeepsConfig s (ins s u).2) : KeepsConfig s (holdAndFilter cfg s ch x ins).2 := by
  have hl : ∀ s u, KeepsConfig s (latch s ch u ins) := by
    intro s u
    unfold latch
    split
    · exact (hi s u).trans ⟨rfl, rfl, rfl, rfl, rfl, rfl, rfl, rfl, rfl, rfl, rfl⟩
    · exact .refl s
  have hc : ∀ s v, KeepsConfig s (State.setCnt s ch v) := fun _ _ =>
    ⟨rfl, rfl, rfl, rfl, rfl, rfl, rfl, rfl, rfl, rfl, rfl⟩
  exact (((cascadeChain_keeps cfg s 0 ch x).trans (hl _ _)).trans (hc _ _)).trans (cascadeChain_keeps cfg _ 1 ch _)

theorem codecChannel_keeps (cfg : Config) {ins : Nat → InsertFn} (hi : ∀ ch s u, KeepsConfig s (ins ch s u).2)
    (s : State) (ch : Nat) : KeepsConfig s (codecChannel cfg ins s ch) :=
  (holdAndFilter_keeps cfg s ch _ (hi ch)).trans ⟨rfl, rfl, rfl, rfl, rfl, rfl, rfl, rfl, rfl, rfl, rfl⟩

theorem lowCut_keeps (cfg : Config) (s : State) (m : Word) : KeepsConfig s (lowCut cfg s m).2 := by
  unfold lowCut
  split <;> exact ⟨rfl, rfl, rfl, rfl, rfl, rfl, rfl, rfl, rfl, rfl, rfl⟩

theorem samplePeriod_keeps (cfg : Config) (s : State) : KeepsConfig s (samplePeriod cfg s) := by
  have hset : ∀ (s : State) ch y, KeepsConfig s (s.setYout ch y) := fun _ _ _ =>
    ⟨rfl, rfl, rfl, rfl, rfl, rfl, rfl, rfl, rfl, rfl, rfl⟩
  unfold samplePeriod
  split
  · exact foldl_keeps (fun s ch => hset s ch _) _ s
  · exact foldl_keeps (codecChannel_keeps cfg fun ch s u => ⟨rfl, rfl, rfl, rfl, rfl, rfl, rfl, rfl, rfl, rfl, rfl⟩) _ s
  · exact foldl_keeps (codecChannel_keeps cfg fun ch s u => .refl s) _ s
  · exact foldl_keeps (codecChannel_keeps cfg fun ch s u => .refl s) _ s
  · exact ((lowCut_keeps cfg s _).trans (holdAndFilter_keeps cfg _ 0 _ fun s u => gsmPush_keeps cfg s _)).trans
      (foldl_keeps (fun s ch => hset s ch _) _ _)

/-- A configuration command (R20). -/
def isConfig : Instr → Bool
  | .prepare _ _ | .setord _ | .setpar _ _ | .setcodec _ => true
  | .nop | .getpar | .reset | .rdreg _ | .apply _ _ _ _ | .cascade _ _ _ | .decim _ _ | .wrx _ _ | .rdy _ | .step
  | .voxenc _ _ | .voxdec _ _ | .ulenc _ | .uldec _ | .alenc _ | .aldec _ | .gsmpush _ => false

theorem workOf_keeps (cfg : Config) (s : State) (i : Instr) (h : isConfig i = false) :
    KeepsConfig s (workOf cfg s i).1 := by
  cases i with
  | prepare | setord | setpar | setcodec => cases h
  | nop | getpar | rdreg | rdy | ulenc | uldec | alenc | aldec => exact .refl s
  | reset | wrx | apply | voxenc | voxdec => exact ⟨rfl, rfl, rfl, rfl, rfl, rfl, rfl, rfl, rfl, rfl, rfl⟩
  | cascade c ch x => exact cascadeChain_keeps cfg s c ch x
  | decim ch x => exact holdAndFilter_keeps cfg s ch x fun s u => .refl s
  | step => exact samplePeriod_keeps cfg s
  | gsmpush v => exact gsmPush_keeps cfg s v

/-- What every command keeps once its check passes: `FAULT`, `CAUSE`, and `PREPARED` unless it is a `PREPARE`. -/
theorem workOf_status (cfg : Config) (s : State) (i : Instr) :
    (workOf cfg s i).1.status = s.status ∨
      ((∃ nch fs, i = .prepare nch fs) ∧ (workOf cfg s i).1.status = ⟨true, s.status.fault, s.status.cause⟩) := by
  cases hc : isConfig i with
  | false => exact .inl (workOf_keeps cfg s i hc).status
  | true =>
    cases i with
    | prepare nch fs => exact .inr ⟨⟨nch, fs, rfl⟩, rfl⟩
    | setord o => left; simp only [workOf, State.rebuildIf]; split <;> rfl
    | setpar m d => left; simp only [workOf, State.rebuildIf]; split <;> rfl
    | setcodec id =>
      left
      simp only [workOf, selectCodec, State.rebuildIf]
      split
      · rfl
      · split <;> rfl
    | _ => cases hc

/-! ## One step -/

theorem step_none {s : State} (h : s.stream[s.pc]? = none) : step s = .next s := by simp only [step, h]

theorem step_ok {s : State} {w : Command} {i : Instr} (h : s.stream[s.pc]? = some w) (hd : decode w = .ok i) :
    step s = exec i s.advance := by simp only [step, h, hd]

theorem step_illegal {s : State} {w : Command} {e : DecodeError} (h : s.stream[s.pc]? = some w)
    (hd : decode w = .error e) : step s = .next (s.advance.raise Config.lpc .illegalCmd) := by
  simp only [step, h, hd]

/-- What a step can do, inverted once. -/
theorem step_cases {s t : State} (h : step s = .next t) :
    t = s ∨ (∃ c, t = s.advance.raise Config.lpc c) ∨
      (∃ i, checkOf s.advance i = none ∧
        t = (workOf Config.lpc s.advance i).1.answer (workOf Config.lpc s.advance i).2) := by
  cases hs : s.stream[s.pc]? with
  | none =>
    rw [step_none hs] at h
    cases h
    exact .inl rfl
  | some w =>
    cases hd : decode w with
    | error e =>
      rw [step_illegal hs hd] at h
      cases h
      exact .inr (.inl ⟨_, rfl⟩)
    | ok i =>
      rw [step_ok hs hd] at h
      rcases exec_cases h with ⟨c, -, rfl⟩ | ⟨hc, rfl⟩
      · exact .inr (.inl ⟨c, rfl⟩)
      · exact .inr (.inr ⟨i, hc, rfl⟩)

/-- The host's placement is what the next step takes. -/
theorem putAt_getElem (l : List Command) (n : Nat) (w : Command) : (putAt l n w)[n]? = some w := by
  have hlen : (l.take n ++ List.replicate (n - l.length) (⟨0#32, 0#32⟩ : Command)).length = n := by
    simp
    omega
  rw [putAt, List.getElem?_append_right (Nat.le_of_eq hlen), hlen, Nat.sub_self]
  rfl

theorem step_withFetchWord (s : State) {nbits w : Nat} {i : Instr} (hd : decode (commandOfBits nbits w) = .ok i) :
    step (s.withFetchWord nbits w) = exec i (s.withFetchWord nbits w).advance :=
  step_ok (putAt_getElem s.stream s.pc _) hd

end Sys2Proof.Machine
end

