-- ==== Sys2Proof/Laws/Inv.lean ====
section
/-! SUPPORT. The invariants of 10_state.md R39 over the data a command works on: every operation keeps them. -/

namespace Sys2Proof.Machine

theorem snap_not_subnormal (w : Word) : isSubnormal (snap w) = false := by
  unfold snap
  cases h : isSubnormal w
  · rw [if_neg (by decide)]
    exact h
  · rw [if_pos rfl]
    decide

theorem isSubnormal_zero : isSubnormal 0#32 = false := by decide

/-- The part of `Inv` that speaks of per-sample state; `d <= 8` keeps the counters in range. -/
structure DataInv (cfg : Config) (s : State) : Prop where
  d_le : s.d ≤ 8
  vox : ∀ dir ch, -2048 ≤ (s.voxAt dir ch).pred ∧ (s.voxAt dir ch).pred ≤ 2047 ∧
    (s.voxAt dir ch).idx < nstep cfg.vox
  role : s.role.rin ≠ s.role.rwork ∧ s.role.rwork ≠ s.role.rout ∧ s.role.rin ≠ s.role.rout
  delays : ∀ c ch k, isSubnormal (s.zAt c ch k).s1 = false ∧ isSubnormal (s.zAt c ch k).s2 = false
  lcz : isSubnormal s.lcz.s1 = false ∧ isSubnormal s.lcz.s2 = false
  cnt : ∀ ch, (s.cntAt ch).toNat ≤ 7

theorem DataInv.of_inv {cfg : Config} {s : State} (h : Inv cfg s) : DataInv cfg s :=
  ⟨h.params_legal.2.1, h.vox_legal, h.role_perm, h.delays_squashed, h.lcz_squashed, h.cnt_legal⟩

section
variable {cfg : Config} {s : State}

/-- A new delay line of a section holds no subnormal (R114, R115). -/
theorem biquad_squashed (nan : Nat → Word) (q : Coef) (z : Delay) (x : Word) :
    isSubnormal (biquad nan q z x).2.s1 = false ∧ isSubnormal (biquad nan q z x).2.s2 = false :=
  ⟨snap_not_subnormal _, snap_not_subnormal _⟩

theorem DataInv.setZ (h : DataInv cfg s) (c ch k : Nat) {v : Delay}
    (hv : isSubnormal v.s1 = false ∧ isSubnormal v.s2 = false) : DataInv cfg (s.setZ c ch k v) := by
  refine ⟨h.d_le, h.vox, h.role, fun c' ch' k' => ?_, h.lcz, h.cnt⟩
  rw [State.zAt_setZ]
  split
  · exact hv
  · exact h.delays c' ch' k'

theorem DataInv.applySection (h : DataInv cfg s) (c ch k : Nat) (x : Word) :
    DataInv cfg (applySection cfg s c ch k x).2 := h.setZ c ch k (biquad_squashed _ _ _ _)

theorem DataInv.cascadeUpTo (h : DataInv cfg s) (c ch : Nat) (x : Word) (n : Nat) :
    DataInv cfg (cascadeUpTo cfg s c ch x n).2 := by
  induction n with
  | zero => exact h
  | succ n ih => exact ih.applySection c ch n _

theorem DataInv.cascadeChain (h : DataInv cfg s) (c ch : Nat) (x : Word) :
    DataInv cfg (cascadeChain cfg s c ch x).2 := h.cascadeUpTo c ch x _

theorem DataInv.setHeld (h : DataInv cfg s) (ch : Nat) (v : Word) : DataInv cfg (s.setHeld ch v) :=
  ⟨h.d_le, h.vox, h.role, h.delays, h.lcz, h.cnt⟩

theorem DataInv.setXin (h : DataInv cfg s) (ch : Nat) (v : Word) : DataInv cfg (s.setXin ch v) :=
  ⟨h.d_le, h.vox, h.role, h.delays, h.lcz, h.cnt⟩

theorem DataInv.setYout (h : DataInv cfg s) (ch : Nat) (v : Word) : DataInv cfg (s.setYout ch v) :=
  ⟨h.d_le, h.vox, h.role, h.delays, h.lcz, h.cnt⟩

/-- The counter stays below `D` (R142). -/
theorem nextCnt_le {d : Nat} (hd : d ≤ 8) (c : BitVec 4) : (nextCnt d c).toNat ≤ 7 := by
  unfold nextCnt
  split
  · decide
  · rw [BitVec.toNat_ofNat]; omega

theorem DataInv.setCnt (h : DataInv cfg s) (ch : Nat) {v : BitVec 4} (hv : v.toNat ≤ 7) :
    DataInv cfg (s.setCnt ch v) := by
  refine ⟨h.d_le, h.vox, h.role, h.delays, h.lcz, fun ch' => ?_⟩
  rw [State.cntAt_setCnt]
  split
  · exact hv
  · exact h.cnt ch'

theorem DataInv.setVox (h : DataInv cfg s) (dir ch : Nat) (st : VoxState) (code : BitVec 4) :
    DataInv cfg (s.setVox dir ch (voxRecon cfg.vox st code)) := by
  refine ⟨h.d_le, fun dir' ch' => ?_, h.role, h.delays, h.lcz, h.cnt⟩
  rw [State.voxAt_setVox]
  split
  · exact voxRecon_bounds cfg.vox st code
  · exact h.vox dir' ch'

theorem DataInv.voxEnc (h : DataInv cfg s) (ch : Nat) (v : Half) : DataInv cfg (voxEnc cfg s ch v).2 :=
  h.setVox 0 ch _ _

theorem DataInv.voxDec (h : DataInv cfg s) (ch : Nat) (code : BitVec 4) : DataInv cfg (voxDec cfg s ch code).2 :=
  h.setVox 1 ch _ _

theorem DataInv.gsmPush (h : DataInv cfg s) (v : BitVec 13) : DataInv cfg (gsmPush cfg s v).2 := by
  by_cases hl : s.gidx.val + 1 < frameLen
  · rw [gsmPush_early cfg s v hl]
    exact ⟨h.d_le, h.vox, h.role, h.delays, h.lcz, h.cnt⟩
  · rw [gsmPush_last cfg s v (by have : s.gidx.val < 160 := s.gidx.isLt; simp only [frameLen] at hl; omega)]
    exact ⟨h.d_le, h.vox, ⟨h.role.2.1, h.role.2.2.symm, h.role.1.symm⟩, h.delays, h.lcz, h.cnt⟩

theorem DataInv.lowCut (h : DataInv cfg s) (m : Word) : DataInv cfg (lowCut cfg s m).2 := by
  unfold Machine.lowCut
  split
  · exact h
  · exact ⟨h.d_le, h.vox, h.role, h.delays, biquad_squashed _ _ _ _, h.cnt⟩

theorem DataInv.holdAndFilter (h : DataInv cfg s) (ch : Nat) (x : Word) {ins : InsertFn}
    (hi : ∀ s u, DataInv cfg s → DataInv cfg (ins s u).2) : DataInv cfg (holdAndFilter cfg s ch x ins).2 := by
  have hl : ∀ s u, DataInv cfg s → DataInv cfg (latch s ch u ins) := by
    intro s u h
    unfold latch
    split
    · exact (hi s u h).setHeld ch _
    · exact h
  have h1 := hl _ (Machine.cascadeChain cfg s 0 ch x).1 (h.cascadeChain 0 ch x)
  exact (h1.setCnt ch (nextCnt_le h1.d_le _)).cascadeChain 1 ch _

theorem foldl_inv {f : State → Nat → State} (hf : ∀ s n, DataInv cfg s → DataInv cfg (f s n)) (l : List Nat)
    (h : DataInv cfg s) : DataInv cfg (l.foldl f s) := by
  induction l generalizing s with
  | nil => exact h
  | cons n l ih => exact ih (hf s n h)

theorem codecChannel_inv {ins : Nat → InsertFn} (hi : ∀ ch s u, DataInv cfg s → DataInv cfg (ins ch s u).2)
    (s : State) (ch : Nat) (h : DataInv cfg s) : DataInv cfg (codecChannel cfg ins s ch) :=
  (h.holdAndFilter ch _ (hi ch)).setYout ch _

theorem DataInv.samplePeriod (h : DataInv cfg s) : DataInv cfg (samplePeriod cfg s) := by
  unfold Machine.samplePeriod
  split
  · exact foldl_inv (fun s ch h => h.setYout ch _) _ h
  · exact foldl_inv (codecChannel_inv fun ch s u h => (h.voxEnc ch _).voxDec ch _) _ h
  · exact foldl_inv (codecChannel_inv fun ch s u h => h) _ h
  · exact foldl_inv (codecChannel_inv fun ch s u h => h) _ h
  · exact foldl_inv (fun s ch h => h.setYout ch _) _
      ((h.lowCut _).holdAndFilter 0 _ fun s u h => h.gsmPush _)

theorem DataInv.rebuild (h : DataInv cfg s) : DataInv cfg (s.rebuild cfg) :=
  ⟨h.d_le, h.vox, h.role, fun c ch k => by rw [State.zAt_rebuild]; decide, ⟨isSubnormal_zero, isSubnormal_zero⟩, h.cnt⟩

theorem DataInv.rebuildIf (h : DataInv cfg s) (b : Bool) : DataInv cfg (s.rebuildIf cfg b) := by
  unfold State.rebuildIf
  split
  · exact h.rebuild
  · exact h

theorem resetState_inv (hd : s.d ≤ 8) : DataInv cfg (s.resetState cfg) :=
  ⟨hd, fun dir ch => by rw [State.voxAt_resetState]; exact ⟨by decide, by decide, nstep_pos _⟩,
    show (0 : Fin gsmBufs) ≠ 1 ∧ (1 : Fin gsmBufs) ≠ 2 ∧ (0 : Fin gsmBufs) ≠ 2 by decide,
    fun c ch k => by rw [State.zAt_resetState]; decide, ⟨isSubnormal_zero, isSubnormal_zero⟩,
    fun ch => by rw [State.cntAt_resetState]; decide⟩

end

end Sys2Proof.Machine
end

