-- ==== Sys2Proof/Laws/PerInstr.lean ====
section
/-! SUPPORT. One lemma per constructor for each statement made per instruction: the round trip through the encoder. -/

namespace Sys2Proof.Laws.RoundTrip

/-- Decoding the encoding of a well-formed instruction gives it back. -/
def Statement (i : Instr) : Prop := i.wf = true → decode (encode i) = .ok i

/-- A command of format `N`: the opcode comes back, and the zeros are zeros. -/
theorem plainWord {op : Nat} (ho : op < 256) :
    opOf (cmdWord op 0) = op ∧ Format.zerosOk .n (cmdWord op 0) = true := by
  refine ⟨opOf_cmdWord ho (by decide), ?_⟩
  rw [zerosOk_iff, cmdWord_toNat ho (by decide)]
  simp only [Format.zeros]
  omega

theorem nop : Statement .nop := fun _ => rfl

theorem prepare (nch : Nat) (fs : Word) : Statement (.prepare nch fs) := by
  intro h
  simp only [Instr.wf, decide_eq_true_eq] at h
  have hl : nch < 2 ^ 24 := by omega
  refine decode_of_row (f := .i) (opOf_cmdWord (by decide) hl) ?_ ?_
  · simp only [rowOf, encode, immOf_eq, cmdWord_toNat (by decide : 0x01 < 256) hl]
    congr 3; omega
  · simp only [zerosOk_iff, Format.zeros, encode, cmdWord_toNat (by decide : 0x01 < 256) hl]
    omega

theorem setord (order : Word) : Statement (.setord order) := fun _ =>
  let h := plainWord (op := 0x02) (by decide)
  decode_of_row h.1 rfl h.2

theorem setpar (mode d : BitVec 16) : Statement (.setpar mode d) := by
  intro _
  have h := plainWord (op := 0x03) (by decide)
  refine decode_of_row h.1 ?_ h.2
  simp only [rowOf, encode, extract_append_high, extract_append_low]

theorem getpar : Statement .getpar := fun _ => rfl

theorem setcodec (id : Word) : Statement (.setcodec id) := fun _ =>
  let h := plainWord (op := 0x05) (by decide)
  decode_of_row h.1 rfl h.2

theorem reset : Statement .reset := fun _ => rfl

theorem rdreg (addr : Nat) : Statement (.rdreg addr) := by
  intro h
  simp only [Instr.wf, decide_eq_true_eq] at h
  have hl : addr < 2 ^ 24 := by omega
  refine decode_of_row (f := .i) (opOf_cmdWord (by decide) hl) ?_ ?_
  · simp only [rowOf, encode, immOf_eq, cmdWord_toNat (by decide : 0x07 < 256) hl]
    congr 3; omega
  · simp only [zerosOk_iff, Format.zeros, encode, cmdWord_toNat (by decide : 0x07 < 256) hl]
    omega

theorem apply (c ch k : Nat) (x : Word) : Statement (.apply c ch k x) := by
  intro h
  simp only [Instr.wf, Bool.and_eq_true, decide_eq_true_eq] at h
  obtain ⟨⟨hc, hch⟩, hk⟩ := h
  have hl : ch * 2 ^ 20 + c * 2 ^ 16 + k * 2 ^ 12 < 2 ^ 24 := by omega
  refine decode_of_row (f := .k) (opOf_cmdWord (by decide) hl) ?_ ?_
  · simp only [rowOf, encode, cOf_eq, chOf_eq, kOf_eq, cmdWord_toNat (by decide : 0x10 < 256) hl]
    congr 3 <;> omega
  · simp only [zerosOk_iff, Format.zeros, encode, cmdWord_toNat (by decide : 0x10 < 256) hl]
    omega

theorem cascade (c ch : Nat) (x : Word) : Statement (.cascade c ch x) := by
  intro h
  simp only [Instr.wf, Bool.and_eq_true, decide_eq_true_eq] at h
  obtain ⟨hc, hch⟩ := h
  have hl : ch * 2 ^ 20 + c * 2 ^ 16 < 2 ^ 24 := by omega
  refine decode_of_row (f := .kz) (opOf_cmdWord (by decide) hl) ?_ ?_
  · simp only [rowOf, encode, cOf_eq, chOf_eq, cmdWord_toNat (by decide : 0x11 < 256) hl]
    congr 3 <;> omega
  · simp only [zerosOk_iff, Format.zeros, encode, cmdWord_toNat (by decide : 0x11 < 256) hl]
    omega

/-- A command of format `C`: the channel comes back, and the zeros are zeros. -/
theorem channelWord {op ch : Nat} (ho : op < 256) (hch : ch < 16) :
    opOf (cmdWord op (ch * 2 ^ 20)) = op ∧ chOf (cmdWord op (ch * 2 ^ 20)) = ch ∧
      Format.zerosOk .c (cmdWord op (ch * 2 ^ 20)) = true := by
  have hl : ch * 2 ^ 20 < 2 ^ 24 := by omega
  refine ⟨opOf_cmdWord ho hl, ?_, ?_⟩
  · rw [chOf_eq, cmdWord_toNat ho hl]; omega
  · rw [zerosOk_iff, cmdWord_toNat ho hl]; simp only [Format.zeros]; omega

theorem decim (ch : Nat) (x : Word) : Statement (.decim ch x) := by
  intro h
  obtain ⟨ho, hc, hz⟩ := channelWord (op := 0x12) (by decide) (of_decide_eq_true h)
  exact decode_of_row ho (by simp only [rowOf, encode, hc]) hz

theorem wrx (ch : Nat) (x : Word) : Statement (.wrx ch x) := by
  intro h
  obtain ⟨ho, hc, hz⟩ := channelWord (op := 0x18) (by decide) (of_decide_eq_true h)
  exact decode_of_row ho (by simp only [rowOf, encode, hc]) hz

theorem rdy (ch : Nat) : Statement (.rdy ch) := by
  intro h
  obtain ⟨ho, hc, hz⟩ := channelWord (op := 0x19) (by decide) (of_decide_eq_true h)
  exact decode_of_row ho (by simp only [rowOf, encode, hc]) hz

theorem step : Statement .step := fun _ => rfl

theorem voxenc (ch : Nat) (v : Half) : Statement (.voxenc ch v) := by
  intro h
  obtain ⟨ho, hc, hz⟩ := channelWord (op := 0x20) (by decide) (of_decide_eq_true h)
  exact decode_of_row ho (by simp only [rowOf, encode, hc, extract_setWidth_16]) hz

theorem voxdec (ch : Nat) (code : BitVec 4) : Statement (.voxdec ch code) := by
  intro h
  obtain ⟨ho, hc, hz⟩ := channelWord (op := 0x21) (by decide) (of_decide_eq_true h)
  exact decode_of_row ho (by simp only [rowOf, encode, hc, extract_setWidth_4]) hz

theorem ulenc (pcm : Half) : Statement (.ulenc pcm) := fun _ =>
  let h := plainWord (op := 0x28) (by decide)
  decode_of_row h.1 (by simp only [rowOf, encode, extract_setWidth_16]) h.2

theorem uldec (b : Byte) : Statement (.uldec b) := fun _ =>
  let h := plainWord (op := 0x29) (by decide)
  decode_of_row h.1 (by simp only [rowOf, encode, extract_setWidth_8]) h.2

theorem alenc (pcm : Half) : Statement (.alenc pcm) := fun _ =>
  let h := plainWord (op := 0x2A) (by decide)
  decode_of_row h.1 (by simp only [rowOf, encode, extract_setWidth_16]) h.2

theorem aldec (b : Byte) : Statement (.aldec b) := fun _ =>
  let h := plainWord (op := 0x2B) (by decide)
  decode_of_row h.1 (by simp only [rowOf, encode, extract_setWidth_8]) h.2

theorem gsmpush (v : BitVec 13) : Statement (.gsmpush v) := fun _ =>
  let h := plainWord (op := 0x30) (by decide)
  decode_of_row h.1 (by simp only [rowOf, encode, extract_setWidth_13]) h.2

end Sys2Proof.Laws.RoundTrip
end

