-- ==== Sys2Proof/Machine/Pseudo.lean ====
section
/-! DEFINITION. The pseudo-commands (30_encoding.md R89; 45_module_control.md R231): each a fixed sequence of commands the
host presents, none with an opcode of its own. A sequence is a script, since `SETD` and `SETMODE` make their second command
from the answer to the first. -/

namespace Sys2Proof.Machine

/-- The host presents a command at the index of its list, and LPC takes it (R22, R80). -/
def present (i : Instr) (s : State) : Host.Outcome State Fault Refusal :=
  step { s with stream := putAt s.stream s.pc (encode i) }

/-- A sequence of commands, each made from the answer to the command before it. -/
abbrev Script := List (Word → Instr)

/-- A script presented from a state: the answers in order, and the state it leaves. -/
def runScript : Script → State → Host.Outcome (List Word × State) Fault Refusal
  | [], s => .next ([], s)
  | c :: cs, s =>
    match present (c s.rdata) s with
    | .fault r => .fault r
    | .refused r => .refused r
    | .next t =>
      match runScript cs t with
      | .fault r => .fault r
      | .refused r => .refused r
      | .next (ws, u) => .next (t.rdata :: ws, u)

/-- `PROCESS x0, .., x(n-1)`: one sample period. -/
def pseudoProcess (xs : List Word) : List Instr :=
  xs.mapIdx (fun ch x => Instr.wrx ch x) ++ [Instr.step] ++ (List.range xs.length).map Instr.rdy

/-- `PROCESSBLOCK`: the sample periods of a block, one after the other. -/
def pseudoProcessBlock (periods : List (List Word)) : List Instr := periods.flatMap pseudoProcess

/-- `SETPAR` with its operand word given (R82, kind `par`). -/
def setparOf (w : Word) : Instr := .setpar (w.extractLsb' 16 16) (w.extractLsb' 0 16)

/-- `SETD d`: `GETPAR -> p; SETPAR (p & 0xFFFF0000) | d`. -/
def pseudoSetd (d : BitVec 16) : Script :=
  [fun _ => .getpar, fun p => setparOf ((p &&& 0xFFFF0000#32) ||| d.setWidth 32)]

/-- `SETMODE m`: `GETPAR -> p; SETPAR (m << 16) | (p & 0xFFFF)`. -/
def pseudoSetmode (m : BitVec 16) : Script :=
  [fun _ => .getpar, fun p => setparOf ((m.setWidth 32 <<< (16 : Nat)) ||| (p &&& 0x0000FFFF#32))]

/-- `PROCESS` presented: the outputs `y0, .., y(n-1)`, and the state it leaves. -/
def runProcess (xs : List Word) (s : State) : Host.Outcome (List Word × State) Fault Refusal :=
  match runScript ((pseudoProcess xs).map fun i _ => i) s with
  | .fault r => .fault r
  | .refused r => .refused r
  | .next (ws, t) => .next (ws.drop (xs.length + 1), t)

/-- `PROCESSBLOCK` presented: the outputs of each sample period, and the state it leaves. -/
def runProcessBlock : List (List Word) → State → Host.Outcome (List (List Word) × State) Fault Refusal
  | [], s => .next ([], s)
  | xs :: rest, s =>
    match runProcess xs s with
    | .fault r => .fault r
    | .refused r => .refused r
    | .next (ys, t) =>
      match runProcessBlock rest t with
      | .fault r => .fault r
      | .refused r => .refused r
      | .next (yss, u) => .next (ys :: yss, u)

end Sys2Proof.Machine
end

