-- ==== Sys2Proof/Laws/Pseudo.lean ====
section
/-! SUPPORT. What presenting a command and a script does, said once, and what `SETD` and `SETMODE` come to. -/

namespace Sys2Proof.Machine

/-- The state in which a presented command executes. -/
def State.presented (s : State) (i : Instr) : State :=
  { s with stream := putAt s.stream s.pc (encode i), pc := s.pc + 1 }

/-- A presented command that decodes back is executed. -/
theorem present_eq {i : Instr} (s : State) (h : decode (encode i) = .ok i) : present i s = exec i (s.presented i) :=
  step_ok (putAt_getElem s.stream s.pc _) h

/-- One command of a script that goes on, then the rest from the state and the answer it leaves. -/
theorem runScript_cons {c : Word → Instr} {s t u : State} {cs : Script} {ws : List Word}
    (h : present (c s.rdata) s = .next t) (hs : runScript cs t = .next (ws, u)) :
    runScript (c :: cs) s = .next (t.rdata :: ws, u) := by
  simp only [runScript, h, hs]

/-- The parameter word's halves come back (R94). -/
theorem resPar_halves {mode d : Nat} (hm : mode < 2 ^ 16) (hd : d < 2 ^ 16) :
    resPar mode d = BitVec.ofNat 16 mode ++ BitVec.ofNat 16 d := by
  apply BitVec.eq_of_toNat_eq
  rw [resPar, BitVec.toNat_append, BitVec.toNat_ofNat, BitVec.toNat_ofNat, BitVec.toNat_ofNat,
    Nat.mod_eq_of_lt hm, Nat.mod_eq_of_lt hd, Nat.mod_eq_of_lt (by omega), Nat.shiftLeft_eq, Nat.mul_comm mode,
    Nat.two_pow_add_eq_or_of_lt hd, Nat.mul_comm]

/-! ### A parameter word by halves -/

theorem low_word (d : BitVec 16) : d.setWidth 32 = 0#16 ++ d := by
  rw [BitVec.setWidth_eq_append (by decide)]; rfl

theorem high_word (m : BitVec 16) : m.setWidth 32 <<< (16 : Nat) = m ++ 0#16 := by
  apply BitVec.eq_of_toNat_eq
  have := m.isLt
  rw [BitVec.toNat_append, BitVec.toNat_shiftLeft, BitVec.toNat_setWidth]
  simp only [Nat.shiftLeft_eq, BitVec.toNat_ofNat, Nat.zero_mod, Nat.or_zero]
  omega

theorem and_high (hi lo : BitVec 16) : (hi ++ lo) &&& 0xFFFF0000#32 = hi ++ 0#16 := by
  rw [show 0xFFFF0000#32 = 0xFFFF#16 ++ 0#16 by decide]
  refine BitVec.and_append.trans ?_
  rw [BitVec.and_zero, show 0xFFFF#16 = BitVec.allOnes 16 by decide, BitVec.and_allOnes]

theorem and_low (hi lo : BitVec 16) : (hi ++ lo) &&& 0x0000FFFF#32 = 0#16 ++ lo := by
  rw [show 0x0000FFFF#32 = 0#16 ++ 0xFFFF#16 by decide]
  refine BitVec.and_append.trans ?_
  rw [BitVec.and_zero, show 0xFFFF#16 = BitVec.allOnes 16 by decide, BitVec.and_allOnes]

theorem or_halves (hi lo : BitVec 16) : (hi ++ 0#16) ||| (0#16 ++ lo) = hi ++ lo := by
  refine BitVec.or_append.trans ?_
  rw [BitVec.or_zero, BitVec.zero_or]

/-- Replacing the lower half of a parameter word (R89). -/
theorem setparOf_setd (hi lo d : BitVec 16) :
    setparOf (((hi ++ lo) &&& 0xFFFF0000#32) ||| d.setWidth 32) = .setpar hi d := by
  rw [and_high, low_word, or_halves, setparOf, extract_append_high, extract_append_low]

/-- Replacing the upper half of a parameter word (R89). -/
theorem setparOf_setmode (hi lo m : BitVec 16) :
    setparOf ((m.setWidth 32 <<< (16 : Nat)) ||| ((hi ++ lo) &&& 0x0000FFFF#32)) = .setpar m lo := by
  rw [and_low, high_word, or_halves, setparOf, extract_append_high, extract_append_low]

/-- What `GETPAR` answers when presented: the parameter word, with nothing else of LPC's own changed (R226). -/
theorem present_getpar (s : State) :
    present .getpar s = .next ((s.presented .getpar).answer (resPar s.mode s.d)) :=
  present_eq s (Laws.RoundTrip.getpar rfl)

/-- `SETD d` is `GETPAR` and then `SETPAR` with the mode kept and the factor `d` (R89). -/
theorem runScript_setd (s : State) (d : BitVec 16) (hm : s.mode < 2 ^ 16) (hd : s.d < 2 ^ 16) {u : State}
    (h : present (.setpar (BitVec.ofNat 16 s.mode) d) ((s.presented .getpar).answer (resPar s.mode s.d)) = .next u) :
    runScript (pseudoSetd d) s = .next ([resPar s.mode s.d, u.rdata], u) := by
  refine runScript_cons (c := fun _ => .getpar) (present_getpar s) (runScript_cons (cs := []) (ws := []) ?_ rfl)
  show present (setparOf ((resPar s.mode s.d &&& 0xFFFF0000#32) ||| d.setWidth 32)) _ = _
  rw [resPar_halves hm hd, setparOf_setd, ← resPar_halves hm hd, h]

/-- `SETMODE m` is `GETPAR` and then `SETPAR` with the factor kept and the mode `m` (R89). -/
theorem runScript_setmode (s : State) (m : BitVec 16) (hm : s.mode < 2 ^ 16) (hd : s.d < 2 ^ 16) {u : State}
    (h : present (.setpar m (BitVec.ofNat 16 s.d)) ((s.presented .getpar).answer (resPar s.mode s.d)) = .next u) :
    runScript (pseudoSetmode m) s = .next ([resPar s.mode s.d, u.rdata], u) := by
  refine runScript_cons (c := fun _ => .getpar) (present_getpar s) (runScript_cons (cs := []) (ws := []) ?_ rfl)
  show present (setparOf ((m.setWidth 32 <<< (16 : Nat)) ||| (resPar s.mode s.d &&& 0x0000FFFF#32))) _ = _
  rw [resPar_halves hm hd, setparOf_setmode, ← resPar_halves hm hd, h]

end Sys2Proof.Machine
end

