-- ==== Sys2Proof/Tests/Slice0.lean ====
section
/-! SUPPORT. Tests. Expected values are those spec/95_test_vectors.md prints (named `V<n>`, `P<n>`) or the encodings of
spec/30_encoding.md, never the model's own answers. Then one witness for each obligation with hypotheses. -/

namespace Sys2Proof.Tests

-- One theorem after the other: each kernel evaluation would hold a thread of its own.
set_option Elab.async false

open Sys2Proof Sys2Proof.Machine

/-! ## Well-formedness: each check refuses an ill-formed term -/

theorem test_wf_prepare : (Instr.prepare 65536 1#32).wf = false := by decide
theorem test_wf_rdreg : (Instr.rdreg 65536).wf = false := by decide
theorem test_wf_apply_chain : (Instr.apply 16 0 0 0#32).wf = false := by decide
theorem test_wf_apply_channel : (Instr.apply 0 16 0 0#32).wf = false := by decide
theorem test_wf_apply_section : (Instr.apply 0 0 16 0#32).wf = false := by decide
theorem test_wf_cascade_chain : (Instr.cascade 16 0 0#32).wf = false := by decide
theorem test_wf_cascade_channel : (Instr.cascade 0 16 0#32).wf = false := by decide
theorem test_wf_decim : (Instr.decim 16 0#32).wf = false := by decide
theorem test_wf_wrx : (Instr.wrx 16 0#32).wf = false := by decide
theorem test_wf_rdy : (Instr.rdy 16).wf = false := by decide
theorem test_wf_voxenc : (Instr.voxenc 16 0#16).wf = false := by decide
theorem test_wf_voxdec : (Instr.voxdec 16 0#4).wf = false := by decide

/-! ## Decoding: words written out from the formats of R81, the opcodes of R84 and V19 -/

theorem test_decode_nop : decode ⟨0b00000000000000000000000000000000#32, 0#32⟩ = .ok .nop := by decide
theorem test_decode_prepare : decode ⟨0b00000001000000000000000000000010#32, 0x0000BB80#32⟩ = .ok (.prepare 2 48000#32) := by decide
theorem test_decode_setord : decode ⟨0b00000010000000000000000000000000#32, 0x00000004#32⟩ = .ok (.setord 4#32) := by decide
theorem test_decode_setpar : decode ⟨0b00000011000000000000000000000000#32, 0x00030002#32⟩ = .ok (.setpar 3#16 2#16) := by decide
theorem test_decode_getpar : decode ⟨0b00000100000000000000000000000000#32, 0#32⟩ = .ok .getpar := by decide
theorem test_decode_setcodec : decode ⟨0b00000101000000000000000000000000#32, 0x00000003#32⟩ = .ok (.setcodec 3#32) := by decide
theorem test_decode_reset : decode ⟨0b00000110000000000000000000000000#32, 0#32⟩ = .ok .reset := by decide
theorem test_decode_rdreg : decode ⟨0b00000111000000001111111111111111#32, 0#32⟩ = .ok (.rdreg 0xFFFF) := by decide
theorem test_decode_apply : decode ⟨0b00010000000100000011000000000000#32, 0x3F800000#32⟩ = .ok (.apply 0 1 3 0x3F800000#32) := by decide
theorem test_decode_apply_all_fields : decode ⟨0b00010000111100011111000000000000#32, 0#32⟩ = .ok (.apply 1 15 15 0#32) := by decide
theorem test_decode_cascade : decode ⟨0b00010001000100010000000000000000#32, 0x3F000000#32⟩ = .ok (.cascade 1 1 0x3F000000#32) := by decide
theorem test_decode_decim : decode ⟨0b00010010000100000000000000000000#32, 0x40000000#32⟩ = .ok (.decim 1 0x40000000#32) := by decide
theorem test_decode_wrx : decode ⟨0b00011000000100000000000000000000#32, 0x00000001#32⟩ = .ok (.wrx 1 1#32) := by decide
theorem test_decode_rdy : decode ⟨0b00011001000100000000000000000000#32, 0#32⟩ = .ok (.rdy 1) := by decide
theorem test_decode_step : decode ⟨0b00011010000000000000000000000000#32, 0#32⟩ = .ok .step := by decide
theorem test_decode_voxenc : decode ⟨0b00100000000000000000000000000000#32, 0x0000F448#32⟩ = .ok (.voxenc 0 (BitVec.ofInt 16 (-3000))) := by decide
theorem test_decode_voxdec : decode ⟨0b00100001000000000000000000000000#32, 0x0000000F#32⟩ = .ok (.voxdec 0 15#4) := by decide
/-- V15: only bits 15:0 of the operand word are read. -/
theorem test_decode_ulenc : decode ⟨0b00101000000000000000000000000000#32, 0xABCD03E8#32⟩ = .ok (.ulenc 1000#16) := by decide
/-- V15: `ULDEC` with `wdata = 0x00000100` is `b = 0x00`. -/
theorem test_decode_uldec : decode ⟨0b00101001000000000000000000000000#32, 0x00000100#32⟩ = .ok (.uldec 0#8) := by decide
theorem test_decode_alenc : decode ⟨0b00101010000000000000000000000000#32, 0x0000FC18#32⟩ = .ok (.alenc (BitVec.ofInt 16 (-1000))) := by decide
theorem test_decode_aldec : decode ⟨0b00101011000000000000000000000000#32, 0x000000FA#32⟩ = .ok (.aldec 0xFA#8) := by decide
theorem test_decode_gsmpush : decode ⟨0b00110000000000000000000000000000#32, 0x00001FFF#32⟩ = .ok (.gsmpush (BitVec.ofInt 13 (-1))) := by decide

/-- V19: the illegal words, by format and by opcode. -/
theorem test_decode_illegal :
    decode ⟨0x00000001#32, 0#32⟩ = .error .mustBeZero ∧ decode ⟨0x01010002#32, 0#32⟩ = .error .mustBeZero ∧
    decode ⟨0x10000001#32, 0#32⟩ = .error .mustBeZero ∧ decode ⟨0x11011000#32, 0#32⟩ = .error .mustBeZero ∧
    decode ⟨0x12010000#32, 0#32⟩ = .error .mustBeZero ∧ decode ⟨0x1B000000#32, 0#32⟩ = .error .reservedOp ∧
    decode ⟨0x31000000#32, 0#32⟩ = .error .reservedOp ∧ decode ⟨0xFF000000#32, 0#32⟩ = .error .reservedOp ∧
    decode ⟨0x08000000#32, 0#32⟩ = .error .reservedOp := by decide

/-- The host's numbering: bit 0 is that of `cmd`, and the operand word follows it. -/
theorem test_decodeTableWord :
    decodeTableWord 32 0x10103000 = some (.apply 0 1 3 0#32) ∧
    decodeTableWord 64 (0x3F800000 * 2 ^ 32 + 0x10103000) = some (.apply 0 1 3 0x3F800000#32) ∧
    decodeTableWord 32 0x1B000000 = none := by decide

/-- What a step does with the placed word: it runs it and moves past it. -/
theorem test_withFetchWord_runs_it :
    step (State.reset.withFetchWord 32 0x04000000) =
      exec .getpar { State.reset with stream := [⟨0x04000000#32, 0#32⟩], pc := 1 } := rfl

/-- R89: the sequences the pseudo-commands stand for. -/
theorem test_pseudo_commands :
    pseudoProcess [0x3F000000#32, 0xBE800000#32] =
      [.wrx 0 0x3F000000#32, .wrx 1 0xBE800000#32, .step, .rdy 0, .rdy 1] ∧
    (pseudoSetd 2#16).map (fun c => c 0x00030004#32) = [.getpar, .setpar 3#16 2#16] ∧
    (pseudoSetmode 3#16).map (fun c => c 0x00010004#32) = [.getpar, .setpar 3#16 4#16] := by decide

/-- What a script answers, and the state it leaves. -/
def scriptResult {α : Type} (o : Host.Outcome (α × State) Fault Refusal) : Option (α × State) :=
  match o with
  | .next r => some r
  | .fault _ => none
  | .refused _ => none

/-- R89, from reset: `SETD 2` reads `0x00010001` and stores `D = 2`, `SETMODE 3` after it keeps `D`. -/
theorem test_setd_setmode :
    (scriptResult (runScript (pseudoSetd 2#16 ++ pseudoSetmode 3#16) State.reset)).map
      (fun r => (r.1, r.2.mode, r.2.d, r.2.pc)) =
    some ([0x00010001#32, 0#32, 0x00010002#32, 0#32], 3, 2, 4) := by decide +kernel

/-! ## The test configurations of 95_test_vectors.md -/

/-- `TESTGSM`: the state is `n` and the 160 saved words. -/
def testGsm : GsmCodec where
  init := 0 :: List.replicate 160 0
  encode := fun g w =>
    ((g.headD 0 + 1) :: w.toList.map BitVec.toInt,
      Vector.ofFn fun i => if i.val = 0 then BitVec.ofInt 8 (g.headD 0 + 1) else (vget w (i.val - 1)).extractLsb' 8 8)
  decode := fun g _ => (g, Vector.ofFn fun i => BitVec.ofInt 16 (g.tail.getD i.val 0))

/-- Every section `q`, `GAIN1`, the default tables, `TESTGSM`, no `LOWCUT`. -/
def testConfig (q : Coef) : Config where
  design := fun _ _ n => Vector.replicate (n / 2) q
  gain := fun _ => 0x3F800000#32
  vox := voxDefault
  ulaw := ulawDefault
  alaw := alawDefault
  gsm := testGsm
  lowcut := none
  freeWord := fun _ => 0#32
  freeNaN := fun _ _ _ => 0#32

/-- `TD1`. -/
def td1 : Coef := ⟨0x3E800000#32, 0x3F000000#32, 0x3E800000#32, 0xBF000000#32, 0x3E800000#32⟩
/-- `TDI`. -/
def tdi : Coef := ⟨0x3F800000#32, 0#32, 0#32, 0#32, 0#32⟩
/-- `TDA`. -/
def tda : Coef := ⟨0x3F000000#32, 0x3F000000#32, 0#32, 0#32, 0#32⟩
/-- `TDZ`. -/
def tdz : Coef := ⟨0x3F800000#32, 0#32, 0xBF800000#32, 0#32, 0x3F000000#32⟩

/-- A unit with the filter `q` on every section, of order `order` and `nch` channels, just prepared. -/
def unit (q : Coef) (order nch : Nat) : State :=
  { State.resetWith (testConfig q) with
    status := ⟨true, false, 0#4⟩, fs := 48000#32, nch := nch, order := order,
    coef := Vector.ofFn fun k => if k.val < order / 2 then q else Coef.zero }

/-- The state a command leaves; every command leaves one (R264). -/
def after : Host.Outcome State Fault Refusal → State
  | .next t => t
  | .fault f => nomatch f
  | .refused _ => State.resetWith (testConfig tdi)

/-! ## Module control -/

theorem test_nop : (after (doNop (unit tdi 2 1))).rdata = 0#32 := by decide +kernel
/-- P1: `PREPARE 1, 48000` of a reset unit. -/
theorem test_prepare :
    let t := after (doPrepare (testConfig td1) 1 48000#32 { State.resetWith (testConfig td1) with order := 2 })
    t.rdata = 0#32 ∧ t.status.word = 1#32 ∧ t.coefAt 0 = td1 ∧ t.coefAt 1 = Coef.zero := by decide +kernel
/-- V20 (c). -/
theorem test_prepare_bad_config :
    (after (doPrepare (testConfig td1) 3 48000#32 (State.resetWith (testConfig td1)))).status.word = 0x52#32 := by
  decide +kernel
theorem test_setord : (after (doSetord (testConfig td1) 4#32 (unit td1 2 1))).coefAt 1 = td1 := by decide +kernel
/-- P8: a change of `D` clears the delay lines and keeps `CNT` and `HELD`. -/
theorem test_setpar :
    let s := ((unit tda 2 1).setZ 0 0 0 ⟨0x40400000#32, 0#32⟩).setCnt 0 3#4 |>.setHeld 0 0x3F800000#32
    let t := after (doSetpar (testConfig tda) 3#16 2#16 { s with d := 4 })
    t.zAt 0 0 0 = Delay.zero ∧ t.cntAt 0 = 3#4 ∧ t.heldAt 0 = 0x3F800000#32 := by decide +kernel
/-- P8: a change of `MODE` alone does not rebuild. -/
theorem test_setpar_mode_only :
    let s := (unit tda 2 1).setZ 0 0 0 ⟨0x40400000#32, 0#32⟩
    (after (doSetpar (testConfig tda) 3#16 4#16 { s with d := 4 })).zAt 0 0 0 = ⟨0x40400000#32, 0#32⟩ := by
  decide +kernel
/-- P8, its last line. -/
theorem test_getpar : (after (doGetpar { unit tda 2 1 with mode := 3, d := 2 })).rdata = 0x00030002#32 := by decide +kernel
/-- P4: an unknown id selects no module, and `HELD` is back at its reset value. -/
theorem test_setcodec :
    let t := after (doSetcodec (testConfig tdi) 9#32 ({ unit tdi 2 1 with codec := .alaw }.setHeld 0 0x3F000000#32))
    t.codec = .none ∧ t.heldAt 0 = 0#32 := by decide +kernel
/-- R222: an unknown id while `CODEC = 0` changes nothing. -/
theorem test_setcodec_same :
    (after (doSetcodec (testConfig tdi) 9#32 ((unit tdi 2 1).setHeld 0 0x3F000000#32))).heldAt 0 = 0x3F000000#32 := by
  decide +kernel
/-- P3: `RESET` clears the VOX state and keeps `PREPARED`. -/
theorem test_reset :
    let t := after (doReset (testConfig tdi) ((unit tdi 2 1).setVox 0 0 ⟨-43, 24⟩))
    t.voxAt 0 0 = ⟨0, 0⟩ ∧ t.status.word = 1#32 := by decide +kernel
/-- P3: `VOX[0][0].pred` reads sign-extended. -/
theorem test_rdreg :
    (after (doRdreg (testConfig tdi) 0x0080 ((unit tdi 2 1).setVox 0 0 ⟨-43, 24⟩))).rdata = 0xFFFFFFD5#32 := by
  decide +kernel
/-- V20 (g): the unmapped addresses. -/
theorem test_rdreg_unmapped :
    (∀ a ∈ [0x0007, 0x0012, 0x0105, 0x07A1, 0x08A0], memRead (unit tdi 2 1) a = none) ∧
    (after (doRdreg (testConfig tdi) 0x0007 (State.resetWith (testConfig tdi)))).status.word = 0x62#32 := by
  decide +kernel

/-! ## The filter chain -/

/-- V1, its first row. -/
theorem test_apply :
    let t := after (doApply (testConfig td1) 0 0 0 0x3F800000#32 (unit td1 2 1))
    t.rdata = 0x3E800000#32 ∧ t.zAt 0 0 0 = ⟨0x3F200000#32, 0x3E400000#32⟩ := by decide +kernel
/-- V20 (d): the section index equal to `NSEC`. -/
theorem test_apply_bad_section :
    (after (doApply (testConfig td1) 0 0 4 0x3F800000#32 (unit td1 8 1))).status.word = 0x43#32 := by decide +kernel
/-- V2, its first row. -/
theorem test_cascade :
    let t := after (doCascade (testConfig td1) 0 0 0x3F800000#32 (unit td1 4 1))
    t.rdata = 0x3D800000#32 ∧ t.zAt 0 0 0 = ⟨0x3F200000#32, 0x3E400000#32⟩ ∧
      t.zAt 0 0 1 = ⟨0x3E200000#32, 0x3D400000#32⟩ := by decide +kernel
/-- V3: the squash, four rows. -/
theorem test_squash :
    let row := fun x => biquad (fun _ => 0#32) tda Delay.zero x
    row 0x00800000#32 = (0x00000000#32, ⟨0x00000000#32, 0x00000000#32⟩) ∧
    row 0x81000000#32 = (0x80800000#32, ⟨0x80800000#32, 0x00000000#32⟩) ∧
    row 0x01000000#32 = (0x00800000#32, ⟨0x00800000#32, 0x00000000#32⟩) ∧
    row 0x00000001#32 = (0x00000000#32, ⟨0x00000000#32, 0x00000000#32⟩) := by decide +kernel
/-- V4: infinity, and the NaN it leaves. -/
theorem test_infinity :
    let r := biquad (fun _ => 0#32) td1 Delay.zero 0x7F800000#32
    r.1 = 0x7F800000#32 ∧ r.2.s1 = 0x7F800000#32 ∧ isNaN r.2.s2 = true ∧
      (biquad (fun _ => 0#32) td1 r.2 0#32).1 = 0x7F800000#32 := by decide +kernel
/-- V5: signed zeros. -/
theorem test_signed_zeros :
    let r := biquad (fun _ => 0#32) tdz Delay.zero 0#32
    r = (0#32, ⟨0x00000000#32, 0x80000000#32⟩) ∧
      biquad (fun _ => 0#32) tdz r.2 0x80000000#32 = (0#32, ⟨0x80000000#32, 0x00000000#32⟩) := by decide +kernel

/-! ## The decimator and the sample period -/

/-- V7, its first row: latched. -/
theorem test_decim :
    let t := after (doDecim (testConfig tda) 0 0x40000000#32 { unit tda 2 1 with d := 3 })
    t.rdata = 0x3F000000#32 ∧ t.heldAt 0 = 0x3F800000#32 ∧ t.cntAt 0 = 1#4 := by decide +kernel
/-- P8: not latched after `D` shrank, the counter cleared by the comparison. -/
theorem test_decim_compare_and_clear :
    let s := ((unit tda 2 1).setCnt 0 3#4).setHeld 0 0x3F800000#32
    let t := after (doDecim (testConfig tda) 0 0x41000000#32 { s with d := 2 })
    t.rdata = 0x3F000000#32 ∧ t.cntAt 0 = 0#4 ∧ t.zAt 0 0 0 = ⟨0x40800000#32, 0#32⟩ := by decide +kernel
theorem test_wrx : (after (doWrx (testConfig tdi) 1 0x7F800001#32 (unit tdi 2 2))).xinAt 1 = 0x7F800001#32 := by
  decide +kernel
theorem test_rdy : (after (doRdy (testConfig tdi) 1 ((unit tdi 2 2).setYout 1 0x3F800000#32))).rdata = 0x3F800000#32 := by
  decide +kernel
/-- P4: one period of `0.5` with mu-law, and one with A-law. -/
theorem test_step_companders :
    let s := fun c => { unit tdi 2 1 with codec := c }.setXin 0 0x3F000000#32
    (after (doStep (testConfig tdi) (s .mulaw))).youtAt 0 = 0x3F02F800#32 ∧
    (after (doStep (testConfig tdi) (s .alaw))).youtAt 0 = 0x3F040000#32 := by decide +kernel
/-- P5, period 0: VOX, stereo. -/
theorem test_step_vox :
    let s := ({ unit tda 2 2 with codec := .vox, d := 2 }.setXin 0 0x3F000000#32).setXin 1 0xBE800000#32
    let t := after (doStep (testConfig tda) s)
    t.youtAt 0 = 0x3BF00000#32 ∧ t.youtAt 1 = 0xBBF00000#32 ∧ t.cntAt 1 = 1#4 ∧
      t.voxAt 0 0 = ⟨30, 8⟩ ∧ t.voxAt 1 1 = ⟨-30, 8⟩ := by decide +kernel
/-- P6, period 0: the downmix, one push, both channels. -/
theorem test_step_gsm :
    let s := ({ unit tdi 2 2 with codec := .gsm, d := 2 }.setXin 0 0x3E800000#32).setXin 1 0x3F000000#32
    let t := after (doStep (testConfig tdi) s)
    t.bufAt 0 0 = 12288#16 ∧ t.gidx = 1 ∧ t.cntAt 0 = 1#4 ∧ t.cntAt 1 = 0#4 ∧ t.youtAt 1 = 0#32 := by decide +kernel
/-- P4: bit-exact pass-through of a subnormal. -/
theorem test_step_pass_through :
    (after (doStep (testConfig tdi) ((unit tdi 2 1).setXin 0 1#32))).youtAt 0 = 1#32 := by decide +kernel
/-- V20 (a): `STEP` before `PREPARE`. -/
theorem test_step_not_prepared :
    (after (doStep (testConfig tdi) (State.resetWith (testConfig tdi)))).status.word = 0x22#32 := by decide +kernel
/-- V17: the 16-bit column. -/
theorem test_f2i16 :
    [0x3F000000#32, 0xBF000000#32, 0x3F800000#32, 0xBF800000#32, 0x3F7FFF58#32, 0xBDCCCCCD#32, 0x358637BD#32,
      0x40200000#32, 0x7F800000#32, 0xFF800000#32, 0x7FC00000#32].map (fun x => (f2i16 x).toInt) =
    [16384, -16384, 32767, -32768, 32767, -3276, 0, 32767, 32767, -32768, 0] := by decide +kernel
/-- V17: the 13-bit column. -/
theorem test_f2i13 :
    [0x3F000000#32, 0xBF000000#32, 0x3F800000#32, 0xBF800000#32, 0x3F7FFF58#32, 0xBDCCCCCD#32, 0x358637BD#32,
      0x40200000#32, 0x7F800000#32, 0xFF800000#32, 0x7FC00000#32].map (fun x => (f2i13 x).toInt) =
    [2048, -2048, 4095, -4096, 4095, -409, 0, 4095, 4095, -4096, 0] := by decide +kernel
/-- V17: the way back. -/
theorem test_i2f16 :
    i2f16 16764#16 = 0x3F02F800#32 ∧ i2f16 0x8000#16 = 0xBF800000#32 ∧ i2f16 32767#16 = 0x3F7FFE00#32 ∧
      i2f16 480#16 = 0x3C700000#32 := by decide +kernel

/-! ## VOX -/

/-- V10, row 3. -/
theorem test_voxenc :
    let t := after (doVoxenc (testConfig tdi) 0 (BitVec.ofInt 16 (-3000)) ((unit tdi 2 1).setVox 0 0 ⟨93, 16⟩))
    t.rdata = 15#32 ∧ t.voxAt 0 0 = ⟨-43, 24⟩ := by decide +kernel
/-- V13: the thresholds, either side. -/
theorem test_voxenc_thresholds :
    [3, 4, 7, 8, 11, 12, 15, 16, 19, 20, 23, 24, 27, 28].map
        (fun q : Int => (voxCode voxDefault ⟨0, 0⟩ (BitVec.ofInt 16 (16 * q))).toNat) =
      [0, 1, 1, 2, 2, 3, 3, 4, 4, 5, 5, 6, 6, 7] ∧
    [63, 64, -1, -64, -65].map (fun v : Int => (voxCode voxDefault ⟨0, 0⟩ (BitVec.ofInt 16 v)).toNat) =
      [0, 1, 8, 9, 9] := by decide +kernel
/-- V11 from `(100, 20)`, code 15. -/
theorem test_voxdec :
    let t := after (doVoxdec (testConfig tdi) 0 15#4 ((unit tdi 2 1).setVox 1 0 ⟨100, 20⟩))
    t.rdata.toInt = -1600 ∧ t.voxAt 1 0 = ⟨-100, 28⟩ := by decide +kernel
/-- V12: the clamps. -/
theorem test_voxdec_clamps :
    voxRecon voxDefault ⟨2040, 48⟩ 7#4 = ⟨2047, 48⟩ ∧ voxRecon voxDefault ⟨-2040, 48⟩ 15#4 = ⟨-2048, 48⟩ ∧
    voxRecon voxDefault ⟨0, 47⟩ 7#4 = ⟨2047, 48⟩ ∧ voxRecon voxDefault ⟨0, 0⟩ 3#4 = ⟨14, 0⟩ := by decide +kernel

/-! ## Companders -/

/-- V15, the mu-law column. -/
theorem test_ulenc :
    [0, 1, -1, 15, 16, -16, -17, 100, -100, 123, 124, 255, 256, 1000, -1000, 4000, 8000, 16000, 32635, 32767, -32767,
      -32768].map (fun v : Int => (ulEnc ulawDefault (BitVec.ofInt 16 v)).toNat) =
    [0xFF, 0xFF, 0x7F, 0xFD, 0xFD, 0x7D, 0x7D, 0xF2, 0x72, 0xF0, 0xEF, 0xE7, 0xE7, 0xCE, 0x4E, 0xAF, 0xA0, 0x90, 0x80,
      0x80, 0x00, 0x00] := by decide +kernel
/-- V15, the A-law column. -/
theorem test_alenc :
    [0, 1, -1, 15, 16, -16, -17, 100, -100, 123, 124, 255, 256, 1000, -1000, 4000, 8000, 16000, 32635, 32767, -32767,
      -32768].map (fun v : Int => (alEnc alawDefault (BitVec.ofInt 16 v)).toNat) =
    [0xD5, 0xD5, 0x55, 0xD5, 0xD4, 0x55, 0x54, 0xD3, 0x53, 0xD2, 0xD2, 0xDA, 0xC5, 0xFA, 0x7A, 0x9A, 0x8A, 0xBA, 0xAA,
      0xAA, 0x2A, 0x2A] := by decide +kernel
/-- V15: `0xFFFF8284`, `-32124` sign-extended. -/
theorem test_uldec : (after (doUldec (testConfig tdi) 0#8 (unit tdi 2 1))).rdata = 0xFFFF8284#32 := by decide +kernel
/-- V16: `ALDEC 0x54` is `-24`. -/
theorem test_aldec : (after (doAldec (testConfig tdi) 0x54#8 (unit tdi 2 1))).rdata.toInt = -24 := by decide +kernel

/-- 96_reference_tables.md section 2, the rows 0x0_ of mu-law and 0x5_ of A-law. -/
theorem test_default_tables :
    (List.range 16).map (fun i => (ulDec ulawDefault (BitVec.ofNat 8 i)).toInt) =
      [-32124, -31100, -30076, -29052, -28028, -27004, -25980, -24956, -23932, -22908, -21884, -20860, -19836, -18812,
        -17788, -16764] ∧
    (List.range 16).map (fun i => (alDec alawDefault (BitVec.ofNat 8 (0x50 + i))).toInt) =
      [-88, -72, -120, -104, -24, -8, -56, -40, -216, -200, -248, -232, -152, -136, -184, -168] := by decide +kernel
/-- 96_reference_tables.md section 1: `D = 1` and `D = 4` share `a2` and have `a1` of opposite sign. -/
theorem test_reference_design :
    (refDesign8.getD 0 []).map (fun q => (fneg q.a1, q.a2)) = (refDesign8.getD 3 []).map (fun q => (q.a1, q.a2)) ∧
      refDesign8.all (fun l => l.length == 4 && l.all Coef.isFinite) = true := by decide

/-! ## GSM -/

/-- V18 (a), its first push. -/
theorem test_gsmpush :
    let t := after (doGsmpush (testConfig tdi) 1#13 (State.resetWith (testConfig tdi)))
    t.rdata = 0#32 ∧ t.gidx = 1 ∧ t.bufAt 0 0 = 8#16 ∧ roleWord t.role = 0x24#32 := by decide +kernel
/-- V18 (a), its last push, the buffer filled as the 159 pushes before it fill it. -/
theorem test_gsmpush_full :
    let s := State.resetWith (testConfig tdi)
    let full := Vector.ofFn fun i => if i.val < 159 then BitVec.ofNat 16 (8 * (i.val + 1)) else 0#16
    let t := after (doGsmpush (testConfig tdi) 160#13 { s with gidx := 159, buf := s.buf.set 0 full })
    t.rdata = 0#32 ∧ t.gidx = 0 ∧ roleWord t.role = 0x09#32 ∧ t.bufAt 0 0 = 8#16 ∧ t.bufAt 0 159 = 1280#16 ∧
      t.frameAt 0 = 1#8 ∧ t.frameAt 1 = 0#8 ∧ t.gstate.headD 0 = 1 := by decide +kernel

/-! ## Witnesses: states that meet the hypotheses of the statements, with the boundary of each clause -/

/-- A prepared unit of THE machine: two channels, order 8, a coefficient set of its own in every section. -/
def ready : State :=
  { State.reset with
    status := ⟨true, false, 0#4⟩, fs := 48000#32, nch := 2, coef := Vector.replicate nsecMax td1 }

/-- R89, R152: two sample periods with no module pass their samples through, channel by channel. -/
theorem test_process_block :
    (scriptResult (runProcessBlock [[1#32, 2#32], [3#32, 4#32]] ready)).map (fun r => r.1) =
      some [[1#32, 2#32], [3#32, 4#32]] := by decide +kernel

/-- R112: `TD1`'s section is stable, and one with an infinite `a1` or a NaN `a2` is not. -/
theorem test_stable : td1.isStable ∧ ¬ (⟨0#32, 0#32, 0#32, 0x7F800000#32, 0#32⟩ : Coef).isStable ∧
    ¬ (⟨0#32, 0#32, 0#32, 0#32, 0x7FC00000#32⟩ : Coef).isStable := by
  have h1 : unpack td1.a1 = .fin true 8388608 (-24) := by decide
  have h2 : unpack td1.a2 = .fin false 8388608 (-25) := by decide
  refine ⟨⟨by decide, by decide, ?_, ?_⟩, fun h => absurd h.1 (by decide), fun h => absurd h.2.1 (by decide)⟩ <;>
    norm_num [valQ, h1, h2, abs_of_neg, abs_of_pos]

/-- R112: `P_STABLE` bounds `a1` and `a2` alone: a section with an infinite `b0` may be stable, and is not finite. -/
theorem test_stable_not_finite :
    let q : Coef := ⟨0x7F800000#32, 0#32, 0#32, 0#32, 0#32⟩
    q.isStable ∧ q.isFinite = false := by
  have h0 : unpack 0#32 = .fin false 0 (-149) := by decide
  refine ⟨⟨by decide, by decide, ?_, ?_⟩, by decide⟩ <;> norm_num [valQ, h0]

theorem witness_DecodeOfEncodeIsTheInstruction :
    [Instr.prepare 65535 1#32, .rdreg 65535, .apply 15 15 15 0xFFFFFFFF#32, .cascade 15 15 1#32, .decim 15 1#32,
      .wrx 15 1#32, .rdy 15, .voxenc 15 0xFFFF#16, .voxdec 15 15#4, .nop, .setord 1#32, .setpar 1#16 2#16, .getpar,
      .setcodec 1#32, .reset, .step, .ulenc 1#16, .uldec 1#8, .alenc 1#16, .aldec 1#8, .gsmpush 0x1FFF#13].all
      Instr.wf = true := by decide

theorem witness_EncodeOfDecodedIsTheCommandWord :
    ∃ w i, decode w = .ok i := ⟨⟨0x10F1F000#32, 0xFFFFFFFF#32⟩, .apply 1 15 15 0xFFFFFFFF#32, by decide⟩

/-- The last row, spelled by its one word. -/
theorem witness_DecoderAcceptsExactlyTheOpcodeMap :
    20 < opcodeMap.length ∧ (opcodeMap[20]'(by decide)).spells 0x30000000#32 = true := by decide

/-- One word for each row, every free bit of it set. -/
theorem witness_EachRowDecodesToItsCommand :
    let m := fun (c mask pat : Word) => c &&& mask = pat
    m 0x00000000#32 0xFFFFFFFF#32 0x00000000#32 ∧ m 0x0100FFFF#32 0xFFFF0000#32 0x01000000#32 ∧
    m 0x02000000#32 0xFFFFFFFF#32 0x02000000#32 ∧ m 0x03000000#32 0xFFFFFFFF#32 0x03000000#32 ∧
    m 0x04000000#32 0xFFFFFFFF#32 0x04000000#32 ∧ m 0x05000000#32 0xFFFFFFFF#32 0x05000000#32 ∧
    m 0x06000000#32 0xFFFFFFFF#32 0x06000000#32 ∧ m 0x0700FFFF#32 0xFFFF0000#32 0x07000000#32 ∧
    m 0x10FFF000#32 0xFF000FFF#32 0x10000000#32 ∧ m 0x11FF0000#32 0xFF00FFFF#32 0x11000000#32 ∧
    m 0x12F00000#32 0xFF0FFFFF#32 0x12000000#32 ∧ m 0x18F00000#32 0xFF0FFFFF#32 0x18000000#32 ∧
    m 0x19F00000#32 0xFF0FFFFF#32 0x19000000#32 ∧ m 0x1A000000#32 0xFFFFFFFF#32 0x1A000000#32 ∧
    m 0x20F00000#32 0xFF0FFFFF#32 0x20000000#32 ∧ m 0x21F00000#32 0xFF0FFFFF#32 0x21000000#32 ∧
    m 0x28000000#32 0xFFFFFFFF#32 0x28000000#32 ∧ m 0x29000000#32 0xFFFFFFFF#32 0x29000000#32 ∧
    m 0x2A000000#32 0xFFFFFFFF#32 0x2A000000#32 ∧ m 0x2B000000#32 0xFFFFFFFF#32 0x2B000000#32 ∧
    m 0x30000000#32 0xFFFFFFFF#32 0x30000000#32 := by decide

/-- The last command of a stream of two. -/
theorem witness_StepRunsTheDecodedCommand :
    ∃ (s : State) (w : Command) (i : Instr), s.stream[s.pc]? = some w ∧ decode w = .ok i :=
  ⟨{ ready with stream := [⟨0#32, 0#32⟩, ⟨0x1A000000#32, 0#32⟩], pc := 1 }, ⟨0x1A000000#32, 0#32⟩, .step, rfl, by decide⟩

theorem witness_IllegalCommandOnlyRaisesTheFault :
    ∃ (s : State) (w : Command), s.stream[s.pc]? = some w ∧ ∀ r ∈ opcodeMap, r.spells w.cmd = false :=
  ⟨{ ready with stream := [⟨0x10000001#32, 0#32⟩] }, ⟨0x10000001#32, 0#32⟩, rfl, by decide⟩

/-- The index one past the stream's end. -/
theorem witness_StepWithNoCommandChangesNothing : ∃ s : State, s.stream[s.pc]? = none :=
  ⟨{ ready with stream := [⟨0#32, 0#32⟩], pc := 1 }, rfl⟩

theorem witness_FaultFlagAndFirstCauseAreSticky :
    ∃ s t : State, step s = .next t ∧ s.status.fault = true :=
  ⟨{ ready with status := ⟨false, true, 2#4⟩, stream := [⟨0x08000000#32, 0#32⟩] }, _, rfl, rfl⟩

theorem witness_FaultsArePrecise :
    ∃ (i : Instr) (s t : State), exec i s = .next t ∧ s.status.fault = false ∧ t.status.fault = true :=
  ⟨.step, State.reset, _, rfl, rfl, rfl⟩

/-- Both clauses: a flag kept, and the flag set by a `PREPARE` of the most channels. -/
theorem witness_PreparedIsSetByPrepareAloneAndKept :
    (∃ (i : Instr) (s t : State), exec i s = .next t ∧ s.status.prepared = true) ∧
    (∃ (i : Instr) (s t : State), exec i s = .next t ∧ s.status.prepared = false ∧ t.status.prepared = true) :=
  ⟨⟨.reset, ready, _, rfl, rfl⟩, ⟨.prepare 2 1#32, State.reset, _, rfl, rfl, rfl⟩⟩

/-- A command that is none of the four, and one that changes the coefficients. -/
theorem witness_ConfigurationIsWrittenOnlyByItsCommands :
    (∃ (i : Instr) (s t : State), exec i s = .next t ∧ (∀ n f, i ≠ .prepare n f) ∧ (∀ o, i ≠ .setord o) ∧
      (∀ m d, i ≠ .setpar m d) ∧ (∀ c, i ≠ .setcodec c)) ∧
    (∃ (i : Instr) (s t : State), exec i s = .next t ∧ t.coef ≠ s.coef) := by
  refine ⟨⟨.reset, ready, _, rfl, by simp, by simp, by simp, by simp⟩, ⟨.setord 2#32, ready, _, rfl, fun h => ?_⟩⟩
  have h7 := congrArg (fun v => vget v 7) h
  have hl : vget (State.designedCoef Config.lpc 48000#32 1 2) 7 = Coef.zero :=
    State.designedCoef_ge _ _ _ _ _ (by decide) (by decide)
  have hr : vget ready.coef 7 = td1 := rfl
  exact absurd (hl.symm.trans (h7.trans hr)) (by decide)

theorem witness_ProcessingBeforePrepareFaults : ∃ s : State, s.status.prepared = false := ⟨State.reset, rfl⟩

/-- The least channel beyond the count. -/
theorem witness_ChannelBeyondTheCountFaults :
    ∃ (s : State) (ch : Nat), s.status.prepared = true ∧ s.nch ≤ ch := ⟨ready, 2, rfl, le_refl 2⟩

/-- The least chain and the least section beyond, each alone. -/
theorem witness_SectionBeyondTheOrderFaults :
    ∃ (s : State) (ch : Nat), s.status.prepared = true ∧ ch < s.nch ∧
      (1 < 2 ∨ s.order / 2 ≤ 0) ∧ (1 < 1 ∨ s.order / 2 ≤ 4) ∧ 1 < 2 :=
  ⟨ready, 1, rfl, by decide, by decide, by decide, by decide⟩

/-- Each alternative of each clause, at its boundary. -/
theorem witness_UnusableConfigurationFaults :
    0#32 = 0#32 ∧ 2 < 3 ∧ (3#32).toNat % 2 = 1 ∧ (0#32).toNat < 2 ∧ 16 < (18#32).toNat ∧
    (0#16).toNat < 1 ∧ 8 < (9#16).toNat ∧ (0#16).toNat < 1 ∧ 4 < (5#16).toNat ∧
    ∃ s : State, s.status.prepared = true ∧ s.codec = .gsm ∧ 2 < s.nch :=
  ⟨by decide, by decide, by decide, by decide, by decide, by decide, by decide, by decide, by decide,
    { ready with codec := .gsm, nch := 3 }, rfl, rfl, by decide⟩

theorem witness_UnmappedAddressFaults :
    ∃ a : Nat, ∀ r : Reg, regExists r = true → regAddr r ≠ a := by
  refine ⟨0x08A0, fun r hr ha => ?_⟩
  have h := regAt_regAddr r hr
  rw [ha, show regAt 0x08A0 = none by decide] at h
  cases h

theorem witness_NopAndGetparOnlyAnswer : ∃ s : State, s.d < 2 ^ 16 := ⟨{ ready with d := 65535 }, by decide⟩

/-- The least and the greatest channel count, with the first and last section of each clause. -/
theorem witness_PrepareStoresAndRebuilds :
    (1#32 ≠ 0#32 ∧ 1 ≤ 1 ∧ 1 ≤ 2) ∧ (0xFFFFFFFF#32 ≠ 0#32 ∧ 1 ≤ 2 ∧ 2 ≤ 2) ∧
    (3 < State.reset.order / 2 ∧ 3 < 8) ∧ (State.reset.order / 2 ≤ 4 ∧ 4 < 8) := by
  refine ⟨by decide, by decide, ?_, ?_⟩ <;> show _ ∧ _ <;> exact ⟨by decide, by decide⟩

/-- The ends of both ranges, and each clause: an unchanged factor, an unprepared unit, a change on a prepared one. -/
theorem witness_SetparStoresAndRebuildsOnChange :
    (1 ≤ (1#16).toNat ∧ (1#16).toNat ≤ 8 ∧ 1 ≤ (1#16).toNat ∧ (1#16).toNat ≤ 4) ∧
    (1 ≤ (8#16).toNat ∧ (8#16).toNat ≤ 8 ∧ 1 ≤ (4#16).toNat ∧ (4#16).toNat ≤ 4) ∧
    (1#16).toNat = ready.d ∧ State.reset.status.prepared = false ∧
    ((8#16).toNat ≠ ready.d ∧ ready.status.prepared = true ∧ 3 < ready.order / 2 ∧ ready.order / 2 ≤ 4) :=
  ⟨by decide, by decide, rfl, rfl, by decide, rfl, by decide, by decide⟩

theorem witness_SetordStoresAndRebuildsOnChange :
    ((2#32).toNat % 2 = 0 ∧ 2 ≤ (2#32).toNat ∧ (2#32).toNat ≤ 16) ∧
    ((16#32).toNat % 2 = 0 ∧ 2 ≤ (16#32).toNat ∧ (16#32).toNat ≤ 16) ∧
    (8#32).toNat = ready.order ∧ State.reset.status.prepared = false ∧
    ((16#32).toNat ≠ ready.order ∧ ready.status.prepared = true ∧ 7 < (16#32).toNat / 2) ∧
    ((2#32).toNat ≠ ready.order ∧ (2#32).toNat / 2 ≤ 1 ∧ 7 < 8) :=
  ⟨by decide, by decide, rfl, rfl, ⟨by decide, rfl, by decide⟩, by decide, by decide, by decide⟩

/-- The same selection by an unknown id, another by the greatest id, and both states of `PREPARED`. -/
theorem witness_SetcodecKeepsOrReplacesTheModule :
    (let id := 5#32; (if 1 ≤ id.toNat ∧ id.toNat ≤ 4 then id.toNat else 0) = codecNum ready.codec) ∧
    (let id := 4#32; (if 1 ≤ id.toNat ∧ id.toNat ≤ 4 then id.toNat else 0) ≠ codecNum ready.codec) ∧
    ready.status.prepared = true ∧ State.reset.status.prepared = false :=
  ⟨rfl, by decide, rfl, rfl⟩

/-- The greatest indices of the indexed rows. -/
theorem witness_RdregAnswersTheMappedWord : 1 < 2 ∧ 7 < 8 ∧ 32 < 33 ∧ 2 < 3 ∧ 159 < 160 := by decide

theorem witness_RegisterMapIsOneToOne :
    regExists (.buf 2 159) = true ∧ regAt 0x0A9F = some (.buf 2 159) := by decide

/-- The greatest finite values, and the least subnormal; an exact zero product. -/
theorem witness_FmulRoundsToNearestEven :
    isFinite 0x7F7FFFFF#32 = true ∧ isFinite 0xFF7FFFFF#32 = true ∧ isFinite 0x00000001#32 = true ∧
    isFinite 0x80000000#32 = true ∧ valQ 0x80000000#32 * valQ 0x7F7FFFFF#32 = 0 := by
  have h : unpack 0x80000000#32 = .fin true 0 (-149) := by decide
  refine ⟨by decide, by decide, by decide, by decide, ?_⟩
  simp [valQ, h]

/-- The greatest finite value and a subnormal; an exact zero sum and difference, of zeros and of opposite values. -/
theorem witness_FaddAndFsubRoundToNearestEven :
    isFinite 0x7F7FFFFF#32 = true ∧ isFinite 0x80000001#32 = true ∧ isFinite 0x80000000#32 = true ∧
    valQ 0x80000000#32 + valQ 0x80000000#32 = 0 ∧ valQ 0x80000000#32 - valQ 0x80000000#32 = 0 ∧
    valQ 0x3F800000#32 + valQ 0xBF800000#32 = 0 := by
  have h : unpack 0x80000000#32 = .fin true 0 (-149) := by decide
  have h1 : unpack 0x3F800000#32 = .fin false 8388608 (-23) := by decide
  have h2 : unpack 0xBF800000#32 = .fin true 8388608 (-23) := by decide
  refine ⟨by decide, by decide, by decide, ?_, ?_, ?_⟩
  · simp [valQ, h]
  · simp
  · simp [valQ, h1, h2]

/-- V5's zeros: `fsub(-0.0, +0.0) = -0.0`, `fadd(-0.0, +0.0) = +0.0`. -/
theorem test_zero_signs :
    fsub 0#32 0x80000000#32 0#32 = 0x80000000#32 ∧ fadd 0#32 0x80000000#32 0#32 = 0#32 ∧
      fsub 0#32 0x80000000#32 0x80000000#32 = 0#32 := by decide

/-- An infinity with a finite value, and two infinities, where no NaN results. -/
theorem witness_NanResultsAreExactlyTheIeeeOnes_infinity :
    (isFinite 0xFF800000#32 = false ∧ isNaN 0xFF800000#32 = false) ∧
    isNaN (fmul 0#32 0xFF800000#32 0x00000001#32) = false ∧ isNaN (fadd 0#32 0x7F7FFFFF#32 0xFF800000#32) = false ∧
    isNaN (fsub 0#32 0x7F800000#32 0xFF800000#32) = false ∧
    isNaN (fsub 0#32 0xFF800000#32 0xFF800000#32) = true := by decide

/-- Each disjunct of the NaN clauses is met: `0 * inf`, `inf - inf`. -/
theorem witness_NanResultsAreExactlyTheIeeeOnes :
    isNaN (fmul 0#32 0x7F800000#32 0x80000000#32) = true ∧ isNaN (fmul 0#32 0#32 0xFF800000#32) = true ∧
    isNaN (fmul 0#32 0x7F800001#32 0#32) = true ∧ isNaN (fadd 0#32 0x7F800000#32 0xFF800000#32) = true ∧
    isNaN (fadd 0#32 0x7F800000#32 0x7F800000#32) = false := by decide

/-- The greatest subnormal meets the first clause, the least normal the second. -/
theorem witness_SnapZeroesExactlyTheSubnormals :
    (isFinite 0x807FFFFF#32 = true ∧ valQ 0x807FFFFF#32 ≠ 0 ∧ |valQ 0x807FFFFF#32| < (2 : ℚ) ^ (-126 : ℤ)) ∧
    ¬ (isFinite 0x00800000#32 = true ∧ valQ 0x00800000#32 ≠ 0 ∧ |valQ 0x00800000#32| < (2 : ℚ) ^ (-126 : ℤ)) := by
  have h1 : unpack 0x807FFFFF#32 = .fin true 8388607 (-149) := by decide
  have h2 : unpack 0x00800000#32 = .fin false 8388608 (-149) := by decide
  refine ⟨⟨by decide, ?_, ?_⟩, fun h => ?_⟩
  · norm_num [valQ, h1]
  · norm_num [valQ, h1, abs_of_neg]
  · have := h.2.2
    norm_num [valQ, h2] at this

/-- The last chain, channel and section. -/
theorem witness_ApplyRunsOneSection :
    ready.status.prepared = true ∧ ready.nch ≤ 2 ∧ ready.order ≤ 16 ∧ 1 ≤ 1 ∧ 1 < ready.nch ∧ 3 < ready.order / 2 :=
  ⟨rfl, by decide, by decide, by decide, by decide, by decide⟩

/-- Two states that differ in the other channel's delay line. -/
theorem witness_ApplyDependsOnItsSectionAlone :
    ∃ s s' t t' : State, s ≠ s' ∧ s.nch ≤ 2 ∧ s.order ≤ 16 ∧ s'.nch ≤ 2 ∧ s'.order ≤ 16 ∧ 1 < s.nch ∧
      3 < s.order / 2 ∧ 1 < s'.nch ∧ 3 < s'.order / 2 ∧ s.status.prepared = true ∧ s'.status.prepared = true ∧
      s.coefAt 3 = s'.coefAt 3 ∧ s.zAt 1 1 3 = s'.zAt 1 1 3 ∧ s.freeIdx = s'.freeIdx ∧
      exec (.apply 1 1 3 0x3F800000#32) s = .next t ∧ exec (.apply 1 1 3 0x3F800000#32) s' = .next t' :=
  ⟨ready, ready.setZ 0 0 0 ⟨0x3F800000#32, 0#32⟩, _, _,
    fun h => absurd (congrArg (fun s => s.zAt 0 0 0) h) (by decide),
    by decide, by decide, by decide, by decide, by decide, by decide, by decide, by decide, rfl, rfl, rfl, by decide, rfl,
    rfl, rfl⟩

theorem witness_CascadeRunsTheSectionsInOrder :
    ready.status.prepared = true ∧ ready.nch ≤ 2 ∧ ready.order ≤ 16 ∧ 1 ≤ 1 ∧ 1 < ready.nch ∧ 3 < ready.order / 2 :=
  ⟨rfl, by decide, by decide, by decide, by decide, by decide⟩

theorem witness_CascadeOfOneSectionIsApply : ∃ s : State, s.status.prepared = true ∧ s.order / 2 = 1 :=
  ⟨{ ready with order := 2 }, rfl, by decide⟩

theorem witness_FirstSampleAfterAClearIsNoNaN :
    ∃ t : State, ready.status.prepared = true ∧ ready.nch ≤ 2 ∧ ready.order ≤ 16 ∧ 1 < ready.nch ∧
      3 < ready.order / 2 ∧ ready.zAt 1 1 3 = ⟨0#32, 0#32⟩ ∧ (ready.coefAt 3).isFinite = true ∧
      isFinite 0x7F7FFFFF#32 = true ∧ exec (.apply 1 1 3 0x7F7FFFFF#32) ready = .next t :=
  ⟨_, rfl, by decide, by decide, by decide, by decide, by decide, by decide, by decide, rfl⟩

/-- A latch instant and a held one. -/
theorem witness_DecimHoldsAndFilters :
    ready.status.prepared = true ∧ ready.nch ≤ 2 ∧ ready.order ≤ 16 ∧ 1 < ready.nch ∧ ready.cntAt 1 = 0#4 ∧
      (ready.setCnt 1 7#4).cntAt 1 ≠ 0#4 :=
  ⟨rfl, by decide, by decide, by decide, by decide, by decide⟩

theorem witness_DecimWithFactorOneIsADoubleFilter :
    ready.status.prepared = true ∧ ready.nch ≤ 2 ∧ 1 < ready.nch ∧ ready.d = 1 ∧ ready.cntAt 1 = 0#4 :=
  ⟨rfl, by decide, by decide, rfl, by decide⟩

theorem witness_WrxStoresAndRdyAnswers :
    ready.status.prepared = true ∧ ready.nch ≤ 2 ∧ 1 < ready.nch := ⟨rfl, by decide, by decide⟩

/-- A NaN, an infinity and a finite value. -/
theorem witness_SampleConversionSaturates :
    isNaN 0x7F800001#32 = true ∧ (isNaN 0xFF800000#32 = false ∧ isFinite 0xFF800000#32 = false) ∧
      isFinite 0x7F7FFFFF#32 = true := by decide

/-- One active channel: channel 0 is active, channel 1 is not. -/
theorem witness_StepWithNoModulePassesThrough :
    ∃ s : State, s.status.prepared = true ∧ s.codec = .none ∧ s.nch ≤ 2 ∧ 0 < s.nch ∧ s.nch ≤ 1 :=
  ⟨{ ready with nch := 1 }, rfl, rfl, by decide, by decide, by decide⟩

/-- Both companders, one active channel. -/
theorem witness_StepWithACompanderRoundTripsTheLatchedSample :
    ∃ s u : State, (s.status.prepared = true ∧ (s.codec = .mulaw ∨ s.codec = .alaw) ∧ s.nch ≤ 2 ∧ s.order ≤ 16) ∧
      (u.status.prepared = true ∧ (u.codec = .mulaw ∨ u.codec = .alaw) ∧ u.nch ≤ 2 ∧ u.order ≤ 16) ∧
      s.codec ≠ u.codec ∧ 0 < s.nch ∧ s.nch ≤ 1 :=
  ⟨{ ready with codec := .mulaw, nch := 1 }, { ready with codec := .alaw },
    ⟨rfl, .inl rfl, by decide, by decide⟩, ⟨rfl, .inr rfl, by decide, by decide⟩, by decide, by decide, by decide⟩

theorem witness_StepWithVoxRoundTripsTheLatchedSample :
    ∃ s : State, s.status.prepared = true ∧ s.codec = .vox ∧ s.nch ≤ 2 ∧ s.order ≤ 16 ∧ 0 < s.nch ∧ s.nch ≤ 1 :=
  ⟨{ ready with codec := .vox, nch := 1 }, rfl, rfl, by decide, by decide, by decide, by decide⟩

/-- One channel and two. -/
theorem witness_StepWithGsmRunsTheMonoPath :
    ∃ s u : State, (s.status.prepared = true ∧ s.codec = .gsm ∧ 1 ≤ s.nch ∧ s.nch ≤ 2 ∧ s.order ≤ 16) ∧
      (u.status.prepared = true ∧ u.codec = .gsm ∧ 1 ≤ u.nch ∧ u.nch ≤ 2 ∧ u.order ≤ 16) ∧ s.nch = 1 ∧ u.nch ≠ 1 :=
  ⟨{ ready with codec := .gsm, nch := 1 }, { ready with codec := .gsm },
    ⟨rfl, rfl, by decide, by decide, by decide⟩, ⟨rfl, rfl, by decide, by decide, by decide⟩, rfl, by decide⟩

/-- A configuration without `LOWCUT` and one with it. -/
theorem witness_LowCutIsAbsentOrOneSection :
    (testConfig tdi).lowcut = none ∧ ({ testConfig tdi with lowcut := some td1 } : Config).lowcut = some td1 :=
  ⟨rfl, rfl⟩

/-- The index is within the table, whatever the configuration. -/
theorem witness_VoxdecReconstructs :
    ready.status.prepared = true ∧ ready.nch ≤ 2 ∧ 1 < ready.nch ∧
      (ready.voxAt 1 1).idx < (Config.lpc.vox.step0 :: Config.lpc.vox.steps).length :=
  ⟨rfl, by decide, by decide, Nat.succ_pos _⟩

/-- The index is within the table, whatever the configuration. -/
theorem witness_VoxencQuantizesAndTracks :
    ready.status.prepared = true ∧ ready.nch ≤ 2 ∧ 1 < ready.nch ∧
      (ready.voxAt 0 1).idx < (Config.lpc.vox.step0 :: Config.lpc.vox.steps).length :=
  ⟨rfl, by decide, by decide, Nat.succ_pos _⟩

theorem witness_VoxDecoderTracksTheEncoder :
    ∃ t u : State, ready.status.prepared = true ∧ ready.nch ≤ 2 ∧ 1 < ready.nch ∧
      ready.voxAt 0 1 = ready.voxAt 1 1 ∧ exec (.voxenc 1 1000#16) ready = .next t ∧
      exec (.voxdec 1 (t.rdata.extractLsb' 0 4)) t = .next u :=
  ⟨_, _, rfl, by decide, by decide, by decide, rfl, rfl⟩

/-- A magnitude some boundary admits, in each law. -/
theorem witness_UlencPacksSignSegmentMantissa : ∃ i, 32767 < ulawDefault.bound i := ⟨7, by decide⟩
theorem witness_AlencPacksSignSegmentMantissa : ∃ i, 4095 ≤ alawDefault.sega i := ⟨7, by decide⟩

theorem witness_SegmentIsMonotonicInMagnitude :
    (255 ≤ 256 ∧ ∃ i, 256 < ulawDefault.bound i) ∧ (31 ≤ 32 ∧ ∃ i, 32 ≤ alawDefault.sega i) :=
  ⟨⟨by decide, 1, by decide⟩, by decide, 1, by decide⟩

/-- The last push that does not fill the buffer, and the one that does. -/
theorem witness_GsmpushBeforeTheFrameIsFull : ∃ s : State, s.gidx.val < 159 := ⟨{ ready with gidx := 158 }, by decide⟩
theorem witness_GsmpushOfTheLastSampleRoundTrips : ∃ s : State, s.gidx.val = 159 := ⟨{ ready with gidx := 159 }, rfl⟩

/-- The run of the pushes of 1, from a state with an empty input buffer. -/
def pushes : Nat → State
  | 0 => ready
  | n + 1 => after (exec (.gsmpush 1#13) (pushes n))

theorem witness_GsmFrameTakesExactly160Pushes :
    ready.gidx = 0 ∧ ready.role.rin ≠ ready.role.rout ∧ pushes 0 = ready ∧
      ∀ n, exec (.gsmpush 1#13) (pushes n) = .next (pushes (n + 1)) :=
  ⟨rfl, by decide, rfl, fun _ => rfl⟩

theorem witness_ModeHasNoEffectOnProcessing :
    ∃ (i : Instr) (s t : State), i ≠ .getpar ∧ (∀ mode d, i ≠ .setpar mode d) ∧ (∀ a, i ≠ .rdreg a) ∧
      exec i s = .next t :=
  ⟨.step, ready, _, by simp, by simp, by simp, rfl⟩

/-- A prepared unit that meets the invariants, with a command that changes what they speak of. -/
theorem witness_EveryStepKeepsTheInvariants :
    ∃ s t : State, Inv Config.lpc s ∧ s.status.prepared = true ∧ step s = .next t := by
  let s : State :=
    { ready with
      stream := [⟨0x1A000000#32, 0#32⟩], codec := .vox, coef := State.designedCoef Config.lpc 48000#32 1 8 }
  have hv : ∀ d ch, s.voxAt d ch = ⟨0, 0⟩ := fun d ch => State.zeroVox_at d ch
  have hz : ∀ c ch k, s.zAt c ch k = ⟨0#32, 0#32⟩ := fun c ch k => State.zeroDelays_at c ch k
  have hc : ∀ ch, s.cntAt ch = 0#4 := fun ch => vget_replicate 0#4 ch rfl
  refine ⟨s, _, ⟨by decide, by decide, ⟨le_refl 2, fun _ => ⟨by decide, by decide⟩⟩, fun _ => rfl, ?_, by decide, ?_,
    by decide, ?_, rfl⟩, rfl, rfl⟩
  · intro d ch; rw [hv]; exact ⟨by decide, by decide, nstep_pos _⟩
  · intro c ch k; rw [hz]; decide
  · intro ch; rw [hc]; decide

end Sys2Proof.Tests
end

/-! SUPPORT and PROOFS. `fmul`, `fadd` and `fsub` row by row: what each gives on NaNs, infinities and finite values, and
from that the obligations O27, O28 and O29 (00_scope.md R11). `fsub` is `fadd` of the second operand's sign flipped, so
every fact about it is one about `fadd`; the second operand's rows are the first's by commutativity. -/

namespace Sys2Proof.Machine

/-! ## The three kinds of encoding -/

/-- The encoding is an infinity's. -/
def IsInf (w : Word) : Prop := isFinite w = false ∧ isNaN w = false

theorem nan_or_inf_or_finite (w : Word) : isNaN w = true ∨ IsInf w ∨ isFinite w = true := by
  unfold IsInf
  cases isNaN w <;> cases isFinite w <;> decide

theorem isNaN_of_isFinite {w : Word} (h : isFinite w = true) : isNaN w = false := by
  rw [isFinite_iff] at h
  rw [← Bool.not_eq_true, isNaN_iff]
  omega

theorem unpack_of_isNaN {w : Word} (h : isNaN w = true) : unpack w = .nan := by
  rcases unpack_cases w with ⟨hu, -, -⟩ | ⟨-, hn, -⟩ | ⟨m, e, -, hn, -⟩
  · exact hu
  · exact absurd h (by simp [hn])
  · exact absurd h (by simp [hn])

theorem unpack_of_isInf {w : Word} (h : IsInf w) : unpack w = .inf w.msb := by
  obtain ⟨hfin, hnan⟩ := h
  rcases unpack_cases w with ⟨-, hn, -⟩ | ⟨hu, -, -⟩ | ⟨m, e, -, -, hf⟩
  · exact absurd hn (by simp [hnan])
  · exact hu
  · exact absurd hf (by simp [hfin])

theorem signed_of_isInf {w : Word} (h : IsInf w) : signed w.msb infBits = w :=
  (eq_signed_of_inf (unpack_of_isInf h)).1.symm

theorem isInf_fneg (w : Word) : IsInf (fneg w) ↔ IsInf w := by
  simp only [IsInf, isFinite_fneg, isNaN_fneg]

/-! ## The pick of a NaN -/

@[simp] theorem pick_some (free w : Word) : pick free (some w) = w := rfl

@[simp] theorem isNaN_pick_none (free : Word) : isNaN (pick free none) = true := toNaN_isNaN free

/-! ## Products -/

theorem fmulR_comm (a b : Word) : fmulR a b = fmulR b a := by
  unfold fmulR
  cases unpack a <;> cases unpack b <;> simp [bne_comm, Nat.mul_comm, Int.add_comm]

theorem fmul_comm (free a b : Word) : fmul free a b = fmul free b a := by rw [fmul, fmulR_comm, fmul]

theorem isNaN_fmul_of_nan (free : Word) {a : Word} (h : isNaN a = true) (b : Word) :
    isNaN (fmul free a b) = true := by
  simp [fmul, fmulR, unpack_of_isNaN h]

theorem fmul_inf_inf (free : Word) {a b : Word} (ha : IsInf a) (hb : IsInf b) :
    fmul free a b = signed (a.msb != b.msb) infBits := by
  simp [fmul, fmulR, unpack_of_isInf ha, unpack_of_isInf hb]

theorem isNaN_fmul_inf_zero (free : Word) {a b : Word} (ha : IsInf a) (hb : isFinite b = true) (h0 : valQ b = 0) :
    isNaN (fmul free a b) = true := by
  obtain ⟨n, f, hu, -⟩ := unpack_finite hb
  simp [fmul, fmulR, unpack_of_isInf ha, hu, (valQ_eq_zero_iff hu).mp h0]

theorem fmul_inf_nonzero (free : Word) {a b : Word} (ha : IsInf a) (hb : isFinite b = true) (h0 : valQ b ≠ 0) :
    fmul free a b = signed (a.msb != b.msb) infBits := by
  obtain ⟨n, f, hu, -⟩ := unpack_finite hb
  simp [fmul, fmulR, unpack_of_isInf ha, hu, mt (valQ_eq_zero_iff hu).mpr h0]

/-- A product of finite values is one rounding of the exact product, with the sign of the two signs. -/
theorem fmul_finite (free : Word) {a b : Word} (ha : isFinite a = true) (hb : isFinite b = true) :
    ∃ (m : Nat) (e : Int), valQ a * valQ b = signQ (a.msb != b.msb) * ((m : ℚ) * (2 : ℚ) ^ e) ∧
      fmul free a b = round32 (a.msb != b.msb) m e := by
  obtain ⟨m, e, hua, -⟩ := unpack_finite ha
  obtain ⟨n, f, hub, -⟩ := unpack_finite hb
  refine ⟨m * n, e + f, ?_, by simp [fmul, fmulR, hua, hub]⟩
  rw [valQ_of_unpack hua, valQ_of_unpack hub, signQ_xor, zpow_add₀ (by norm_num)]
  push_cast
  ring

/-- R11: the products that IEEE 754 leaves a NaN. -/
def NaNProduct (a b : Word) : Prop :=
  isNaN a = true ∨ isNaN b = true ∨ (IsInf a ∧ isFinite b = true ∧ valQ b = 0) ∨
    (IsInf b ∧ isFinite a = true ∧ valQ a = 0)

theorem nanProduct_comm (a b : Word) : NaNProduct a b ↔ NaNProduct b a := by
  unfold NaNProduct
  tauto

theorem nanProduct_of_inf {a b : Word} (ha : IsInf a) :
    NaNProduct a b ↔ isNaN b = true ∨ (isFinite b = true ∧ valQ b = 0) := by
  simp [NaNProduct, ha, ha.1, ha.2]

/-- A product with an infinity on the left is a NaN, or the infinity of the two signs. -/
theorem fmul_of_inf (free : Word) {a : Word} (ha : IsInf a) (b : Word) :
    (NaNProduct a b ∧ isNaN (fmul free a b) = true) ∨
      (¬NaNProduct a b ∧ fmul free a b = signed (a.msb != b.msb) infBits) := by
  rw [nanProduct_of_inf ha]
  rcases nan_or_inf_or_finite b with hn | hi | hf
  · exact .inl ⟨.inl hn, fmul_comm free b a ▸ isNaN_fmul_of_nan free hn a⟩
  · exact .inr ⟨by simp [hi.1, hi.2], fmul_inf_inf free ha hi⟩
  · by_cases h0 : valQ b = 0
    · exact .inl ⟨.inr ⟨hf, h0⟩, isNaN_fmul_inf_zero free ha hf h0⟩
    · exact .inr ⟨by simp [isNaN_of_isFinite hf, h0], fmul_inf_nonzero free ha hf h0⟩

theorem fmul_of_inf_either (free : Word) {a b : Word} (h : IsInf a ∨ IsInf b) :
    (NaNProduct a b ∧ isNaN (fmul free a b) = true) ∨
      (¬NaNProduct a b ∧ fmul free a b = signed (a.msb != b.msb) infBits) := by
  rcases h with ha | hb
  · exact fmul_of_inf free ha b
  · rw [nanProduct_comm, fmul_comm, bne_comm]
    exact fmul_of_inf free hb a

theorem isNaN_fmul_iff_of_inf_either (free : Word) {a b : Word} (h : IsInf a ∨ IsInf b) :
    isNaN (fmul free a b) = true ↔ NaNProduct a b := by
  rcases fmul_of_inf_either free h with ⟨hn, hw⟩ | ⟨hn, hw⟩
  · exact iff_of_true hw hn
  · exact iff_of_false (by simp [hw, signed_inf_not_nan]) hn

/-- R11: `fmul` is a NaN exactly where IEEE 754 has one. -/
theorem isNaN_fmul_iff (free a b : Word) : isNaN (fmul free a b) = true ↔ NaNProduct a b := by
  rcases nan_or_inf_or_finite a with ha | ha | ha
  · exact iff_of_true (isNaN_fmul_of_nan free ha b) (.inl ha)
  · exact isNaN_fmul_iff_of_inf_either free (.inl ha)
  rcases nan_or_inf_or_finite b with hb | hb | hb
  · exact iff_of_true (fmul_comm free b a ▸ isNaN_fmul_of_nan free hb a) (.inr (.inl hb))
  · exact isNaN_fmul_iff_of_inf_either free (.inr hb)
  · obtain ⟨m, e, -, hw⟩ := fmul_finite free ha hb
    exact iff_of_false (by simp [hw, round32_not_nan])
      (by simp [NaNProduct, IsInf, ha, hb, isNaN_of_isFinite ha, isNaN_of_isFinite hb])

/-! ## Sums -/

theorem faddR_comm (a b : Word) : faddR a b = faddR b a := by
  unfold faddR
  cases unpack a with
  | nan => cases unpack b <;> rfl
  | inf s =>
    cases unpack b with
    | nan => rfl
    | inf t => cases s <;> cases t <;> rfl
    | fin t n f => rfl
  | fin s m e =>
    cases unpack b with
    | nan => rfl
    | inf t => rfl
    | fin t n f =>
      simp only [min_comm f e, Bool.and_comm t s, Int.add_comm (alignedInt t n f _)]

theorem fadd_comm (free a b : Word) : fadd free a b = fadd free b a := by rw [fadd, faddR_comm, fadd]

theorem isNaN_fadd_of_nan (free : Word) {a : Word} (h : isNaN a = true) (b : Word) :
    isNaN (fadd free a b) = true := by
  simp [fadd, faddR, unpack_of_isNaN h]

theorem isNaN_fadd_inf_of_msb_ne (free : Word) {a b : Word} (ha : IsInf a) (hb : IsInf b) (h : a.msb ≠ b.msb) :
    isNaN (fadd free a b) = true := by
  simp [fadd, faddR, unpack_of_isInf ha, unpack_of_isInf hb, h]

theorem fadd_inf_of_msb_eq (free : Word) {a b : Word} (ha : IsInf a) (hb : IsInf b) (h : a.msb = b.msb) :
    fadd free a b = a := by
  simp [fadd, faddR, unpack_of_isInf ha, unpack_of_isInf hb, ← h, signed_of_isInf ha]

theorem fadd_inf_finite (free : Word) {a b : Word} (ha : IsInf a) (hb : isFinite b = true) : fadd free a b = a := by
  obtain ⟨n, f, hu, -⟩ := unpack_finite hb
  simp [fadd, faddR, unpack_of_isInf ha, hu, signed_of_isInf ha]

/-- A summand on a grid no coarser than its own is itself. -/
theorem alignedInt_value (neg : Bool) (m : Nat) {e low : Int} (h : low ≤ e) :
    (alignedInt neg m e low : ℚ) * (2 : ℚ) ^ low = signQ neg * ((m : ℚ) * (2 : ℚ) ^ e) := by
  obtain ⟨k, rfl⟩ := Int.le.dest h
  rw [zpow_add₀ (by norm_num), zpow_natCast]
  cases neg <;> simp [alignedInt, signQ] <;> ring

/-- A sum of finite values: the exact sum `v * 2^low`, and one rounding of it unless it is zero. -/
theorem fadd_finite (free : Word) {a b : Word} (ha : isFinite a = true) (hb : isFinite b = true) :
    ∃ v low : Int, valQ a + valQ b = (v : ℚ) * (2 : ℚ) ^ low ∧
      fadd free a b =
        if v = 0 then signed (a.msb && b.msb) 0 else round32 (decide (v < 0)) v.natAbs low := by
  obtain ⟨m, e, hua, -⟩ := unpack_finite ha
  obtain ⟨n, f, hub, -⟩ := unpack_finite hb
  refine ⟨alignedInt a.msb m e (min e f) + alignedInt b.msb n f (min e f), min e f, ?_, ?_⟩
  · rw [valQ_of_unpack hua, valQ_of_unpack hub, ← alignedInt_value a.msb m (min_le_left e f),
      ← alignedInt_value b.msb n (min_le_right e f)]
    push_cast
    ring
  · simp only [fadd, faddR, hua, hub]
    split <;> rfl

theorem signQ_mul_natAbs (v : Int) : signQ (decide (v < 0)) * (v.natAbs : ℚ) = v := by
  by_cases h : v < 0
  · simp [signQ, h, Nat.cast_natAbs, abs_of_neg h]
  · simp [signQ, h, Nat.cast_natAbs, abs_of_nonneg (not_lt.mp h)]

/-- R11: a sum of finite values is rounded to nearest even. -/
theorem fadd_isRounded (free : Word) {a b : Word} (ha : isFinite a = true) (hb : isFinite b = true) :
    IsRoundedTo (fadd free a b) (valQ a + valQ b) := by
  obtain ⟨v, low, hv, hw⟩ := fadd_finite free ha hb
  rw [hv, hw]
  split
  · next h0 =>
    rw [h0, Int.cast_zero, zero_mul]
    exact signed_zero_isRounded _
  · have := round32_rounds (decide (v < 0)) v.natAbs low
    rwa [← mul_assoc, signQ_mul_natAbs] at this

/-- An exact zero sum is `-0.0` only for two negative summands (log 19). -/
theorem fadd_zero_sum (free : Word) {a b : Word} (ha : isFinite a = true) (hb : isFinite b = true)
    (h : valQ a + valQ b = 0) : fadd free a b = signed (a.msb && b.msb) 0 := by
  obtain ⟨v, low, hv, hw⟩ := fadd_finite free ha hb
  have hpow : (2 : ℚ) ^ low ≠ 0 := by positivity
  have hv0 : v = 0 := by simpa [hpow] using hv.symm.trans h
  rw [hw, if_pos hv0]

theorem isNaN_fadd_finite (free : Word) {a b : Word} (ha : isFinite a = true) (hb : isFinite b = true) :
    isNaN (fadd free a b) = false := by
  obtain ⟨v, low, -, hw⟩ := fadd_finite free ha hb
  rw [hw]
  split
  · exact signed_zero_not_nan _
  · exact round32_not_nan _ _ _

/-- R11: the sums that IEEE 754 leaves a NaN. -/
def NaNSum (a b : Word) : Prop := isNaN a = true ∨ isNaN b = true ∨ (IsInf a ∧ IsInf b ∧ a.msb ≠ b.msb)

theorem nanSum_comm (a b : Word) : NaNSum a b ↔ NaNSum b a := by
  unfold NaNSum
  rw [ne_comm]
  tauto

theorem nanSum_of_inf {a b : Word} (ha : IsInf a) : NaNSum a b ↔ isNaN b = true ∨ (IsInf b ∧ a.msb ≠ b.msb) := by
  simp [NaNSum, ha, ha.2]

/-- A sum with an infinity on the left is a NaN, or that infinity. -/
theorem fadd_of_inf (free : Word) {a : Word} (ha : IsInf a) (b : Word) :
    (NaNSum a b ∧ isNaN (fadd free a b) = true) ∨ (¬NaNSum a b ∧ fadd free a b = a) := by
  rw [nanSum_of_inf ha]
  rcases nan_or_inf_or_finite b with hn | hi | hf
  · exact .inl ⟨.inl hn, fadd_comm free b a ▸ isNaN_fadd_of_nan free hn a⟩
  · by_cases h : a.msb = b.msb
    · exact .inr ⟨by simp [h, hi.2], fadd_inf_of_msb_eq free ha hi h⟩
    · exact .inl ⟨.inr ⟨hi, h⟩, isNaN_fadd_inf_of_msb_ne free ha hi h⟩
  · exact .inr ⟨by simp [isNaN_of_isFinite hf, IsInf, hf], fadd_inf_finite free ha hf⟩

theorem isNaN_fadd_iff_of_inf (free : Word) {a : Word} (ha : IsInf a) (b : Word) :
    isNaN (fadd free a b) = true ↔ NaNSum a b := by
  rcases fadd_of_inf free ha b with ⟨hn, hw⟩ | ⟨hn, hw⟩
  · exact iff_of_true hw hn
  · exact iff_of_false (by simp [hw, ha.2]) hn

/-- R11: `fadd` is a NaN exactly where IEEE 754 has one. -/
theorem isNaN_fadd_iff (free a b : Word) : isNaN (fadd free a b) = true ↔ NaNSum a b := by
  rcases nan_or_inf_or_finite a with ha | ha | ha
  · exact iff_of_true (isNaN_fadd_of_nan free ha b) (.inl ha)
  · exact isNaN_fadd_iff_of_inf free ha b
  rcases nan_or_inf_or_finite b with hb | hb | hb
  · exact iff_of_true (fadd_comm free b a ▸ isNaN_fadd_of_nan free hb a) (.inr (.inl hb))
  · rw [fadd_comm, nanSum_comm]
    exact isNaN_fadd_iff_of_inf free hb a
  · exact iff_of_false (by simp [isNaN_fadd_finite free ha hb])
      (by simp [NaNSum, IsInf, ha, isNaN_of_isFinite ha, isNaN_of_isFinite hb])

theorem fadd_inf_left {free a b : Word} (ha : IsInf a) (h : isNaN (fadd free a b) = false) : fadd free a b = a := by
  rcases fadd_of_inf free ha b with ⟨-, hn⟩ | ⟨-, hw⟩
  · exact absurd hn (by simp [h])
  · exact hw

theorem fadd_inf_right {free a b : Word} (hb : IsInf b) (h : isNaN (fadd free a b) = false) :
    fadd free a b = b := by
  rw [fadd_comm] at h ⊢
  exact fadd_inf_left hb h

/-! ## Differences -/

theorem fsub_eq_fadd_fneg (free a b : Word) : fsub free a b = fadd free a (fneg b) := rfl

theorem isNaN_fsub_iff (free a b : Word) :
    isNaN (fsub free a b) = true ↔ isNaN a = true ∨ isNaN b = true ∨ (IsInf a ∧ IsInf b ∧ a.msb = b.msb) := by
  simp [fsub_eq_fadd_fneg, isNaN_fadd_iff, NaNSum, isNaN_fneg, isInf_fneg, msb_fneg]

end Sys2Proof.Machine

namespace Sys2Proof

open Sys2Proof.Machine

/-- Settles O27: the model rounds the exact product once, and a zero's significand is 0. -/
theorem fmulRoundsToNearestEven : Obligations.FmulRoundsToNearestEven := by
  intro free a b ha hb
  obtain ⟨m, e, hv, hw⟩ := fmul_finite free ha hb
  rw [hv, hw]
  refine ⟨round32_rounds _ m e, fun h0 => ?_⟩
  have hm : m = 0 := by
    have hs : signQ (a.msb != b.msb) ≠ 0 := abs_ne_zero.mp (by simp [abs_signQ])
    have hp : (2 : ℚ) ^ e ≠ 0 := by positivity
    simpa [hs, hp] using h0
  rw [hm, round32_zero]
  cases a.msb <;> cases b.msb <;> decide

/-- Settles O28: the exact sum on the lower of the two grids is rounded once, and a difference is the sum with the second
sign flipped. -/
theorem faddAndFsubRoundToNearestEven : Obligations.FaddAndFsubRoundToNearestEven := by
  intro free a b ha hb
  have hnb : isFinite (fneg b) = true := by rw [isFinite_fneg, hb]
  have hsub : valQ a - valQ b = valQ a + valQ (fneg b) := by rw [valQ_fneg hb, sub_eq_add_neg]
  rw [hsub, fsub_eq_fadd_fneg]
  refine ⟨fadd_isRounded free ha hb, fadd_isRounded free ha hnb, fun h => ?_, fun h => ?_⟩
  · rw [fadd_zero_sum free ha hb h]
    cases a.msb && b.msb <;> decide
  · rw [fadd_zero_sum free ha hnb h, msb_fneg]
    cases a.msb && !b.msb <;> decide

/-- Settles O29: the rows of each operation on NaNs, infinities and finite values; a difference by the sum of the second
sign flipped, which is the word of O29's last clause by definition of `fneg`. -/
theorem nanResultsAreExactlyTheIeeeOnes : Obligations.NanResultsAreExactlyTheIeeeOnes := by
  intro free a b isInf
  refine ⟨isNaN_fmul_iff free a b, isNaN_fadd_iff free a b, isNaN_fsub_iff free a b, fun hinf hnan => ?_,
    fun h => ⟨fun ha => fadd_inf_left ha h, fun hb => fadd_inf_right hb h⟩,
    fun h => ⟨fun ha => fadd_inf_left ha h, fun hb => fadd_inf_right ((isInf_fneg b).mpr hb) h⟩⟩
  rcases fmul_of_inf_either free hinf with ⟨-, hn⟩ | ⟨-, hw⟩
  · exact absurd hn (by simp [hnan])
  · rw [hw]
    cases a.msb <;> cases b.msb <;> decide

end Sys2Proof

/-! SUPPORT and PROOFS. The state of 10_state.md: the reset values (O58, O59), what a step is (O6, O8), which command writes
which register (O12, O13), that `MODE` is read by no processing command (O57), and that every step keeps the invariants
(O60). A command is a check and a state (`exec_cases`), so each proof speaks of the check, of the fault and of `workOf`. -/

namespace Sys2Proof.Machine

/-! ## The checks of the configuration commands, when they pass (R225, R227, R228) -/

theorem prepareCheck_eq_none {nch : Nat} {fs : Word} (h : prepareCheck nch fs = none) :
    fs ≠ 0#32 ∧ 1 ≤ nch ∧ nch ≤ nchMax := by
  simp only [prepareCheck, ite_eq_right_iff, reduceCtorEq, imp_false, not_or] at h
  obtain ⟨hfs, hpos, hmax⟩ := h
  exact ⟨hfs, Nat.one_le_iff_ne_zero.mpr hpos, Nat.not_lt.mp hmax⟩

theorem setordCheck_eq_none {order : Word} (h : setordCheck order = none) :
    order.toNat % 2 = 0 ∧ 2 ≤ order.toNat ∧ order.toNat ≤ 2 * nsecMax := by
  simp only [setordCheck, ite_eq_right_iff, reduceCtorEq, imp_false] at h
  omega

theorem setparCheck_eq_none {mode d : BitVec 16} (h : setparCheck mode d = none) :
    1 ≤ d.toNat ∧ d.toNat ≤ 8 ∧ 1 ≤ mode.toNat ∧ mode.toNat ≤ 4 := by
  simp only [setparCheck, ite_eq_right_iff, reduceCtorEq, imp_false] at h
  omega

/-! ## What a rebuild on change and a codec selection leave alone (R119, R222) -/

theorem State.rebuildIf_frame (cfg : Config) (b : Bool) (s : State) :
    s.rebuildIf cfg b =
      { s with coef := (s.rebuildIf cfg b).coef, z := (s.rebuildIf cfg b).z, lcz := (s.rebuildIf cfg b).lcz } := by
  unfold State.rebuildIf
  split <;> rfl

theorem selectCodec_same (cfg : Config) (s : State) : selectCodec cfg s.codec s = s := if_pos rfl

theorem selectCodec_new (cfg : Config) {new : Codec} {s : State} (h : new ≠ s.codec) :
    selectCodec cfg new s = (({ s with codec := new } : State).resetState cfg).rebuildIf cfg true := if_neg h

theorem selectCodec_config (cfg : Config) (new : Codec) (s : State) :
    let t := selectCodec cfg new s
    t.fs = s.fs ∧ t.nch = s.nch ∧ t.order = s.order ∧ t.d = s.d ∧ t.mode = s.mode := by
  intro t
  by_cases h : new = s.codec
  · have ht : t = s := by subst h; exact selectCodec_same cfg s
    rw [ht]
    exact ⟨rfl, rfl, rfl, rfl, rfl⟩
  · have ht : t = _ := selectCodec_new cfg h
    rw [ht, State.rebuildIf_frame]
    exact ⟨rfl, rfl, rfl, rfl, rfl⟩

/-! ## `MODE` is read by no processing command (R27) -/

/-- `MODE` given another value. -/
def State.withMode (s : State) (m : Nat) : State := { s with mode := m }

section
variable (cfg : Config) (s : State) (m : Nat)

@[simp] theorem State.withMode_d : (s.withMode m).d = s.d := rfl
@[simp] theorem State.withMode_codec : (s.withMode m).codec = s.codec := rfl
@[simp] theorem State.withMode_freeIdx : (s.withMode m).freeIdx = s.freeIdx := rfl
@[simp] theorem State.cntAt_withMode (ch : Nat) : (s.withMode m).cntAt ch = s.cntAt ch := rfl
@[simp] theorem State.heldAt_withMode (ch : Nat) : (s.withMode m).heldAt ch = s.heldAt ch := rfl
@[simp] theorem State.xinAt_withMode (ch : Nat) : (s.withMode m).xinAt ch = s.xinAt ch := rfl

@[simp] theorem State.setCnt_withMode (ch : Nat) (v : BitVec 4) :
    (s.withMode m).setCnt ch v = (s.setCnt ch v).withMode m := rfl
@[simp] theorem State.setYout_withMode (ch : Nat) (v : Word) :
    (s.withMode m).setYout ch v = (s.setYout ch v).withMode m := rfl

theorem State.rebuildIf_withMode (b : Bool) :
    (s.withMode m).rebuildIf cfg b = (s.rebuildIf cfg b).withMode m :=
  (apply_ite (State.withMode · m) ((b && s.status.prepared) = true) (s.rebuild cfg) s).symm

theorem selectCodec_withMode (new : Codec) :
    selectCodec cfg new (s.withMode m) = (selectCodec cfg new s).withMode m := by
  by_cases h : new = s.codec
  · rw [h, selectCodec_same]
    exact selectCodec_same cfg (s.withMode m)
  · rw [selectCodec_new cfg h, selectCodec_new (s := s.withMode m) cfg h]
    exact State.rebuildIf_withMode cfg (({ s with codec := new } : State).resetState cfg) m true

theorem cascadeUpTo_withMode (c ch : Nat) (x : Word) (n : Nat) :
    cascadeUpTo cfg (s.withMode m) c ch x n =
      ((cascadeUpTo cfg s c ch x n).1, (cascadeUpTo cfg s c ch x n).2.withMode m) := by
  induction n with
  | zero => rfl
  | succ n ih =>
    rw [cascadeUpTo, ih]
    rfl

@[simp] theorem cascadeChain_withMode (c ch : Nat) (x : Word) :
    cascadeChain cfg (s.withMode m) c ch x =
      ((cascadeChain cfg s c ch x).1, (cascadeChain cfg s c ch x).2.withMode m) :=
  cascadeUpTo_withMode cfg s m c ch x s.nsec

theorem gsmPush_withMode (v : BitVec 13) :
    gsmPush cfg (s.withMode m) v = ((gsmPush cfg s v).1, (gsmPush cfg s v).2.withMode m) := by
  by_cases h : s.gidx.val + 1 < frameLen
  · have h' : (s.withMode m).gidx.val + 1 < frameLen := h
    simp only [gsmPush, dif_pos h, dif_pos h']
    rfl
  · have h' : ¬ (s.withMode m).gidx.val + 1 < frameLen := h
    simp only [gsmPush, dif_neg h, dif_neg h']
    rfl

theorem lowCut_withMode (u : Word) :
    lowCut cfg (s.withMode m) u = ((lowCut cfg s u).1, (lowCut cfg s u).2.withMode m) := by
  simp only [lowCut]
  split <;> rfl

end

/-- An insert that does not read `MODE` and leaves it. -/
def InsertModeBlind (ins : InsertFn) : Prop :=
  ∀ s u m, ins (s.withMode m) u = ((ins s u).1, (ins s u).2.withMode m)

theorem insertNone_modeBlind : InsertModeBlind insertNone := fun _ _ _ => rfl

theorem insertGsm_modeBlind (cfg : Config) : InsertModeBlind (insertGsm cfg) := fun s u m => by
  simp only [insertGsm, gsmPush_withMode]

section
variable (cfg : Config) (s : State) (m : Nat)

theorem holdAndFilter_withMode {ins : InsertFn} (hi : InsertModeBlind ins) (ch : Nat) (x : Word) :
    holdAndFilter cfg (s.withMode m) ch x ins =
      ((holdAndFilter cfg s ch x ins).1, (holdAndFilter cfg s ch x ins).2.withMode m) := by
  have hl : ∀ (t : State) u, latch (t.withMode m) ch u ins = (latch t ch u ins).withMode m := by
    intro t u
    simp only [latch, State.cntAt_withMode, hi t u m]
    split <;> rfl
  simp [holdAndFilter, hl]

theorem codecChannels_withMode {ins : Nat → InsertFn} (hi : ∀ ch, InsertModeBlind (ins ch)) (l : List Nat) :
    l.foldl (codecChannel cfg ins) (s.withMode m) = (l.foldl (codecChannel cfg ins) s).withMode m :=
  List.foldl_hom (State.withMode · m) fun t ch => by
    simp [codecChannel, holdAndFilter_withMode cfg t m (hi ch)]

theorem gsmPeriod_withMode : gsmPeriod cfg (s.withMode m) = (gsmPeriod cfg s).withMode m := by
  have hx : downmix cfg (s.withMode m) = downmix cfg s := rfl
  simp only [gsmPeriod, hx, lowCut_withMode, holdAndFilter_withMode cfg _ m (insertGsm_modeBlind cfg)]
  exact List.foldl_hom (State.withMode · m) fun _ _ => rfl

theorem samplePeriod_withMode : samplePeriod cfg (s.withMode m) = (samplePeriod cfg s).withMode m := by
  simp only [samplePeriod, State.withMode_codec]
  cases s.codec with
  | none => exact List.foldl_hom (State.withMode · m) fun _ _ => rfl
  | vox => exact codecChannels_withMode cfg s m (fun _ _ _ _ => rfl) _
  | mulaw => exact codecChannels_withMode cfg s m (fun _ _ _ _ => rfl) _
  | alaw => exact codecChannels_withMode cfg s m (fun _ _ _ _ => rfl) _
  | gsm => exact gsmPeriod_withMode cfg s m

theorem checkOf_withMode {i : Instr} (hr : ∀ a, i ≠ .rdreg a) :
    checkOf (s.withMode m) i = checkOf s i := by
  cases i with
  | rdreg a => exact absurd rfl (hr a)
  | _ => rfl

theorem workOf_withMode {i : Instr} (hg : i ≠ .getpar) (hp : ∀ mode d, i ≠ .setpar mode d) (hr : ∀ a, i ≠ .rdreg a) :
    workOf cfg (s.withMode m) i = ((workOf cfg s i).1.withMode m, (workOf cfg s i).2) := by
  cases i with
  | getpar => exact absurd rfl hg
  | setpar mode d => exact absurd rfl (hp mode d)
  | rdreg a => exact absurd rfl (hr a)
  | setord o => exact congrArg (·, resNone) (State.rebuildIf_withMode cfg { s with order := o.toNat } m _)
  | setcodec id => exact congrArg (·, resNone) (selectCodec_withMode cfg s m _)
  | cascade c ch x => simp only [workOf, cascadeChain_withMode]
  | decim ch x => simp only [workOf, holdAndFilter_withMode cfg s m insertNone_modeBlind]
  | step => exact congrArg (·, resNone) (samplePeriod_withMode cfg s m)
  | gsmpush v => simp only [workOf, gsmPush_withMode]
  | nop | prepare | reset | apply | wrx | rdy | voxenc | voxdec | ulenc | uldec | alenc | aldec => rfl

end

/-! ## The invariants (R39): what every command keeps -/

/-- The part of `Inv` that speaks of the configuration and of `STATUS`: R39 (a), (b), (d) and R23. -/
structure ConfigInv (s : State) : Prop where
  order : s.order % 2 = 0 ∧ 2 ≤ s.order ∧ s.order ≤ 2 * nsecMax
  params : 1 ≤ s.d ∧ s.d ≤ 8 ∧ 1 ≤ s.mode ∧ s.mode ≤ 4
  channels : s.nch ≤ nchMax ∧ (s.status.prepared = true → 1 ≤ s.nch ∧ s.fs ≠ 0#32)
  cause : if s.status.fault then ∃ c : Cause, s.status.cause = c.code else s.status.cause = 0#4

/-- R39 (e): the coefficients of a prepared unit are those of its configuration. -/
def CoefFresh (cfg : Config) (s : State) : Prop :=
  s.status.prepared = true → s.coef = State.designedCoef cfg s.fs s.d s.order

section
variable {cfg : Config} {s : State}

theorem inv_iff : Inv cfg s ↔ ConfigInv s ∧ CoefFresh cfg s ∧ DataInv cfg s :=
  ⟨fun h => ⟨⟨h.order_legal, h.params_legal, h.channels_legal, h.cause_legal⟩, h.coef_fresh, .of_inv h⟩,
    fun ⟨hc, hf, hd⟩ => ⟨hc.order, hc.params, hc.channels, hf, hd.vox, hd.role, hd.delays, hd.lcz, hd.cnt, hc.cause⟩⟩

theorem inv_of_keepsConfig {t : State} (h : Inv cfg s) (k : KeepsConfig s t) (hd : DataInv cfg t) : Inv cfg t := by
  obtain ⟨⟨ho, hp, hch, hca⟩, hf, -⟩ := inv_iff.mp h
  refine inv_iff.mpr ⟨⟨?_, ?_, ?_, ?_⟩, ?_, hd⟩
  · rwa [k.order]
  · rwa [k.d, k.mode]
  · rwa [k.nch, k.status, k.fs]
  · rwa [k.status]
  · unfold CoefFresh
    rwa [k.status, k.coef, k.fs, k.d, k.order]

theorem inv_advance (h : Inv cfg s) : Inv cfg s.advance := { h with }

theorem inv_answer (h : Inv cfg s) (w : Word) : Inv cfg (s.answer w) := { h with }

/-- The first fault's cause is recorded and stays (R252), so `CAUSE` is a cause's code once `FAULT` is set. -/
theorem raise_cause_legal {st : Status} (h : if st.fault then ∃ c : Cause, st.cause = c.code else st.cause = 0#4)
    (c : Cause) : ∃ c' : Cause, (st.raise c).cause = c'.code := by
  cases hf : st.fault with
  | false => exact ⟨c, by simp [Status.raise, hf]⟩
  | true =>
    obtain ⟨c', hc'⟩ : ∃ c' : Cause, st.cause = c'.code := by simpa [hf] using h
    exact ⟨c', by simp [Status.raise, hf, hc']⟩

theorem inv_raise (h : Inv cfg s) (c : Cause) : Inv cfg (s.raise cfg c) :=
  { h with cause_legal := raise_cause_legal h.cause_legal c }

/-- Power-on leaves the per-sample state as `ResetState` does (R40, R223). -/
theorem dataInv_resetWith (cfg : Config) : DataInv cfg (State.resetWith cfg) :=
  resetState_inv (s := State.resetWith cfg) (by decide : 1 ≤ 8)

/-! ### The configuration commands -/

/-- A rebuild makes the coefficients fresh, whatever they were (R118). -/
theorem inv_rebuild (hc : ConfigInv s) (hd : DataInv cfg s) : Inv cfg (s.rebuild cfg) :=
  inv_iff.mpr ⟨⟨hc.order, hc.params, hc.channels, hc.cause⟩, fun _ => rfl, hd.rebuild⟩

/-- A rebuild on change leaves the invariants if the coefficients were fresh where nothing changed (R119). -/
theorem inv_rebuildIf {changed : Bool} (hc : ConfigInv s) (hd : DataInv cfg s)
    (hf : changed = false → CoefFresh cfg s) : Inv cfg (s.rebuildIf cfg changed) := by
  cases changed with
  | false => exact inv_iff.mpr ⟨hc, hf rfl, hd⟩
  | true =>
    unfold State.rebuildIf
    split
    · exact inv_rebuild hc hd
    · next hp => exact inv_iff.mpr ⟨hc, fun h => absurd h hp, hd⟩

theorem inv_prepare (h : Inv cfg s) {nch : Nat} {fs : Word} (hk : prepareCheck nch fs = none) :
    Inv cfg (workOf cfg s (.prepare nch fs)).1 := by
  obtain ⟨hfs, hpos, hmax⟩ := prepareCheck_eq_none hk
  obtain ⟨hc, -, hd⟩ := inv_iff.mp h
  exact inv_rebuild { hc with channels := ⟨hmax, fun _ => ⟨hpos, hfs⟩⟩ } { hd with }

theorem inv_setord (h : Inv cfg s) {order : Word} (hk : setordCheck order = none) :
    Inv cfg (workOf cfg s (.setord order)).1 := by
  obtain ⟨hc, hf, hd⟩ := inv_iff.mp h
  refine inv_rebuildIf { hc with order := setordCheck_eq_none hk } { hd with } fun hsame hp => ?_
  have ho : order.toNat = s.order := by simpa using hsame
  simpa only [ho] using hf hp

theorem inv_setpar (h : Inv cfg s) {mode d : BitVec 16} (hk : setparCheck mode d = none) :
    Inv cfg (workOf cfg s (.setpar mode d)).1 := by
  obtain ⟨hc, hf, hd⟩ := inv_iff.mp h
  have hlegal := setparCheck_eq_none hk
  refine inv_rebuildIf { hc with params := hlegal } { hd with d_le := hlegal.2.1 } fun hsame hp => ?_
  have hd' : d.toNat = s.d := by simpa using hsame
  simpa only [hd'] using hf hp

theorem inv_selectCodec (h : Inv cfg s) (new : Codec) : Inv cfg (selectCodec cfg new s) := by
  obtain ⟨hc, -, hd⟩ := inv_iff.mp h
  by_cases hn : new = s.codec
  · rwa [hn, selectCodec_same]
  · rw [selectCodec_new cfg hn]
    exact inv_rebuildIf { hc with } (resetState_inv hd.d_le) nofun

/-! ### Every command, and every step -/

theorem dataInv_workOf (h : DataInv cfg s) {i : Instr} (hi : isConfig i = false) : DataInv cfg (workOf cfg s i).1 := by
  cases i with
  | prepare | setord | setpar | setcodec => cases hi
  | nop | getpar | rdreg | rdy | ulenc | uldec | alenc | aldec => exact h
  | reset => exact resetState_inv h.d_le
  | apply c ch k x => exact h.applySection c ch k x
  | cascade c ch x => exact h.cascadeChain c ch x
  | decim ch x => exact h.holdAndFilter ch x fun _ _ hs => hs
  | wrx ch x => exact h.setXin ch x
  | step => exact h.samplePeriod
  | voxenc ch v => exact h.voxEnc ch v
  | voxdec ch code => exact h.voxDec ch code
  | gsmpush v => exact h.gsmPush v

theorem inv_workOf (h : Inv cfg s) {i : Instr} (hk : checkOf s i = none) : Inv cfg (workOf cfg s i).1 := by
  cases hi : isConfig i with
  | false => exact inv_of_keepsConfig h (workOf_keeps cfg s i hi) (dataInv_workOf (.of_inv h) hi)
  | true =>
    cases i with
    | prepare nch fs => exact inv_prepare h hk
    | setord order => exact inv_setord h hk
    | setpar mode d => exact inv_setpar h hk
    | setcodec id => exact inv_selectCodec h _
    | _ => cases hi

end

end Sys2Proof.Machine

namespace Sys2Proof

open Sys2Proof.Machine

/-- Settles O60: with a command presented, a step is a fault or a command's work at the advanced index, and each keeps
the invariants. -/
theorem everyStepKeepsTheInvariants : Obligations.EveryStepKeepsTheInvariants := by
  intro s t h hstep
  rcases step_cases hstep with rfl | ⟨c, rfl⟩ | ⟨i, hk, rfl⟩
  · exact h
  · exact inv_raise (inv_advance h) c
  · exact inv_answer (inv_workOf (inv_advance h) hk) _

/-- Settles O12: a fault keeps `PREPARED`, and of the commands' work only that of a `PREPARE` past its check writes it. -/
theorem preparedIsSetByPrepareAloneAndKept : Obligations.PreparedIsSetByPrepareAloneAndKept := by
  intro i s t h
  rcases exec_cases h with ⟨c, -, rfl⟩ | ⟨hk, rfl⟩
  · exact ⟨id, fun hn hp => absurd (hn.symm.trans hp) Bool.false_ne_true⟩
  · rcases workOf_status Config.lpc s i with hs | ⟨⟨nch, fs, rfl⟩, hs⟩
    · rw [State.answer_status, hs]
      exact ⟨id, fun hn hp => absurd (hn.symm.trans hp) Bool.false_ne_true⟩
    · rw [State.answer_status, hs]
      exact ⟨fun _ => rfl, fun _ _ => ⟨nch, fs, rfl, prepareCheck_eq_none hk⟩⟩

/-- Settles O13: a fault, or a command that is no configuration command, writes none of these registers; each
configuration command writes its own and may rebuild. -/
theorem configurationIsWrittenOnlyByItsCommands : Obligations.ConfigurationIsWrittenOnlyByItsCommands := by
  intro i s t h
  rcases exec_cases h with ⟨c, -, rfl⟩ | ⟨-, rfl⟩
  · exact ⟨fun _ => ⟨rfl, rfl⟩, fun _ => rfl, fun _ => ⟨rfl, rfl⟩, fun _ => rfl, fun hne => absurd rfl hne⟩
  · cases hi : isConfig i with
    | false =>
      have k := workOf_keeps Config.lpc s i hi
      exact ⟨fun _ => ⟨k.fs, k.nch⟩, fun _ => k.order, fun _ => ⟨k.d, k.mode⟩, fun _ => k.codec,
        fun hne => absurd k.coef hne⟩
    | true =>
      cases i with
      | prepare n f =>
        exact ⟨fun hno => absurd rfl (hno n f), fun _ => rfl, fun _ => ⟨rfl, rfl⟩, fun _ => rfl,
          fun _ => .inl ⟨n, f, rfl⟩⟩
      | setord o =>
        simp only [workOf]
        rw [State.rebuildIf_frame]
        exact ⟨fun _ => ⟨rfl, rfl⟩, fun hno => absurd rfl (hno o), fun _ => ⟨rfl, rfl⟩, fun _ => rfl,
          fun _ => .inr (.inl ⟨o, rfl⟩)⟩
      | setpar mode d =>
        simp only [workOf]
        rw [State.rebuildIf_frame]
        exact ⟨fun _ => ⟨rfl, rfl⟩, fun _ => rfl, fun hno => absurd rfl (hno mode d), fun _ => rfl,
          fun _ => .inr (.inr (.inl ⟨mode, d, rfl⟩))⟩
      | setcodec id =>
        obtain ⟨hfs, hnch, horder, hd, hmode⟩ := selectCodec_config Config.lpc (codecOfId id) s
        exact ⟨fun _ => ⟨hfs, hnch⟩, fun _ => horder, fun _ => ⟨hd, hmode⟩, fun hno => absurd rfl (hno id),
          fun _ => .inr (.inr (.inr ⟨id, rfl⟩))⟩
      | _ => cases hi

/-- Settles O57: neither a check nor a command's work reads `MODE`, but for the three commands excluded. -/
theorem modeHasNoEffectOnProcessing : Obligations.ModeHasNoEffectOnProcessing := by
  intro i s t m hg hp hr h
  have hcheck : checkOf (s.withMode m) i = checkOf s i := checkOf_withMode s m hr
  show exec i (s.withMode m) = .next (t.withMode m)
  rw [exec_eq, hcheck, workOf_withMode Config.lpc s m hg hp hr]
  rcases exec_cases h with ⟨c, hc, rfl⟩ | ⟨hc, rfl⟩ <;> (rw [hc]; rfl)

/-- Settles O6, by what a step is at a command that decodes. -/
theorem stepRunsTheDecodedCommand : Obligations.StepRunsTheDecodedCommand :=
  fun _ _ _ hw hd => step_ok hw hd

/-- Settles O8, by what a step is with nothing at the index. -/
theorem stepWithNoCommandChangesNothing : Obligations.StepWithNoCommandChangesNothing :=
  fun _ h => step_none h

/-- Settles O58: the registers by definition, what `ResetState` clears by what it leaves, and `COEF`, `XIN`, `YOUT` as
cleared storage. -/
theorem powerOnResetValues : Obligations.PowerOnResetValues := by
  have hz := State.zAt_resetState State.reset Config.lpc
  have hcnt := State.cntAt_resetState State.reset Config.lpc
  have hheld := State.heldAt_resetState State.reset Config.lpc
  have hvox := State.voxAt_resetState State.reset Config.lpc
  have hbuf := State.bufAt_resetState State.reset Config.lpc
  have hframe := State.frameAt_resetState State.reset Config.lpc
  exact ⟨rfl, rfl, rfl, rfl, rfl, rfl, rfl, fun k => vget_replicate Coef.zero k rfl, hz, rfl,
    fun ch => ⟨hcnt ch, hheld ch, vget_replicate 0#32 ch rfl, vget_replicate 0#32 ch rfl⟩, hvox, hbuf, rfl, rfl,
    hframe, rfl⟩

/-- Settles O59: the configuration is legal and not prepared, and the per-sample state is a cleared one. -/
theorem invariantsHoldAtReset : Obligations.InvariantsHoldAtReset :=
  inv_iff.mpr ⟨⟨by decide, by decide, ⟨by decide, nofun⟩, rfl⟩, nofun,
    dataInv_resetWith Config.lpc⟩

end Sys2Proof

/-! SUPPORT and PROOFS. The register space of 20_memory.md: the map is one to one (O26), `RDREG` answers the register
mapped at its address (O25) and faults where none is (O18). The laws of the map (`regAt_addr`, `memRead_regAddr`) speak
of a `Reg`; here each row is said with its address and its value written out, as R62 has it. -/

namespace Sys2Proof.Machine

/-! ## The addresses (R61, R62) -/

theorem regAddr_lt (r : Reg) (h : regExists r = true) : regAddr r < 2 ^ 16 := by
  cases r with
  | status | fs | nch | order | par | codec | nsec | gidx | role => decide
  | _ =>
    simp only [regExists, Bool.and_eq_true, decide_eq_true_eq, nchMax, nsecMax, frameBytes, gsmBufs, frameLen] at h
    simp only [regAddr]
    omega

theorem memRead_none {s : State} {a : Nat} (h : ∀ r, regExists r = true → regAddr r ≠ a) : memRead s a = none := by
  rw [memRead, regAt_none h, Option.map_none]

/-! ## What `RDREG` answers (R229) -/

/-- `RDREG` of address `a` answers `w` and changes nothing else. -/
def Reads (s : State) (a : Nat) (w : Word) : Prop :=
  ∃ t, exec (.rdreg a) s = .next t ∧ t.rdata = w ∧ t = { s with rdata := t.rdata, freeIdx := t.freeIdx }

theorem exec_rdreg {s : State} {a : Nat} {w : Word} (h : memRead s a = some w) :
    exec (.rdreg a) s = .next (s.answer w) := by
  have hc : checkOf s (.rdreg a) = none := by simp [checkOf, h]
  rw [exec_of_check hc]
  simp only [workOf, h, Option.getD_some]

theorem reads_regAddr (s : State) (r : Reg) (h : regExists r = true) : Reads s (regAddr r) (regValue s r) :=
  ⟨_, exec_rdreg (memRead_regAddr s r h), rfl, rfl⟩

/-! ## The rows of R62 that need more than their register -/

/-- `STATUS` by its bits: `CAUSE` in 7:4, `FAULT` in 1, `PREPARED` in 0 (R23). -/
theorem status_word_eq (st : Status) :
    st.word = BitVec.ofNat 32 (16 * st.cause.toNat + 2 * st.fault.toNat + st.prepared.toNat) := by
  obtain ⟨p, f, c⟩ := st
  revert p f c
  decide

section
variable (s : State)

theorem reads_status :
    Reads s 0x0000
      (BitVec.ofNat 32 (16 * s.status.cause.toNat + 2 * s.status.fault.toNat + s.status.prepared.toNat)) := by
  rw [← status_word_eq]
  exact reads_regAddr s .status rfl

theorem reads_channel {ch : Nat} (hch : ch < 2) :
    Reads s (0x0010 + ch) (BitVec.ofNat 32 (s.cntAt ch).toNat) ∧ Reads s (0x0020 + ch) (s.heldAt ch) ∧
      Reads s (0x0030 + ch) (s.xinAt ch) ∧ Reads s (0x0040 + ch) (s.youtAt ch) := by
  have hr : decide (ch < nchMax) = true := decide_eq_true hch
  rw [BitVec.ofNat_toNat]
  exact ⟨reads_regAddr s (.cnt ch) hr, reads_regAddr s (.held ch) hr, reads_regAddr s (.xin ch) hr,
    reads_regAddr s (.yout ch) hr⟩

theorem reads_vox {dir ch f : Nat} (hdir : dir < 2) (hch : ch < 2) (hf : f < 2) :
    Reads s (0x0080 + dir * 0x20 + ch * 2 + f) (voxWord (s.voxAt dir ch) f) :=
  reads_regAddr s (.vox dir ch f) (by simp [regExists, nchMax, hdir, hch, hf])

theorem reads_coef {k j : Nat} (hk : k < 8) (hj : j < 5) :
    Reads s (0x0100 + k * 8 + j) (coefWord (s.coefAt k) j) :=
  reads_regAddr s (.coef k j) (by simp [regExists, nsecMax, hk, hj])

theorem reads_z {c ch k f : Nat} (hc : c < 2) (hch : ch < 2) (hk : k < 8) (hf : f < 2) :
    Reads s (0x0200 + c * 0x200 + ch * 0x20 + k * 2 + f) (delayWord (s.zAt c ch k) f) :=
  reads_regAddr s (.z c ch k f) (by simp [regExists, nchMax, nsecMax, hc, hch, hk, hf])

theorem reads_frame {i : Nat} (hi : i < 33) : Reads s (0x0700 + i) (BitVec.ofNat 32 (s.frameAt i).toNat) := by
  rw [BitVec.ofNat_toNat]
  exact reads_regAddr s (.frame i) (decide_eq_true hi)

theorem reads_buf {p i : Nat} (hp : p < 3) (hi : i < 160) :
    Reads s (0x0800 + p * 0x100 + i) (BitVec.ofInt 32 (s.bufAt p i).toInt) :=
  reads_regAddr s (.buf p i) (by simp [regExists, gsmBufs, frameLen, hp, hi])

end

end Sys2Proof.Machine

namespace Sys2Proof

open Sys2Proof.Machine

/-- Settles O26, by the two laws of the map (`regAt_regAddr`, `regAt_addr`) and the bound on an address. -/
theorem registerMapIsOneToOne : Obligations.RegisterMapIsOneToOne :=
  ⟨fun r h => ⟨regAddr_lt r h, regAt_regAddr r h⟩, fun _ _ h => regAt_addr h⟩

/-- Settles O25, row by row of R62: each row is `reads_regAddr` of its register, or the lemma that spells its address and
value, at each word of the row. -/
theorem rdregAnswersTheMappedWord : Obligations.RdregAnswersTheMappedWord := by
  intro s reads
  exact ⟨reads_status s, reads_regAddr s .fs rfl, reads_regAddr s .nch rfl, reads_regAddr s .order rfl,
    reads_regAddr s .par rfl, reads_regAddr s .codec rfl, reads_regAddr s .nsec rfl,
    fun _ hch => reads_channel s hch,
    fun _ _ hdir hch => ⟨reads_vox s hdir hch (f := 0) (by decide), reads_vox s hdir hch (f := 1) (by decide)⟩,
    fun _ hk => ⟨reads_coef s hk (j := 0) (by decide), reads_coef s hk (j := 1) (by decide),
      reads_coef s hk (j := 2) (by decide), reads_coef s hk (j := 3) (by decide),
      reads_coef s hk (j := 4) (by decide)⟩,
    fun _ _ _ hc hch hk => ⟨reads_z s hc hch hk (f := 0) (by decide), reads_z s hc hch hk (f := 1) (by decide)⟩,
    reads_regAddr s .gidx rfl, reads_regAddr s .role rfl, reads_regAddr s (.lcz 0) rfl, reads_regAddr s (.lcz 1) rfl,
    fun _ hi => reads_frame s hi, fun _ _ hp hi => reads_buf s hp hi⟩

/-- Settles O18: the address reads as nothing, which is the check of `RDREG`. -/
theorem unmappedAddressFaults : Obligations.UnmappedAddressFaults :=
  fun s a h => exec_faults (show checkOf s (.rdreg a) = some .badRegaddr from if_pos (memRead_none h))

end Sys2Proof

/-! SUPPORT and PROOFS. The encoding of 30_encoding.md. A row of the opcode map is an opcode and a format
(`Format.row`); it spells a word with that opcode and that format's zeros (`spells_row_iff`), and the decoder reads the
row its opcode selects (`decode_of_row_spells`). The rows of the decoder and those of R84's table are the same
(`row_mem_opcodeMap`, `rowOf_of_mem_opcodeMap`), and the encoder's bits 23:0 are the fields of the format
(`Format.low`). -/

namespace Sys2Proof

/-! ## The rows of R84 by opcode and format -/

/-- The mask of a format: the opcode and the bits that must be zero (R84). -/
def Format.mask : Format → Word
  | .n => 0xFFFFFFFF#32
  | .c => 0xFF0FFFFF#32
  | .k => 0xFF000FFF#32
  | .kz => 0xFF00FFFF#32
  | .i => 0xFFFF0000#32

/-- The row of R84 with this opcode and format. -/
def Format.row (f : Format) (op : Nat) : OpRow := ⟨cmdWord op 0, f.mask⟩

theorem opOf_lt (w : Word) : opOf w < 256 := (w.extractLsb' 24 8).isLt

theorem mask_getLsbD (f : Format) : ∀ i < 32, f.mask.getLsbD i =
    (decide (24 ≤ i) || (decide (f.zeros.1 ≤ i) && decide (i < f.zeros.1 + f.zeros.2))) := by
  cases f <;> decide

theorem cmdWord_zero_low (op : Nat) : ∀ i < 24, (cmdWord op 0).getLsbD i = false := by
  intro i hi
  rw [cmdWord, BitVec.getLsbD_ofNat, Nat.add_zero, Nat.testBit_mul_two_pow]
  simp [Nat.not_le.mpr hi]

theorem spells_row_iff (f : Format) {op : Nat} (ho : op < 256) (w : Word) :
    (f.row op).spells w = true ↔ opOf w = op ∧ f.zerosOk w = true := by
  rw [OpRow.spells, beq_iff_eq, Format.row, spells_iff f w _ _ (mask_getLsbD f) (cmdWord_zero_low op),
    opOf_cmdWord ho (by decide)]

theorem decode_of_row_spells (f : Format) {op : Nat} {w : Command} {i : Instr} (ho : op < 256)
    (hr : rowOf op w = some (f, i)) (hs : (f.row op).spells w.cmd = true) : decode w = .ok i :=
  have ⟨hop, hz⟩ := (spells_row_iff f ho w.cmd).mp hs
  decode_of_row hop hr hz

/-- A word that the row of opcode `op` and format `f` spells, `w & mask = match` written out, decodes to that row. -/
theorem decode_of_masked (f : Format) (op : Nat) {c w : Word} {i : Instr}
    (hr : rowOf op ⟨c, w⟩ = some (f, i)) (h : c &&& f.mask = cmdWord op 0)
    (ho : op < 256 := by decide) : decode ⟨c, w⟩ = .ok i :=
  decode_of_row_spells f ho hr (beq_iff_eq.mpr h)

theorem extract_high_eq_ofNat (w : Word) : w.extractLsb' 16 16 = BitVec.ofNat 16 (w.toNat / 2 ^ 16) := by
  rw [BitVec.extractLsb', Nat.shiftRight_eq_div_pow]

/-! ## The decoder's rows are the rows of R84 -/

theorem row_mem_opcodeMap {op : Nat} {w : Command} {f : Format} {i : Instr} (h : rowOf op w = some (f, i)) :
    f.row op ∈ opcodeMap := by
  unfold rowOf at h
  split at h <;> cases h <;> decide

/-- An opcode selects the same format whatever the other bits of the command. -/
theorem rowOf_format {op : Nat} {w : Command} {f : Format} {i : Instr} (h : rowOf op w = some (f, i))
    (v : Command) : ∃ j, rowOf op v = some (f, j) := by
  unfold rowOf at h
  split at h <;> cases h <;> exact ⟨_, rfl⟩

theorem opcodeMap_rows : ∀ r ∈ opcodeMap,
    (rowOf (opOf r.pat) ⟨r.pat, 0#32⟩).map (fun p => p.1.row (opOf r.pat)) = some r := by decide

theorem rowOf_of_mem_opcodeMap {r : OpRow} (h : r ∈ opcodeMap) (w : Command) :
    ∃ f i, rowOf (opOf r.pat) w = some (f, i) ∧ f.row (opOf r.pat) = r := by
  obtain ⟨⟨f, j⟩, hr, hf⟩ := Option.map_eq_some_iff.mp (opcodeMap_rows r h)
  obtain ⟨i, hi⟩ := rowOf_format hr w
  exact ⟨f, i, hi, hf⟩

theorem decodes_iff_spelled (w : Command) : (∃ i, decode w = .ok i) ↔ ∃ r ∈ opcodeMap, r.spells w.cmd = true := by
  constructor
  · rintro ⟨i, hd⟩
    obtain ⟨f, hr, hz⟩ := (decode_eq_ok_iff w i).mp hd
    exact ⟨f.row (opOf w.cmd), row_mem_opcodeMap hr, (spells_row_iff f (opOf_lt w.cmd) w.cmd).mpr ⟨rfl, hz⟩⟩
  · rintro ⟨r, hmem, hs⟩
    obtain ⟨f, i, hr, hf⟩ := rowOf_of_mem_opcodeMap hmem w
    exact ⟨i, decode_of_row_spells f (opOf_lt r.pat) hr (hf.symm ▸ hs)⟩

theorem row_unique {w : Word} {j k : Nat} (hj : j < opcodeMap.length) (hk : k < opcodeMap.length)
    (hsj : opcodeMap[j].spells w = true) (hsk : opcodeMap[k].spells w = true) : j = k := by
  have hdis := List.pairwise_iff_getElem.mp opcodeMap_disjoint
  rcases Nat.lt_trichotomy j k with hlt | heq | hgt
  · exact absurd (spells_agree hsj hsk) (hdis j k hj hk hlt)
  · exact heq
  · exact absurd (spells_agree hsk hsj) (hdis k j hk hj hgt)

/-! ## The encoder's word of a decoded command -/

/-- Bits 23:0 as the encoder of this format writes them, from the fields the decoder reads (R81). -/
def Format.low (f : Format) (w : Word) : Nat :=
  match f with
  | .n => 0
  | .c => chOf w * 2 ^ 20
  | .k => chOf w * 2 ^ 20 + cOf w * 2 ^ 16 + kOf w * 2 ^ 12
  | .kz => chOf w * 2 ^ 20 + cOf w * 2 ^ 16
  | .i => immOf w

theorem low_eq {f : Format} {w : Word} (hz : f.zerosOk w = true) : f.low w = w.toNat % 2 ^ 24 := by
  rw [zerosOk_iff] at hz
  cases f <;> simp only [Format.low, Format.zeros, chOf_eq, cOf_eq, kOf_eq, immOf_eq] at hz ⊢ <;> omega

theorem cmdWord_low {f : Format} {w : Word} (hz : f.zerosOk w = true) : cmdWord (opOf w) (f.low w) = w := by
  rw [cmdWord, low_eq hz, ← toNat_of_legal rfl, BitVec.ofNat_toNat, BitVec.setWidth_eq]

theorem encode_cmd_of_row {op : Nat} {w : Command} {f : Format} {i : Instr} (h : rowOf op w = some (f, i)) :
    (encode i).cmd = cmdWord op (f.low w.cmd) := by
  unfold rowOf at h
  split at h <;> cases h <;> rfl

theorem wf_of_row {op : Nat} {w : Command} {f : Format} {i : Instr} (h : rowOf op w = some (f, i)) : i.wf = true := by
  have hch : chOf w.cmd < 16 := (w.cmd.extractLsb' 20 4).isLt
  have hc : cOf w.cmd < 16 := (w.cmd.extractLsb' 16 4).isLt
  have hk : kOf w.cmd < 16 := (w.cmd.extractLsb' 12 4).isLt
  have himm : immOf w.cmd < 2 ^ 16 := (w.cmd.extractLsb' 0 16).isLt
  unfold rowOf at h
  split at h <;> cases h <;> simp only [Instr.wf, hch, hc, hk, himm, decide_true, Bool.and_true]

/-! ## The statements -/

/-- Settles O1, by the round trip of each command (`Laws.RoundTrip`). -/
theorem decodeOfEncodeIsTheInstruction : Obligations.DecodeOfEncodeIsTheInstruction := by
  intro i
  cases i with
  | nop => exact Laws.RoundTrip.nop
  | prepare nch fs => exact Laws.RoundTrip.prepare nch fs
  | setord order => exact Laws.RoundTrip.setord order
  | setpar mode d => exact Laws.RoundTrip.setpar mode d
  | getpar => exact Laws.RoundTrip.getpar
  | setcodec id => exact Laws.RoundTrip.setcodec id
  | reset => exact Laws.RoundTrip.reset
  | rdreg addr => exact Laws.RoundTrip.rdreg addr
  | apply c ch k x => exact Laws.RoundTrip.apply c ch k x
  | cascade c ch x => exact Laws.RoundTrip.cascade c ch x
  | decim ch x => exact Laws.RoundTrip.decim ch x
  | wrx ch x => exact Laws.RoundTrip.wrx ch x
  | rdy ch => exact Laws.RoundTrip.rdy ch
  | step => exact Laws.RoundTrip.step
  | voxenc ch v => exact Laws.RoundTrip.voxenc ch v
  | voxdec ch code => exact Laws.RoundTrip.voxdec ch code
  | ulenc pcm => exact Laws.RoundTrip.ulenc pcm
  | uldec b => exact Laws.RoundTrip.uldec b
  | alenc pcm => exact Laws.RoundTrip.alenc pcm
  | aldec b => exact Laws.RoundTrip.aldec b
  | gsmpush v => exact Laws.RoundTrip.gsmpush v

/-- Settles O2: the encoder writes the row's opcode and the fields the decoder read, and these with the format's zeros
are all of the word. -/
theorem encodeOfDecodedIsTheCommandWord : Obligations.EncodeOfDecodedIsTheCommandWord := by
  intro w i hd
  obtain ⟨f, hr, hz⟩ := (decode_eq_ok_iff w i).mp hd
  exact ⟨wf_of_row hr, (encode_cmd_of_row hr).trans (cmdWord_low hz)⟩

/-- Settles O3, by the two tables having the same rows, and distinct rows differing where both have mask bits. -/
theorem decoderAcceptsExactlyTheOpcodeMap : Obligations.DecoderAcceptsExactlyTheOpcodeMap :=
  fun w => ⟨decodes_iff_spelled w, fun _ _ hj hk => row_unique hj hk⟩

/-- Settles O4: each row by its format and opcode, its fields as numbers. -/
theorem eachRowDecodesToItsCommand : Obligations.EachRowDecodesToItsCommand := by
  intro c w
  dsimp only
  rw [← kOf_eq c, ← chOf_eq c, ← cOf_eq c, ← immOf_eq c, ← extract_high_eq_ofNat w]
  exact ⟨decode_of_masked .n 0x00 rfl, decode_of_masked .i 0x01 rfl, decode_of_masked .n 0x02 rfl,
    decode_of_masked .n 0x03 rfl, decode_of_masked .n 0x04 rfl, decode_of_masked .n 0x05 rfl,
    decode_of_masked .n 0x06 rfl, decode_of_masked .i 0x07 rfl, decode_of_masked .k 0x10 rfl,
    decode_of_masked .kz 0x11 rfl, decode_of_masked .c 0x12 rfl, decode_of_masked .c 0x18 rfl,
    decode_of_masked .c 0x19 rfl, decode_of_masked .n 0x1A rfl, decode_of_masked .c 0x20 rfl,
    decode_of_masked .c 0x21 rfl, decode_of_masked .n 0x28 rfl, decode_of_masked .n 0x29 rfl,
    decode_of_masked .n 0x2A rfl, decode_of_masked .n 0x2B rfl, decode_of_masked .n 0x30 rfl⟩

/-- Settles O7: a word no row spells does not decode, and the step at it is the raised fault. -/
theorem illegalCommandOnlyRaisesTheFault : Obligations.IllegalCommandOnlyRaisesTheFault := by
  intro s w hw hno
  cases hd : decode w with
  | ok i =>
    obtain ⟨r, hmem, hs⟩ := (decodes_iff_spelled w).mp ⟨i, hd⟩
    exact absurd hs (by simp [hno r hmem])
  | error e =>
    rw [Machine.step_illegal hw hd]
    exact Machine.faultsWith_raise Config.lpc s.advance .illegalCmd

/-- Settles O5: each legal word by the row that spells it, the two illegal ones by running the decoder. -/
theorem writtenOutWordsDecode : Obligations.WrittenOutWordsDecode :=
  ⟨decode_of_masked .n 0x00 rfl rfl, decode_of_masked .i 0x01 rfl rfl,
    decode_of_masked .k 0x10 rfl rfl, decode_of_masked .kz 0x11 rfl rfl,
    decode_of_masked .c 0x12 rfl rfl, decode_of_masked .c 0x20 rfl rfl,
    decode_of_masked .n 0x2B rfl rfl, decode_of_masked .n 0x30 rfl rfl, rfl, rfl⟩

end Sys2Proof

/-! SUPPORT and PROOFS. The filter chain of 40_filter_cascade.md: `PREPARE`'s rebuild (O20), the squash (O30), `APPLY`
(O31, O32, O35) and `CASCADE` (O33, O34). A legal `APPLY` answers one `biquad` step (`apply_answers_biquad`), and every
statement about its result is read off that step. -/

namespace Sys2Proof.Machine

/-! ## The check of `PREPARE` (R228) -/

theorem prepareCheck_ok {nch : Nat} {fs : Word} (hfs : fs ≠ 0#32) (hpos : 1 ≤ nch) (hmax : nch ≤ 2) :
    prepareCheck nch fs = none :=
  if_neg fun h => h.elim hfs (by simp only [nchMax]; omega)

/-! ## The squash by value (R114) -/

theorem isSubnormal_iff (w : Word) : isSubnormal w = true ↔ 0 < magBits w ∧ magBits w < 2 ^ 23 := by
  simp only [isSubnormal, Bool.and_eq_true, beq_iff_eq, bne_iff_ne, ne_eq, expField_eq, fracField_eq, magBits]
  omega

/-- The least normal magnitude. -/
theorem magVal_minNormal : magVal (2 ^ 23) = (2 : ℚ) ^ (-126 : ℤ) := by
  have h := magVal_at 0 (2 ^ 23) (by decide) (.inl rfl)
  rw [zero_mul, zero_add] at h
  rw [h]
  norm_num

theorem abs_valQ_finite {w : Word} (h : isFinite w = true) : |valQ w| = magVal (magBits w) := by
  rw [valQ_finite h, abs_mul, abs_signQ, one_mul, abs_of_nonneg (magVal_nonneg _)]

/-- A subnormal is a nonzero finite value below the least normal magnitude, since `magVal` keeps the order. -/
theorem isSubnormal_iff_value (w : Word) :
    isSubnormal w = true ↔ isFinite w = true ∧ valQ w ≠ 0 ∧ |valQ w| < (2 : ℚ) ^ (-126 : ℤ) := by
  have hvalue (hf : isFinite w = true) :
      isSubnormal w = true ↔ valQ w ≠ 0 ∧ |valQ w| < (2 : ℚ) ^ (-126 : ℤ) := by
    rw [← abs_pos, abs_valQ_finite hf, ← magVal_minNormal, ← magVal_zero, magVal_strictMono.lt_iff_lt,
      magVal_strictMono.lt_iff_lt, isSubnormal_iff]
  refine ⟨fun h => ?_, fun ⟨hf, hv⟩ => (hvalue hf).mpr hv⟩
  have hf : isFinite w = true := (isFinite_iff w).mpr (((isSubnormal_iff w).mp h).2.trans (by decide))
  exact ⟨hf, (hvalue hf).mp h⟩

theorem snap_of_subnormal {w : Word} (h : isSubnormal w = true) : snap w = 0#32 := if_pos h

theorem snap_of_not_subnormal {w : Word} (h : ¬ isSubnormal w = true) : snap w = w := if_neg h

theorem isNaN_snap {w : Word} (h : isNaN w = false) : isNaN (snap w) = false := by
  by_cases hs : isSubnormal w = true
  · rw [snap_of_subnormal hs]
    decide
  · rwa [snap_of_not_subnormal hs]

/-! ## One section (R115, R116) -/

/-- What R116 asks of the operands of `APPLY`, in a state within R39 (a) and (d). -/
structure LegalApply (s : State) (c ch k : Nat) : Prop where
  prepared : s.status.prepared = true
  nch_le : s.nch ≤ 2
  order_le : s.order ≤ 16
  chain : c ≤ 1
  channel : ch < s.nch
  sec : k < s.order / 2

theorem exec_apply_legal {s : State} {c ch k : Nat} (h : LegalApply s c ch k) (x : Word) :
    exec (.apply c ch k x) s =
      .next ((applySection Config.lpc s c ch k x).2.answer (applySection Config.lpc s c ch k x).1) :=
  doApply_ok Config.lpc x h.prepared h.channel h.chain h.sec

/-- A legal `APPLY` answers the output of one step of R115 and leaves its delay line. -/
theorem apply_answers_biquad {s t : State} {c ch k : Nat} {x : Word} (h : LegalApply s c ch k)
    (ht : exec (.apply c ch k x) s = .next t) :
    (t.rdata, t.zAt c ch k) =
      biquad (Config.lpc.freeNaN s.freeIdx (.sec c ch k)) (s.coefAt k) (s.zAt c ch k) x := by
  have hc : c < 2 := Nat.lt_succ_of_le h.chain
  have hch : ch < nchMax := h.channel.trans_le h.nch_le
  have hk : k < nsecMax := h.sec.trans_le (Nat.div_le_div_right h.order_le)
  obtain rfl := Host.Outcome.next.inj ((exec_apply_legal h x).symm.trans ht)
  exact applySection_self Config.lpc s c ch x k hc hch hk

/-- On a cleared delay line the output is the product alone, rounded, plus `+0.0`: neither step has a NaN (R120). -/
theorem isNaN_biquad_cleared (nan : Nat → Word) {q : Coef} {x : Word} (hq : isFinite q.b0 = true)
    (hx : isFinite x = true) : isNaN (biquad nan q ⟨0#32, 0#32⟩ x).1 = false := by
  obtain ⟨m, e, -, hprod⟩ := fmul_finite (nan 0) hq hx
  have hnan : isNaN (fmul (nan 0) q.b0 x) = false := hprod ▸ round32_not_nan _ m e
  have hsum : isNaN (fadd (nan 1) (fmul (nan 0) q.b0 x) 0#32) = false := by
    have hzero : isNaN 0#32 = false ∧ ¬ IsInf 0#32 := ⟨by decide, fun h => absurd h.1 (by decide)⟩
    rw [← Bool.not_eq_true, isNaN_fadd_iff]
    simp [NaNSum, hnan, hzero]
  exact isNaN_snap hsum

/-! ## A chain of one section (R117) -/

theorem cascadeCheck_one {s : State} (h : s.nsec = 1) (c ch : Nat) : cascadeCheck s c ch = applyCheck s c ch 0 := by
  simp [cascadeCheck, applyCheck, h]

theorem cascadeChain_one (cfg : Config) {s : State} (h : s.nsec = 1) (c ch : Nat) (x : Word) :
    cascadeChain cfg s c ch x = applySection cfg s c ch 0 x := by
  rw [cascadeChain, h]
  rfl

end Sys2Proof.Machine

namespace Sys2Proof

open Sys2Proof.Machine

/-- Settles O20: the check passes, so `PREPARE` answers the rebuild of the state with `FS`, `NCH` and `PREPARED`
stored. -/
theorem prepareStoresAndRebuilds : Obligations.PrepareStoresAndRebuilds := by
  intro s nch fs hfs hpos hmax
  refine ⟨_, exec_of_check (i := .prepare nch fs) (prepareCheck_ok hfs hpos hmax), rfl, rfl, rfl, rfl,
    fun k h hk => ?_, fun k h hk => ?_, fun c ch k => ?_, rfl, rfl⟩
  · exact State.designedCoef_lt Config.lpc fs s.d s.order k h hk
  · exact State.designedCoef_ge Config.lpc fs s.d s.order k h hk
  · exact State.zeroDelays_at c ch k

/-- Settles O30: the squashed encodings are the subnormals, which are the nonzero finite values below `2^-126`. -/
theorem snapZeroesExactlyTheSubnormals : Obligations.SnapZeroesExactlyTheSubnormals := by
  intro w
  rw [← isSubnormal_iff_value]
  exact ⟨snap_of_subnormal, snap_of_not_subnormal⟩

/-- Settles O31: the checks pass, and the step of R115 is `biquad` written out. -/
theorem applyRunsOneSection : Obligations.ApplyRunsOneSection := by
  intro s c ch k x hp hnch hord hc hch hk
  have hl : LegalApply s c ch k := ⟨hp, hnch, hord, hc, hch, hk⟩
  have hrun := exec_apply_legal hl x
  obtain ⟨hy, hz⟩ := Prod.mk.inj (apply_answers_biquad hl hrun)
  exact ⟨_, _, hrun, ⟨hy, hz⟩, applySection_other Config.lpc s c ch x k, rfl⟩

/-- Settles O32: both runs answer `biquad` of the same coefficients, delay line, operand and free values. -/
theorem applyDependsOnItsSectionAlone : Obligations.ApplyDependsOnItsSectionAlone := by
  intro s s' t t' c ch k x hnch hord hnch' hord' hc hch hk hch' hk' hp hp' hcoef hz hfree ht ht'
  have h := apply_answers_biquad ⟨hp, hnch, hord, hc, hch, hk⟩ ht
  have h' := apply_answers_biquad ⟨hp', hnch', hord', hc, hch', hk'⟩ ht'
  rw [hcoef, hz, hfree, ← h'] at h
  exact Prod.mk.inj h

/-- Settles O33: value `k` is the output of the first `k` sections. -/
theorem cascadeRunsTheSectionsInOrder : Obligations.CascadeRunsTheSectionsInOrder := by
  intro s c ch x hp hnch hord hc hch
  refine ⟨_, fun k => (cascadeUpTo Config.lpc s c ch x k).1, fun k => Config.lpc.freeNaN s.freeIdx (.sec c ch k),
    doCascade_ok Config.lpc x hp hch hc, rfl, rfl, fun k hk => ?_, ?_, ?_⟩
  · exact cascadeUpTo_section Config.lpc s c ch x s.nsec k hk (by omega) (hch.trans_le hnch)
      (Nat.div_le_div_right hord)
  · exact cascadeUpTo_other Config.lpc s c ch x s.nsec
  · rw [cascadeChain_frame]
    rfl

/-- Settles O34: with one section the checks agree and the chain is section 0. -/
theorem cascadeOfOneSectionIsApply : Obligations.CascadeOfOneSectionIsApply := by
  intro s c ch x h
  show doCascade Config.lpc c ch x s = doApply Config.lpc c ch 0 x s
  rw [doCascade, doApply, cascadeCheck_one h, cascadeChain_one Config.lpc h]

/-- Settles O35: the answer is the output of a step on a cleared delay line. -/
theorem firstSampleAfterAClearIsNoNaN : Obligations.FirstSampleAfterAClearIsNoNaN := by
  intro s t c ch k x hp hnch hord hc hch hk hz hq hx ht
  have hy : t.rdata = _ := congrArg Prod.fst (apply_answers_biquad ⟨hp, hnch, hord, hc, hch, hk⟩ ht)
  simp only [Coef.isFinite, Bool.and_eq_true] at hq
  obtain ⟨⟨⟨⟨hb0, -⟩, -⟩, -⟩, -⟩ := hq
  rw [hy, hz]
  exact isNaN_biquad_cleared _ hb0 hx

end Sys2Proof

/-! SUPPORT and PROOFS. The sample conversions of 41_decimator.md R147: `I2F16` is exact and undone by `F2I16` (O39),
and the float-to-integer conversions truncate and saturate (O40). A finite operand scaled by a power of two has at most
24 significant bits, so its one rounding is exact or overflows, and an overflow is far beyond every range. -/

namespace Sys2Proof.Machine

/-! ## Scaling by a power of two is exact -/

/-- The product of finite encodings is a number, rounded once. -/
theorem fmulR_finite {a b : Word} (ha : isFinite a = true) (hb : isFinite b = true) :
    ∃ p, fmulR a b = some p ∧ IsRoundedTo p (valQ a * valQ b) := by
  obtain ⟨hround, -⟩ := Sys2Proof.fmulRoundsToNearestEven 0#32 a b ha hb
  cases hp : fmulR a b with
  | some p => exact ⟨p, rfl, by rwa [fmul, hp] at hround⟩
  | none =>
    obtain ⟨m, e, -, hw⟩ := fmul_finite 0#32 ha hb
    have hnan : isNaN (fmul 0#32 a b) = true := by rw [fmul, hp, isNaN_pick_none]
    rw [hw, round32_not_nan] at hnan
    cases hnan

/-- A finite value times a power of two is the value of an encoding unless it is too large for one. -/
theorem exists_finite_scaled {x : Word} (hx : isFinite x = true) (k : Nat) (hlt : |valQ x * 2 ^ k| < (2 : ℚ) ^ 128) :
    ∃ u, isFinite u = true ∧ valQ u = valQ x * 2 ^ k := by
  obtain ⟨m, e, hu, hm, he, -⟩ := unpack_finite hx
  have hscale : (m : ℚ) * (2 : ℚ) ^ e * 2 ^ k = (m : ℚ) * (2 : ℚ) ^ (e + k) := by
    rw [zpow_add₀ (by norm_num), zpow_natCast, mul_assoc]
  rw [valQ_of_unpack hu, mul_assoc, hscale] at hlt ⊢
  rw [abs_mul, abs_signQ, one_mul, abs_of_nonneg (by positivity)] at hlt
  exact representable x.msb hm (by omega) hlt

/-! ## Truncation and saturation (R10, R147) -/

/-- Truncation toward zero, by the sign and the magnitude. -/
theorem tdiv_eq_floor_abs (v : ℚ) : Int.tdiv v.num v.den = if v < 0 then -⌊|v|⌋ else ⌊|v|⌋ := by
  have hv : v = signQ (decide (v < 0)) * |v| := by
    by_cases h : v < 0
    · simp [signQ, h, abs_of_neg h]
    · simp [signQ, h, abs_of_nonneg (not_lt.mp h)]
  conv_lhs => rw [hv]
  simpa using tdiv_num_den (decide (v < 0)) (abs_nonneg v)

/-- The end of an `n`-bit range on the side of a sign. -/
def rangeEnd (n : Nat) (neg : Bool) : Int := if neg then -(2 ^ (n - 1)) else 2 ^ (n - 1) - 1

theorem truncSat_inf (n : Nat) (neg : Bool) : truncSat n (signed neg infBits) = rangeEnd n neg := by
  have hu : unpack (signed neg infBits) = .inf neg := by cases neg <;> decide
  rw [truncSat, hu, rangeEnd]

/-- A value beyond the range of `n` bits saturates to the end of its sign. -/
theorem sat_trunc_of_large (n : Nat) {v : ℚ} (h : (2 : ℚ) ^ (n - 1) ≤ |v|) :
    sat n (Int.tdiv v.num v.den) = rangeEnd n (decide (v < 0)) := by
  have hfloor : (2 : Int) ^ (n - 1) ≤ ⌊|v|⌋ := Int.le_floor.mpr (by exact_mod_cast h)
  have hpos : (0 : Int) < 2 ^ (n - 1) := by positivity
  rw [tdiv_eq_floor_abs, sat, clamp_eq (by omega), rangeEnd]
  by_cases hv : v < 0
  · simp only [hv, if_true, decide_true]
    omega
  · simp only [hv, if_false, decide_false, Bool.false_eq_true]
    omega

/-- One rounding before `sat_n(trunc(v))` does not matter, where `v` is the value of an encoding or overflows. -/
theorem truncSat_rounded {n : Nat} (hn : n ≤ 100) {p : Word} {v : ℚ} (hp : IsRoundedTo p v)
    (hv : |v| < (2 : ℚ) ^ 128 → ∃ u, isFinite u = true ∧ valQ u = v) :
    truncSat n p = sat n (Int.tdiv v.num v.den) := by
  by_cases hbig : (2 : ℚ) ^ 128 - (2 : ℚ) ^ 103 ≤ |v|
  · have hpow : (2 : ℚ) ^ (n - 1) ≤ (2 : ℚ) ^ 100 := pow_le_pow_right₀ (by norm_num) (by omega)
    have hlarge : (2 : ℚ) ^ (n - 1) ≤ |v| := hpow.trans (le_trans (by norm_num) hbig)
    rw [IsRoundedTo, if_pos hbig] at hp
    rw [hp, truncSat_inf, sat_trunc_of_large n hlarge]
  · have hlt := not_le.mp hbig
    obtain ⟨u, hu, huv⟩ := hv (hlt.trans (by norm_num))
    obtain ⟨hfin, hval⟩ := isRoundedTo_exact hp hu huv hlt
    rw [truncSat_finite n hfin, hval]

/-! ## `F2I` (R147) -/

/-- A scale of `F2I`: a positive finite power of two. -/
structure IsScale (scale : Word) (k : Nat) : Prop where
  fin : isFinite scale = true
  pos : scale.msb = false
  value : valQ scale = 2 ^ k

theorem isScale_f2i16 : IsScale 0x47000000#32 15 := by
  refine ⟨by decide, by decide, ?_⟩
  rw [valQ, show unpack 0x47000000#32 = .fin false (2 ^ 23) (-8) by decide]
  norm_num

theorem isScale_f2i13 : IsScale 0x45800000#32 12 := by
  refine ⟨by decide, by decide, ?_⟩
  rw [valQ, show unpack 0x45800000#32 = .fin false (2 ^ 23) (-11) by decide]
  norm_num

theorem f2i_nan (n : Nat) (scale : Word) {x : Word} (hx : isNaN x = true) : f2i n scale x = 0 := by
  simp only [f2i, fmulR, unpack_of_isNaN hx]

section
variable {scale : Word} {k : Nat} (hs : IsScale scale k) {x : Word}
include hs

theorem f2i_inf (n : Nat) (hx : IsInf x) : f2i n scale x = rangeEnd n x.msb := by
  obtain ⟨m, e, hu, -⟩ := unpack_finite hs.fin
  have hm : m ≠ 0 := by
    rw [Ne, ← valQ_eq_zero_iff hu, hs.value]
    positivity
  simp only [f2i, fmulR, unpack_of_isInf hx, hu, hm, if_false, hs.pos, Bool.bne_false, truncSat_inf]

theorem f2i_finite {n : Nat} (hn : n ≤ 100) (hx : isFinite x = true) :
    f2i n scale x = sat n (Int.tdiv (valQ x * 2 ^ k).num (valQ x * 2 ^ k).den) := by
  obtain ⟨p, hp, hround⟩ := fmulR_finite hx hs.fin
  rw [hs.value] at hround
  simp only [f2i, hp]
  exact truncSat_rounded hn hround (exists_finite_scaled hx k)

end

/-- A saturated integer fits its bits. -/
theorem toInt_ofInt_sat {n : Nat} (hn : 0 < n) (v : Int) : (BitVec.ofInt n (sat n v)).toInt = sat n v := by
  have hpos : (0 : Int) < 2 ^ (n - 1) := by positivity
  have hhalf : (2 : Int) ^ n = 2 * 2 ^ (n - 1) := by
    rw [← pow_succ']
    congr 1
    omega
  obtain ⟨hlo, hhi⟩ := clamp_bounds (v := v) (lo := -(2 : Int) ^ (n - 1)) (hi := 2 ^ (n - 1) - 1) (by omega)
  rw [BitVec.toInt_ofInt]
  apply Int.bmod_eq_of_le <;> simp only [sat] <;> push_cast <;> omega

theorem f2i16_finite {x : Word} (hx : isFinite x = true) :
    (f2i16 x).toInt = clamp (Int.tdiv (valQ x * 32768).num (valQ x * 32768).den) (-32768) 32767 := by
  have hscale : (32768 : ℚ) = 2 ^ 15 := by norm_num
  rw [f2i16, f2i_finite isScale_f2i16 (by decide) hx, toInt_ofInt_sat (by decide), hscale]
  rfl

theorem f2i13_finite {x : Word} (hx : isFinite x = true) :
    (f2i13 x).toInt = clamp (Int.tdiv (valQ x * 4096).num (valQ x * 4096).den) (-4096) 4095 := by
  have hscale : (4096 : ℚ) = 2 ^ 12 := by norm_num
  rw [f2i13, f2i_finite isScale_f2i13 (by decide) hx, toInt_ofInt_sat (by decide), hscale]
  rfl

/-! ## `I2F16` (R147) -/

/-- `v / 32768` has at most 16 significant bits, so `I2F16` rounds it to itself. -/
theorem i2f16_exact (v : Half) : isFinite (i2f16 v) = true ∧ valQ (i2f16 v) = (v.toInt : ℚ) / 32768 := by
  have hmag : v.toInt.natAbs ≤ 2 ^ 15 := by
    have := BitVec.le_toInt v
    have := BitVec.toInt_lt (x := v)
    omega
  have hmagQ : (v.toInt.natAbs : ℚ) ≤ 2 ^ 15 := by exact_mod_cast hmag
  have hval : signQ v.msb * ((v.toInt.natAbs : ℚ) * (2 : ℚ) ^ (-15 : ℤ)) = (v.toInt : ℚ) / 32768 := by
    rw [BitVec.msb_eq_toInt, ← mul_assoc, signQ_mul_natAbs]
    norm_num [div_eq_mul_inv]
  have hsmall : (v.toInt.natAbs : ℚ) * (2 : ℚ) ^ (-15 : ℤ) ≤ 1 := by
    norm_num at hmagQ ⊢
    linarith
  obtain ⟨u, hu, huv⟩ := representable v.msb (m := v.toInt.natAbs) (e := -15) (by omega) (by decide)
    (hsmall.trans_lt (by norm_num))
  rw [← hval]
  refine isRoundedTo_exact (round32_rounds v.msb v.toInt.natAbs (-15)) hu huv ?_
  rw [abs_mul, abs_signQ, one_mul, abs_of_nonneg (by positivity)]
  exact hsmall.trans_lt (by norm_num)

theorem f2i16_i2f16 (v : Half) : f2i16 (i2f16 v) = v := by
  obtain ⟨hfin, hval⟩ := i2f16_exact v
  have hlo := BitVec.le_toInt v
  have hhi := BitVec.toInt_lt (x := v)
  apply BitVec.eq_of_toInt_eq
  rw [f2i16_finite hfin, hval, div_mul_cancel₀ _ (by norm_num), Rat.num_intCast, Rat.den_intCast, Nat.cast_one,
    Int.tdiv_one, clamp_eq (by decide)]
  omega

end Sys2Proof.Machine

namespace Sys2Proof

open Sys2Proof.Machine

/-- Settles O39: `I2F16` rounds a value an encoding has, and `F2I16` scales it back. -/
theorem sampleConversionIsExact : Obligations.SampleConversionIsExact := by
  intro v
  obtain ⟨hfin, hval⟩ := i2f16_exact v
  exact ⟨hfin, hval, f2i16_i2f16 v⟩

/-- Settles O40, by the three kinds of encoding. -/
theorem sampleConversionSaturates : Obligations.SampleConversionSaturates := by
  intro x
  refine ⟨fun hnan => ?_, fun hnan hfin => ?_, fun hfin => ⟨f2i16_finite hfin, f2i13_finite hfin⟩⟩
  · rw [f2i16, f2i13, f2i_nan 16 _ hnan, f2i_nan 13 _ hnan]
    decide
  · rw [f2i16, f2i13, f2i_inf isScale_f2i16 16 ⟨hfin, hnan⟩, f2i_inf isScale_f2i13 13 ⟨hfin, hnan⟩]
    cases x.msb <;> decide

end Sys2Proof

/-! SUPPORT and PROOFS. The decimator and the sample period of 41_decimator.md: `DECIM` (O36, O37), `WRX` and `RDY`
(O38), and `STEP` with no module (O41), a compander (O42), VOX (O43) and GSM (O44). Each command passes its check and
answers its work; what that work does to a channel is `holdAndFilter_spec` or `channels_spec`, with the insert of R146
written out. -/

namespace Sys2Proof.Machine

/-- Compare and clear, the advance said in four bits (R142). -/
theorem nextCnt_eq (d : Nat) (cnt : BitVec 4) : nextCnt d cnt = if d ≤ cnt.toNat + 1 then 0#4 else cnt + 1#4 := by
  rw [nextCnt, BitVec.ofNat_add, BitVec.ofNat_toNat, BitVec.setWidth_eq]

/-! ## `DECIM` (R144) -/

theorem exec_decim {s : State} {ch : Nat} (x : Word) (hp : s.status.prepared = true) (hch : ch < s.nch) :
    exec (.decim ch x) s =
      .next ((holdAndFilter Config.lpc s ch x insertNone).2.answer (holdAndFilter Config.lpc s ch x insertNone).1) :=
  exec_of_check (i := .decim ch x) (s.channelCheck_ok hp hch)

/-- With no codec `HoldAndFilter` writes the delay lines, the counter and the held sample (R140). -/
theorem holdAndFilter_insertNone_frame (cfg : Config) (s : State) {ch : Nat} (x : Word) (hch : ch < nchMax) :
    let t := (holdAndFilter cfg s ch x insertNone).2
    t = { s with z := t.z, cnt := t.cnt, held := t.held } := by
  intro t
  obtain ⟨-, hframe, -⟩ := holdAndFilter_spec cfg s ch x insertNone_keeps hch
  have hlatched : latched cfg s ch x insertNone =
      { s with z := (cascadeChain cfg s 0 ch x).2.z, held := (latched cfg s ch x insertNone).held } := by
    unfold latched latch
    split <;> rw [cascadeChain_frame]
    rfl
  have ht : t = _ := hframe
  rw [ht, hlatched]

/-! ## `STEP` (R150) -/

theorem exec_step {s : State} (hp : s.status.prepared = true) (hn : s.nch ≤ 2) :
    exec .step s = .next ((samplePeriod Config.lpc s).answer 0#32) := by
  have hcheck : stepCheck s = none := by simp [stepCheck, hp, Nat.not_lt.mpr hn]
  exact exec_of_check (i := .step) hcheck

/-- VOX pairs that agree channel by channel are the same storage. -/
theorem vox_eq_of_voxAt {s t : State} (h : ∀ dir ch, t.voxAt dir ch = s.voxAt dir ch) : t.vox = s.vox :=
  vector_ext_vget fun dir => vector_ext_vget fun ch => h dir ch

/-! ### The companders (R146) -/

/-- The round trip of the selected compander on one 16-bit sample. -/
def companderTrip (cfg : Config) (codec : Codec) (v : Half) : Half :=
  if codec = .mulaw then ulDec cfg.ulaw (ulEnc cfg.ulaw v) else alDec cfg.alaw (alEnc cfg.alaw v)

/-- `Insert(2, ch)` and `Insert(3, ch)` as one function of the codec. -/
def companderInsert (cfg : Config) (codec : Codec) : InsertFn := fun s u =>
  (i2f16 (companderTrip cfg codec (f2i16 u)), s)

theorem companderInsert_channel (cfg : Config) (codec : Codec) (ch : Nat) :
    ChannelInsert ch (companderInsert cfg codec) :=
  ⟨fun _ _ => rfl, fun _ _ _ _ _ => rfl, fun _ _ _ h => ⟨rfl, h⟩⟩

theorem samplePeriod_compander (cfg : Config) {s : State} (h : s.codec = .mulaw ∨ s.codec = .alaw) :
    samplePeriod cfg s =
      (List.range s.nch).foldl (codecChannel cfg fun _ => companderInsert cfg s.codec) s := by
  rcases h with h | h <;> (rw [samplePeriod, h]; rfl)

/-- A compander moves no VOX pair. -/
theorem companders_vox (cfg : Config) (codec : Codec) (s : State) {n : Nat} (hn : n ≤ nchMax) :
    ((List.range n).foldl (codecChannel cfg fun _ => companderInsert cfg codec) s).vox = s.vox := by
  obtain ⟨hdone, hsame, -⟩ := channels_spec cfg (fun _ => companderInsert cfg codec) s n hn
    fun ch _ => companderInsert_channel cfg codec ch
  refine vox_eq_of_voxAt fun dir ch => ?_
  rcases Nat.lt_or_ge ch n with hch | hch
  · exact ((hdone ch hch).vox dir).trans (ite_self _)
  · exact (hsame ch hch).vox dir

/-! ### VOX (R146, R167) -/

theorem samplePeriod_vox (cfg : Config) {s : State} (h : s.codec = .vox) :
    samplePeriod cfg s = (List.range s.nch).foldl (codecChannel cfg (insertVox cfg)) s := by
  rw [samplePeriod, h]

/-- What is held with VOX: 16 times the predictor the decoder reaches by the encoder's code. -/
theorem heldNext_vox (cfg : Config) (s : State) {ch : Nat} (x : Word) (hch : ch < nchMax) :
    let code := voxCode cfg.vox (s.voxAt 0 ch) (f2i16 (cascadeChain cfg s 0 ch x).1)
    heldNext cfg s ch x (insertVox cfg ch) =
      if s.cntAt ch = 0#4 then i2f16 (BitVec.ofInt 16 ((voxRecon cfg.vox (s.voxAt 1 ch) code).pred * 16))
      else s.heldAt ch := by
  have hvox (dir : Nat) : (cascadeChain cfg s 0 ch x).2.voxAt dir ch = s.voxAt dir ch := by
    rw [cascadeChain_frame]
    rfl
  obtain ⟨hout, -⟩ := insertVox_spec cfg ch (cascadeChain cfg s 0 ch x).2 (cascadeChain cfg s 0 ch x).1 hch
  rw [hvox, hvox] at hout
  rw [heldNext, hout]

/-! ### GSM (R151) -/

/-- `LowCut` writes `LCZ` only (R209). -/
theorem lowCut_state (cfg : Config) (s : State) (m : Word) :
    (lowCut cfg s m).2 = s.setLcz (lowCut cfg s m).2.lcz := by
  unfold lowCut
  split <;> rfl

section
variable (cfg : Config) (s : State) (l : Delay) (x : Word)

theorem cascadeUpTo_setLcz (c ch n : Nat) :
    cascadeUpTo cfg (s.setLcz l) c ch x n =
      ((cascadeUpTo cfg s c ch x n).1, (cascadeUpTo cfg s c ch x n).2.setLcz l) := by
  induction n with
  | zero => rfl
  | succ n ih =>
    rw [cascadeUpTo, ih]
    rfl

/-- No chain reads or writes `LCZ`. -/
theorem cascadeChain_setLcz (c ch : Nat) :
    cascadeChain cfg (s.setLcz l) c ch x =
      ((cascadeChain cfg s c ch x).1, (cascadeChain cfg s c ch x).2.setLcz l) :=
  cascadeUpTo_setLcz cfg s l x c ch s.nsec

/-- The frame engine does not see the filters, so a push after the input chain is a push before it (R203). -/
theorem insertGsm_after_chain (u : Word) :
    let t := (cascadeChain cfg s 0 0 x).2
    let push := gsmPush cfg s (f2i13 u)
    insertGsm cfg (t.setLcz l) u = (i2f16 push.1, { push.2 with z := t.z, lcz := l }) := by
  intro t push
  have ht : t.setLcz l = { s with z := t.z, lcz := l } := congrArg (·.setLcz l) (cascadeChain_frame cfg s 0 0 x)
  rw [insertGsm, ht, gsmPush_with]

theorem heldNext_gsm :
    heldNext cfg (s.setLcz l) 0 x (insertGsm cfg) =
      if s.cntAt 0 = 0#4 then i2f16 (gsmPush cfg s (f2i13 (cascadeChain cfg s 0 0 x).1)).1 else s.heldAt 0 := by
  rw [heldNext, cascadeChain_setLcz, insertGsm_after_chain]
  rfl

/-- The frame engine after a sample period of channel 0 with the filtered sample `u`: one push at a latch instant. -/
def engineNext (u : Word) : State := if s.cntAt 0 = 0#4 then (gsmPush cfg s (f2i13 u)).2 else s

theorem engineNext_frame (u : Word) :
    let g := engineNext cfg s u
    g = { s with buf := g.buf, role := g.role, gidx := g.gidx, frame := g.frame, gstate := g.gstate } := by
  intro g
  have hg : g = if s.cntAt 0 = 0#4 then (gsmPush cfg s (f2i13 u)).2 else s := rfl
  split at hg <;> rw [hg]
  exact gsmPush_frame cfg s (f2i13 u)

/-- The latch of the mono path, by the frame engine and the filters apart. -/
theorem latched_gsm :
    let t := latched cfg (s.setLcz l) 0 x (insertGsm cfg)
    t = { engineNext cfg s (cascadeChain cfg s 0 0 x).1 with z := t.z, lcz := l, held := t.held } := by
  have hcnt : (cascadeChain cfg s 0 0 x).2.cntAt 0 = s.cntAt 0 := cntAt_eq_of_cnt (by rw [cascadeChain_frame]) 0
  dsimp only
  rw [latched, latch, cascadeChain_setLcz]
  dsimp only
  rw [State.cntAt_setLcz, hcnt, engineNext, insertGsm_after_chain]
  split
  · rfl
  · rw [cascadeChain_frame]
    rfl

/-- `HoldAndFilter` of the mono path (R140, R151), said of the state before the low cut. -/
theorem holdAndFilter_gsm :
    let pre := cascadeChain cfg s 0 0 x
    let held := if s.cntAt 0 = 0#4 then i2f16 (gsmPush cfg s (f2i13 pre.1)).1 else s.heldAt 0
    let post := cascadeChain cfg s 1 0 held
    let r := holdAndFilter cfg (s.setLcz l) 0 x (insertGsm cfg)
    r.1 = fmul (cfg.freeNaN s.freeIdx (.gain 0) 0) post.1 (cfg.gain s.d) ∧
      r.2 = { engineNext cfg s pre.1 with z := r.2.z, lcz := l, cnt := r.2.cnt, held := r.2.held } ∧
      r.2.heldAt 0 = held ∧ r.2.cntAt 0 = nextCnt s.d (s.cntAt 0) ∧
      (∀ k, r.2.zAt 0 0 k = pre.2.zAt 0 0 k ∧ r.2.zAt 1 0 k = post.2.zAt 1 0 k) ∧
      (∀ j, j ≠ 0 → r.2.heldAt j = s.heldAt j ∧ r.2.cntAt j = s.cntAt j ∧ ∀ c k, r.2.zAt c j k = s.zAt c j k) := by
  intro pre held post r
  obtain ⟨hout, hframe, hheld, hcnt, hz0, hz1, hother⟩ :=
    holdAndFilter_spec cfg (s.setLcz l) 0 x (insertGsm_keeps cfg) (by decide : 0 < nchMax)
  rw [heldNext_gsm, cascadeChain_setLcz] at hout hz1
  rw [heldNext_gsm] at hheld
  rw [cascadeChain_setLcz] at hz0
  refine ⟨hout, ?_, hheld, hcnt, fun k => ⟨hz0 k, hz1 k⟩, fun j hj => ?_⟩
  · have hr : r.2 = _ := hframe
    rw [hr, latched_gsm]
  · obtain ⟨hcntj, hheldj, hzj⟩ := hother j hj
    exact ⟨hheldj, hcntj, hzj⟩

end

/-- The free NaNs of a sample period with GSM: the sum and the halving of the downmix, and the gain (log 4). -/
def monoNaN (cfg : Config) (s : State) : Nat → Word
  | 0 => cfg.freeNaN s.freeIdx .downmix 0
  | 1 => cfg.freeNaN s.freeIdx .downmix 1
  | _ => cfg.freeNaN s.freeIdx (.gain 0) 0

theorem samplePeriod_gsm (cfg : Config) {s : State} (h : s.codec = .gsm) : samplePeriod cfg s = gsmPeriod cfg s := by
  rw [samplePeriod, h]

/-- The mono result in every active channel, on the state `HoldAndFilter` leaves (R151). -/
theorem gsmPeriod_spec (cfg : Config) (s : State) (hn : s.nch ≤ nchMax) :
    let low := lowCut cfg s (downmix cfg s)
    let r := holdAndFilter cfg (s.setLcz low.2.lcz) 0 low.1 (insertGsm cfg)
    let t := gsmPeriod cfg s
    (∀ ch, ch < s.nch → t.youtAt ch = r.1) ∧ (∀ ch, s.nch ≤ ch → t.youtAt ch = r.2.youtAt ch) ∧
      t = { r.2 with yout := t.yout } := by
  intro low r t
  have ht : t = (List.range s.nch).foldl (fun u ch => u.setYout ch r.1) r.2 := by
    simp only [t, r, low, gsmPeriod, ← lowCut_state]
  rw [ht]
  exact setYouts_spec r.2 r.1 s.nch hn

end Sys2Proof.Machine

namespace Sys2Proof

open Sys2Proof.Machine

/-- Settles O36: `DECIM` answers its `HoldAndFilter`, with the identity for the insert. -/
theorem decimHoldsAndFilters : Obligations.DecimHoldsAndFilters := by
  intro s ch x hp hn _ hch
  have hmax : ch < nchMax := hch.trans_le hn
  obtain ⟨hout, -, hheld, hcnt, hz0, hz1, hother⟩ := holdAndFilter_spec Config.lpc s ch x insertNone_keeps hmax
  refine ⟨_, _, exec_decim x hp hch, ⟨hout, hheld, hcnt.trans (nextCnt_eq _ _), fun k => ⟨hz0 k, hz1 k⟩⟩, hother, ?_⟩
  rw [holdAndFilter_insertNone_frame Config.lpc s x hmax]
  rfl

/-- Settles O37: at counter 0 the filtered sample is held, and with `D = 1` the counter is cleared. -/
theorem decimWithFactorOneIsADoubleFilter : Obligations.DecimWithFactorOneIsADoubleFilter := by
  intro s ch x hp hn hch hd hzero
  obtain ⟨hout, -, -, hcnt, -⟩ :=
    holdAndFilter_spec Config.lpc s ch x insertNone_keeps (show ch < nchMax from hch.trans_le hn)
  have hheld : heldNext Config.lpc s ch x insertNone = (cascadeChain Config.lpc s 0 ch x).1 := if_pos hzero
  rw [hheld, hd] at hout
  rw [hd, hzero] at hcnt
  exact ⟨_, _, exec_decim x hp hch, hcnt, hout⟩

/-- Settles O38: `WRX` answers the state with `XIN[ch]` stored, `RDY` the state as it was. -/
theorem wrxStoresAndRdyAnswers : Obligations.WrxStoresAndRdyAnswers := by
  intro s ch hp hn hch
  have hcheck := s.channelCheck_ok hp hch
  refine ⟨fun x => ⟨_, exec_of_check (i := .wrx ch x) hcheck, ?_, rfl, fun ch' hne => ?_, rfl⟩,
    ⟨_, exec_of_check (i := .rdy ch) hcheck, rfl, rfl⟩⟩
  · exact (State.xinAt_setXin s ch ch x).trans (if_pos ⟨rfl, hch.trans_le hn⟩)
  · exact (State.xinAt_setXin s ch ch' x).trans (if_neg fun h => hne h.1.symm)

/-- Settles O41, by the pass-through of each active channel. -/
theorem stepWithNoModulePassesThrough : Obligations.StepWithNoModulePassesThrough := by
  intro s hp hcodec hn
  have hstep := exec_step hp hn
  have hperiod : samplePeriod Config.lpc s = (List.range s.nch).foldl passChannel s := by rw [samplePeriod, hcodec]
  rw [hperiod] at hstep
  obtain ⟨hactive, hrest, hframe⟩ := passChannels_spec s s.nch hn
  refine ⟨_, hstep, rfl, hactive, hrest, ?_⟩
  rw [hframe]
  rfl

/-- Settles O42: a period over the active channels, each with the selected compander's insert; no VOX pair moves. -/
theorem stepWithACompanderRoundTripsTheLatchedSample :
    Obligations.StepWithACompanderRoundTripsTheLatchedSample := by
  intro s hp hcodec hn _
  have hstep := exec_step hp hn
  rw [samplePeriod_compander _ hcodec] at hstep
  obtain ⟨hdone, hsame, hframe⟩ := channels_spec Config.lpc (fun _ => companderInsert Config.lpc s.codec) s s.nch hn
    fun ch _ => companderInsert_channel Config.lpc s.codec ch
  refine ⟨_, hstep, rfl, fun ch hch => ?_, fun ch hch => ?_, ?_⟩
  · obtain ⟨hyout, hheld, hcnt, hz0, hz1, -⟩ := hdone ch hch
    exact ⟨⟨_, hyout⟩, hheld, hcnt.trans (nextCnt_eq _ _), fun k => ⟨hz0 k, hz1 k⟩⟩
  · have h := hsame ch hch
    exact ⟨h.yout, h.held, h.cnt, h.z⟩
  · rw [hframe, companders_vox Config.lpc s.codec s hn]
    rfl

/-- Settles O43: a period over the active channels, each with the VOX insert of its own pair. -/
theorem stepWithVoxRoundTripsTheLatchedSample : Obligations.StepWithVoxRoundTripsTheLatchedSample := by
  intro s hp hcodec hn _
  have hstep := exec_step hp hn
  rw [samplePeriod_vox _ hcodec] at hstep
  obtain ⟨hdone, hsame, hframe⟩ := channels_spec Config.lpc (insertVox Config.lpc) s s.nch hn
    fun ch hch => insertVox_channel Config.lpc (hch.trans_le hn)
  refine ⟨_, hstep, rfl, fun ch hch => ?_, fun ch hch => ?_, ?_⟩
  · have hmax : ch < nchMax := hch.trans_le hn
    obtain ⟨hyout, hheld, hcnt, hz0, hz1, hvox⟩ := hdone ch hch
    obtain ⟨-, henc, hdec, -⟩ :=
      insertVox_spec Config.lpc ch s (cascadeChain Config.lpc s 0 ch (s.xinAt ch)).1 hmax
    rw [heldNext_vox Config.lpc s (s.xinAt ch) hmax] at hyout hheld hz1
    have hvox0 := hvox 0
    have hvox1 := hvox 1
    rw [henc] at hvox0
    rw [hdec] at hvox1
    exact ⟨⟨_, hyout⟩, hheld, hvox0, hvox1, hcnt.trans (nextCnt_eq _ _), fun k => ⟨hz0 k, hz1 k⟩⟩
  · have h := hsame ch hch
    exact ⟨h.yout, h.held, h.cnt, h.vox, h.z⟩
  · rw [hframe]
    rfl

/-- Settles O44: `STEP` leaves the mono result in every active channel, on the state of channel 0's `HoldAndFilter`, and
that is the state of the frame engine but for the filters, the low cut, the counter and the held sample. -/
theorem stepWithGsmRunsTheMonoPath : Obligations.StepWithGsmRunsTheMonoPath := by
  intro s hp hcodec _ hn _
  have hstep := exec_step hp hn
  rw [samplePeriod_gsm _ hcodec] at hstep
  obtain ⟨hyout, hbeyond, hperiod⟩ := gsmPeriod_spec Config.lpc s hn
  obtain ⟨hout, hmono, hheld, hcnt, hz, hother⟩ := holdAndFilter_gsm Config.lpc s
    (lowCut Config.lpc s (downmix Config.lpc s)).2.lcz (lowCut Config.lpc s (downmix Config.lpc s)).1
  have hengine := engineNext_frame Config.lpc s
    (cascadeChain Config.lpc s 0 0 (lowCut Config.lpc s (downmix Config.lpc s)).1).1
  generalize gsmPeriod Config.lpc s = t at hstep hyout hbeyond hperiod
  generalize holdAndFilter Config.lpc _ 0 _ (insertGsm Config.lpc) = r at *
  have hframe : t = _ := hperiod.trans (congrArg (fun u : State => { u with yout := t.yout }) hmono)
  have hrz : t.z = r.2.z := by rw [hperiod]
  have hrcnt : t.cnt = r.2.cnt := by rw [hperiod]
  have hrheld : t.held = r.2.held := by rw [hperiod]
  refine ⟨t.answer 0#32, monoNaN Config.lpc s, hstep, rfl,
    ⟨fun ch hch => (hyout ch hch).trans hout, (heldAt_eq_of_held hrheld 0).trans hheld, ?_,
      (cntAt_eq_of_cnt hrcnt 0).trans (hcnt.trans (nextCnt_eq _ _)),
      fun k => ⟨(zAt_eq_of_z hrz 0 0 k).trans (hz k).1, (zAt_eq_of_z hrz 1 0 k).trans (hz k).2⟩, ?_⟩,
    fun ch hch => ?_, fun ch hch => (hbeyond ch hch).trans ?_, ?_⟩
  · show t.lcz = _
    rw [hframe]
    rfl
  · show t.buf = _ ∧ t.role = _ ∧ t.gidx = _ ∧ t.frame = _ ∧ t.gstate = _
    rw [hframe]
    exact ⟨rfl, rfl, rfl, rfl, rfl⟩
  · obtain ⟨hheldj, hcntj, hzj⟩ := hother ch hch
    exact ⟨(heldAt_eq_of_held hrheld ch).trans hheldj, (cntAt_eq_of_cnt hrcnt ch).trans hcntj,
      fun c k => (zAt_eq_of_z hrz c ch k).trans (hzj c k)⟩
  · rw [hmono, hengine]
    rfl
  · rw [hframe, hengine]
    rfl

end Sys2Proof

/-! SUPPORT and PROOFS. The VOX family of 42_vox_adpcm.md: `VOXDEC` (O46), `VOXENC` (O47), and the decoder that tracks
the encoder (O48). Each command passes its check and answers `voxDec` or `voxEnc`, whose pairs, frames and values are
said once in the laws of VOX; what is added here is the code's four bits as a number, and that one pair and one code
give both directions one reconstruction. -/

namespace Sys2Proof.Machine

/-! ## The code of the encoder (R165) -/

/-- Four bits, most significant first, as a number. -/
theorem toNat_ofBool_append₄ (b3 b2 b1 b0 : Bool) :
    (BitVec.ofBool b3 ++ BitVec.ofBool b2 ++ BitVec.ofBool b1 ++ BitVec.ofBool b0).toNat =
      (if b3 then 8 else 0) + (if b2 then 4 else 0) + (if b1 then 2 else 0) + (if b0 then 1 else 0) := by
  revert b3 b2 b1 b0
  decide

/-- The sign and the three tests by cumulative subtraction, as a number (R164, R165). -/
theorem voxCode_toNat (t : VoxTables) (st : VoxState) (v : Half) :
    let step := stepSize t st.idx
    let diff := v.toInt / 16 - st.pred
    let d0 := diff.natAbs
    let d1 := if step ≤ d0 then d0 - step else d0
    let d2 := if step / 2 ≤ d1 then d1 - step / 2 else d1
    (voxCode t st v).toNat = (if diff < 0 then 8 else 0) + (if step ≤ d0 then 4 else 0) +
      (if step / 2 ≤ d1 then 2 else 0) + (if step / 4 ≤ d2 then 1 else 0) := by
  intro step diff d0 d1 d2
  simp only [voxCode, quantize_eq, voxTest_fst, voxTest_snd, Nat.shiftRight_eq_div_pow, toNat_ofBool_append₄,
    decide_eq_true_eq]
  rfl

/-! ## What the commands answer (R165, R166) -/

theorem exec_voxenc {s : State} {ch : Nat} (v : Half) (hp : s.status.prepared = true) (hch : ch < s.nch) :
    exec (.voxenc ch v) s =
      .next ((voxEnc Config.lpc s ch v).2.answer (resU4 (voxEnc Config.lpc s ch v).1)) :=
  doVoxenc_ok Config.lpc v hp hch

theorem exec_voxdec {s : State} {ch : Nat} (code : BitVec 4) (hp : s.status.prepared = true) (hch : ch < s.nch) :
    exec (.voxdec ch code) s =
      .next ((voxDec Config.lpc s ch code).2.answer (resS16 (voxDec Config.lpc s ch code).1)) :=
  doVoxdec_ok Config.lpc code hp hch

/-- `VOXDEC` takes its code from bits 3:0 of the operand (R90), where `VOXENC` answers it. -/
theorem extractLsb'_resU4 (code : BitVec 4) : (resU4 code).extractLsb' 0 4 = code := by
  rw [resU4, ← BitVec.setWidth_eq_extractLsb' (by decide), BitVec.setWidth_setWidth_of_le _ (by decide),
    BitVec.setWidth_eq]

/-! ## The decoder tracks the encoder (R167) -/

/-- From equal pairs both directions reconstruct by the encoder's code, and neither touches the other's pair. -/
theorem voxDec_tracks_voxEnc (cfg : Config) {s : State} {ch : Nat} (v : Half) (w : Word) (hch : ch < nchMax)
    (heq : s.voxAt 0 ch = s.voxAt 1 ch) :
    let e := voxEnc cfg s ch v
    let d := voxDec cfg (e.2.answer w) ch e.1
    d.2.voxAt 0 ch = d.2.voxAt 1 ch ∧ d.1.toInt = 16 * (d.2.voxAt 0 ch).pred := by
  intro e d
  have hself : d.2.voxAt 1 ch = voxRecon cfg.vox (e.2.voxAt 1 ch) e.1 := voxDec_self cfg _ ch e.1 hch
  have hpair : d.2.voxAt 0 ch = d.2.voxAt 1 ch := by
    calc d.2.voxAt 0 ch
      _ = e.2.voxAt 0 ch := voxDec_other cfg _ ch e.1 0 ch (by omega)
      _ = voxRecon cfg.vox (s.voxAt 0 ch) e.1 := voxEnc_self cfg s ch v hch
      _ = voxRecon cfg.vox (e.2.voxAt 1 ch) e.1 := by rw [heq, voxEnc_other cfg s ch v 1 ch (by omega)]
      _ = d.2.voxAt 1 ch := hself.symm
  refine ⟨hpair, ?_⟩
  rw [hpair, hself, mul_comm]
  exact voxDec_value cfg _ ch e.1

end Sys2Proof.Machine

namespace Sys2Proof

open Sys2Proof.Machine

/-- Settles O46: `VOXDEC` answers `voxDec`, which leaves the reconstruction in the decoder's pair. -/
theorem voxdecReconstructs : Obligations.VoxdecReconstructs := by
  intro s ch code hp hn hch
  have hself := voxDec_self Config.lpc s ch code (hch.trans_le hn)
  obtain ⟨hpred, hidx⟩ := voxRecon_eq Config.lpc.vox (s.voxAt 1 ch) code
  rw [← hself] at hpred hidx
  refine ⟨_, stepSize Config.lpc.vox (s.voxAt 1 ch).idx, exec_voxdec code hp hch,
    ⟨stepSize_of_lt Config.lpc.vox, hpred, hidx, hself, ?_⟩, voxDec_other Config.lpc s ch code, rfl⟩
  rw [State.answer_rdata, resS16_toInt, voxDec_value, State.voxAt_answer, hself]

/-- Settles O47: `VOXENC` answers `voxEnc`, which leaves the reconstruction by its own code in the encoder's pair. -/
theorem voxencQuantizesAndTracks : Obligations.VoxencQuantizesAndTracks := by
  intro s ch v hp hn hch
  have hself := voxEnc_self Config.lpc s ch v (hch.trans_le hn)
  obtain ⟨hpred, hidx⟩ :=
    voxRecon_eq Config.lpc.vox (s.voxAt 0 ch) (voxCode Config.lpc.vox (s.voxAt 0 ch) v)
  rw [← hself] at hpred hidx
  exact ⟨_, voxCode Config.lpc.vox (s.voxAt 0 ch) v, stepSize Config.lpc.vox (s.voxAt 0 ch).idx,
    exec_voxenc v hp hch, rfl,
    ⟨stepSize_of_lt Config.lpc.vox, voxCode_toNat Config.lpc.vox (s.voxAt 0 ch) v, rfl, hpred, hidx, hself⟩,
    voxEnc_other Config.lpc s ch v, rfl⟩

/-- Settles O48: the code `VOXENC` answers is the operand `VOXDEC` reads, and the pairs stay equal. -/
theorem voxDecoderTracksTheEncoder : Obligations.VoxDecoderTracksTheEncoder := by
  intro s t u ch v hp hn hch heq henc hdec
  obtain rfl := Host.Outcome.next.inj (henc.symm.trans (exec_voxenc v hp hch))
  rw [State.answer_rdata, extractLsb'_resU4] at hdec
  obtain rfl := Host.Outcome.next.inj (hdec.symm.trans (exec_voxdec _ hp hch))
  obtain ⟨hpair, hvalue⟩ :=
    voxDec_tracks_voxEnc Config.lpc v (resU4 (voxEnc Config.lpc s ch v).1) (hch.trans_le hn) heq
  exact ⟨hpair, (resS16_toInt _).trans hvalue⟩

end Sys2Proof

/-! SUPPORT and PROOFS. The compander family of 43_companders.md: `ULENC` (O49), `ALENC` (O50), `ULDEC` and `ALDEC`
(O51), the monotonic segment (O52), and the re-encoding under the default records (O53). The segment search is said once
in the laws of the companders; what is added here is what it answers in each law's own inequality, and the packed byte
as a number. -/

namespace Sys2Proof.Machine

/-! ## Every compander command answers its function's value and nothing else (R180) -/

theorem exec_ulenc (pcm : Half) (s : State) :
    exec (.ulenc pcm) s = .next (s.answer (resU8 (ulEnc Config.lpc.ulaw pcm))) := rfl

theorem exec_alenc (pcm : Half) (s : State) :
    exec (.alenc pcm) s = .next (s.answer (resU8 (alEnc Config.lpc.alaw pcm))) := rfl

theorem exec_uldec (b : Byte) (s : State) :
    exec (.uldec b) s = .next (s.answer (resS16 (Config.lpc.ulaw.table b))) := rfl

theorem exec_aldec (b : Byte) (s : State) :
    exec (.aldec b) s = .next (s.answer (resS16 (Config.lpc.alaw.table b))) := rfl

/-! ## The segment (R184, R186, R189) -/

/-- Where some boundary is above the magnitude, the mu-law segment is the least whose boundary is. -/
theorem ulSeg_spec {r : Ulaw} {mag : Nat} (h : ∃ i, mag < r.bound i) :
    mag < r.bound (ulSeg r mag) ∧ ∀ i, i < ulSeg r mag → r.bound i ≤ mag := by
  obtain ⟨hadmits, hleast⟩ := leastSeg_spec (admits := fun i => decide (mag < r.bound i)) (free := r.noSeg mag)
    (h.imp fun _ hi => decide_eq_true hi)
  exact ⟨of_decide_eq_true hadmits, fun i hi => not_lt.mp (of_decide_eq_false (hleast i hi))⟩

/-- Where some boundary reaches the magnitude, the A-law segment is the least whose boundary does. -/
theorem alSeg_spec {r : Alaw} {mag : Nat} (h : ∃ i, mag ≤ r.sega i) :
    mag ≤ r.sega (alSeg r mag) ∧ ∀ i, i < alSeg r mag → r.sega i < mag := by
  obtain ⟨hadmits, hleast⟩ := leastSeg_spec (admits := fun i => decide (mag ≤ r.sega i)) (free := r.noSeg mag)
    (h.imp fun _ hi => decide_eq_true hi)
  exact ⟨of_decide_eq_true hadmits, fun i hi => not_le.mp (of_decide_eq_false (hleast i hi))⟩

/-- A boundary that admits the larger magnitude admits the smaller. -/
theorem ulSeg_mono (r : Ulaw) {m n : Nat} (hmn : m ≤ n) (h : ∃ i, n < r.bound i) : ulSeg r m ≤ ulSeg r n :=
  leastSeg_mono (fun _ hi => decide_eq_true (hmn.trans_lt (of_decide_eq_true hi)))
    (h.imp fun _ hi => decide_eq_true hi)

/-- A boundary that admits the larger magnitude admits the smaller. -/
theorem alSeg_mono (r : Alaw) {m n : Nat} (hmn : m ≤ n) (h : ∃ i, n ≤ r.sega i) : alSeg r m ≤ alSeg r n :=
  leastSeg_mono (fun _ hi => decide_eq_true (hmn.trans (of_decide_eq_true hi)))
    (h.imp fun _ hi => decide_eq_true hi)

/-! ## The encoded byte as a number -/

/-- R184, with the mantissa's shift as a division. -/
theorem ulEnc_eq (r : Ulaw) (pcm : Half) :
    let mag := ulMag r pcm
    let seg := ulSeg r mag
    ulEnc r pcm = BitVec.ofNat 8 ((if opS16 pcm < 0 then 0x80 else 0) + seg.val * 16 +
      mag / 2 ^ (seg.val + 3) % 16) ^^^ r.mask := by
  simp only [ulEnc, packByte_eq, decide_eq_true_eq, Nat.shiftRight_eq_div_pow]

/-- `pcm >> 3` as a floor division. -/
theorem alReduce_eq (pcm : Half) : alReduce pcm = pcm.toInt / 8 := by
  rw [alReduce, opS16, Int.shiftRight_eq_div_pow]
  norm_num

theorem alMag_eq (pcm : Half) :
    let v := pcm.toInt / 8
    alMag pcm = (if 0 ≤ v then v else -v - 1).toNat := by
  simp only [alMag, alReduce_eq]

/-- R186, with the mantissa's shifts as divisions. -/
theorem alEnc_eq (r : Alaw) (pcm : Half) :
    let mag := alMag pcm
    let seg := alSeg r mag
    alEnc r pcm = BitVec.ofNat 8 ((if 0 ≤ pcm.toInt / 8 then 0x80 else 0) + seg.val * 16 +
      (if seg.val < 2 then mag / 2 else mag / 2 ^ seg.val) % 16) ^^^ r.mask := by
  simp only [alEnc, packByte_eq, alReduce_eq, decide_eq_true_eq, Nat.shiftRight_eq_div_pow, pow_one]

/-! ## Re-encoding under the default records (V14) -/

/-- All 256 bytes, `0x7F` being the one whose reconstruction 0 has another code. -/
theorem ulEnc_ulDec_default (b : Byte) :
    ulEnc ulawDefault (ulDec ulawDefault b) = if b = 0x7F#8 then 0xFF#8 else b := by
  revert b
  decide

/-- All 256 bytes. -/
theorem alEnc_alDec_default (b : Byte) : alEnc alawDefault (alDec alawDefault b) = b := by
  revert b
  decide

end Sys2Proof.Machine

namespace Sys2Proof

open Sys2Proof.Machine

/-- Settles O49: `ULENC` answers `ulEnc`, whose segment is `ulSeg` of the clipped and biased magnitude. -/
theorem ulencPacksSignSegmentMantissa : Obligations.UlencPacksSignSegmentMantissa := fun s pcm =>
  ⟨_, ulSeg Config.lpc.ulaw (ulMag Config.lpc.ulaw pcm), exec_ulenc pcm s,
    ⟨ulSeg_spec, congrArg resU8 (ulEnc_eq Config.lpc.ulaw pcm)⟩, rfl⟩

/-- Settles O50: `ALENC` answers `alEnc`, whose segment is `alSeg` of the reduced magnitude. -/
theorem alencPacksSignSegmentMantissa : Obligations.AlencPacksSignSegmentMantissa := by
  intro s pcm
  refine ⟨_, alSeg Config.lpc.alaw (alMag pcm), exec_alenc pcm s, ?_, rfl⟩
  intro r v mag
  rw [show mag = alMag pcm from (alMag_eq pcm).symm]
  exact ⟨alSeg_spec, congrArg resU8 (alEnc_eq Config.lpc.alaw pcm)⟩

/-- Settles O52: a boundary that admits the larger magnitude admits the smaller, in both laws. -/
theorem segmentIsMonotonicInMagnitude : Obligations.SegmentIsMonotonicInMagnitude :=
  ⟨fun r _ _ => ulSeg_mono r, fun r _ _ => alSeg_mono r⟩

/-- Settles O51: both decoders answer their table's entry, and the result's extension keeps its value. -/
theorem companderDecodersReadTheirTables : Obligations.CompanderDecodersReadTheirTables := fun s b =>
  ⟨⟨_, exec_uldec b s, resS16_toInt _, rfl⟩, ⟨_, exec_aldec b s, resS16_toInt _, rfl⟩⟩

/-- Settles O53: over all bytes, law by law. -/
theorem defaultCompandersReencodeTheirBytes : Obligations.DefaultCompandersReencodeTheirBytes := fun b =>
  ⟨ulEnc_ulDec_default b, alEnc_alDec_default b⟩

end Sys2Proof

/-! SUPPORT and PROOFS. The GSM frame of 44_gsm_frame.md: the low cut (O45), a `GSMPUSH` before the buffer is full (O54)
and the one that fills it (O55), and the whole frame of 160 pushes (O56). What one push does is said in the laws of the
frame engine; the frame is an induction over the pushes, whose invariant `Filling` is kept by O54 and closed by O55. -/

namespace Sys2Proof.Machine

/-! ## `LowCut` (R209) -/

theorem lowCut_none {cfg : Config} (h : cfg.lowcut = none) (s : State) (m : Word) : lowCut cfg s m = (m, s) := by
  simp only [lowCut, h]

theorem lowCut_some {cfg : Config} {q : Coef} (h : cfg.lowcut = some q) (s : State) (m : Word) :
    let r := biquad (cfg.freeNaN s.freeIdx .lowcut) q s.lcz m
    lowCut cfg s m = (r.1, s.setLcz r.2) := by
  simp only [lowCut, h]

/-! ## `GSMPUSH` (R203) -/

theorem exec_gsmpush (v : BitVec 13) (s : State) :
    exec (.gsmpush v) s =
      .next ((gsmPush Config.lpc s v).2.answer (resS16 (gsmPush Config.lpc s v).1)) := rfl

/-- A push answers the output buffer's sample at `GIDX`, whether or not it fills the input buffer. -/
theorem gsmpush_rdata {s t : State} {v : BitVec 13} (h : exec (.gsmpush v) s = .next t) :
    t.rdata.toInt = (s.bufAt s.role.rout s.gidx).toInt := by
  obtain rfl := Host.Outcome.next.inj ((exec_gsmpush v s).symm.trans h)
  rw [State.answer_rdata, resS16_toInt, gsmPush_out]

/-- The sample lands at `GIDX` of the input buffer as `8 * v` (R202). -/
theorem gsmStore_bufAt_self (s : State) (v : BitVec 13) :
    ((gsmStore s (workWord v)).bufAt s.role.rin s.gidx).toInt = 8 * v.toInt := by
  rw [gsmStore_bufAt, if_pos ⟨rfl, rfl⟩, workWord_toInt]

theorem gsmStore_bufAt_other (s : State) (w : Half) {p i : Nat} (h : ¬ (p = s.role.rin.val ∧ i = s.gidx.val)) :
    (gsmStore s w).bufAt p i = s.bufAt p i := by
  rw [gsmStore_bufAt, if_neg h]

/-- The round trip leaves the decoded frame in the buffer that was the input buffer. -/
theorem gsmRoundTrip_bufAt_self (cfg : Config) (s : State) (i : Nat) :
    let e := cfg.gsm.encode s.gstate s.buf[s.role.rin]
    (gsmRoundTrip cfg s).bufAt s.role.rin i = vget (cfg.gsm.decode e.1 e.2).2 i := by
  rw [gsmRoundTrip_bufAt, if_pos rfl]

theorem gsmRoundTrip_bufAt_other (cfg : Config) (s : State) {p : Nat} (i : Nat) (h : p ≠ s.role.rin.val) :
    (gsmRoundTrip cfg s).bufAt p i = s.bufAt p i := by
  rw [gsmRoundTrip_bufAt, if_neg h]

end Sys2Proof.Machine

namespace Sys2Proof

open Sys2Proof.Machine

/-- Settles O45, by whether `LOWCUT` is absent. -/
theorem lowCutIsAbsentOrOneSection : Obligations.LowCutIsAbsentOrOneSection := fun cfg s m =>
  ⟨fun h => lowCut_none h s m, fun _ h => ⟨cfg.freeNaN s.freeIdx .lowcut, lowCut_some h s m⟩⟩

/-- Settles O54: below 159 a push is its store and the next index. -/
theorem gsmpushBeforeTheFrameIsFull : Obligations.GsmpushBeforeTheFrameIsFull := by
  intro s v h
  have hexec := exec_gsmpush v s
  have hrdata := gsmpush_rdata hexec
  rw [gsmPush_early Config.lpc s v (Nat.succ_lt_succ h)] at hexec hrdata
  exact ⟨_, hexec, hrdata, gsmStore_bufAt_self s v, fun _ _ hpi => gsmStore_bufAt_other s _ hpi, rfl, rfl⟩

/-- Settles O55: at 159 a push is its store and one round trip of the buffer it filled. -/
theorem gsmpushOfTheLastSampleRoundTrips : Obligations.GsmpushOfTheLastSampleRoundTrips := by
  intro s v h
  have hexec := exec_gsmpush v s
  have hrdata := gsmpush_rdata hexec
  have hlast := gsmStore_bufAt_self s v
  rw [h] at hrdata hlast
  rw [gsmPush_last Config.lpc s v h] at hexec hrdata
  have hfull {i : Nat} (hi : i < 160) : (gsmStore s (workWord v)).buf[s.role.rin][i] =
      (gsmStore s (workWord v)).bufAt s.role.rin i := (bufAt_lt _ s.role.rin.isLt hi).symm
  refine ⟨_, (gsmStore s (workWord v)).buf[s.role.rin], hexec, hrdata, ?_, fun i hi => ?_,
    ⟨rfl, rfl, fun i hi => ?_⟩, fun p i hp => ?_, rfl, rfl, rfl⟩
  · rw [hfull (by decide), hlast]
  · rw [hfull (by omega)]
    exact gsmStore_bufAt_other s _ fun ⟨_, he⟩ => by omega
  · exact (gsmRoundTrip_bufAt_self Config.lpc (gsmStore s (workWord v)) i).trans (vget_of_lt _ i hi)
  · exact (gsmRoundTrip_bufAt_other Config.lpc (gsmStore s (workWord v)) i hp).trans
      (gsmStore_bufAt_other s _ fun ⟨hrin, _⟩ => hp hrin)

end Sys2Proof

namespace Sys2Proof.Machine

/-! ## The frame being filled (R206) -/

/-- `t` is `s` after the pushes of `v 0, …, v (n - 1)` into an empty input buffer that they did not fill. -/
structure Filling (s : State) (v : Nat → BitVec 13) (n : Nat) (t : State) : Prop where
  gidx : t.gidx.val = n
  role : t.role = s.role
  frame : t.frame = s.frame
  gstate : t.gstate = s.gstate
  stored : ∀ i < n, (t.bufAt s.role.rin i).toInt = 8 * (v i).toInt
  others : ∀ p i, p ≠ s.role.rin.val → t.bufAt p i = s.bufAt p i

section
variable {s t u : State} {v : Nat → BitVec 13} {n : Nat}

theorem filling_zero (h : s.gidx = 0) : Filling s v 0 s :=
  ⟨by rw [h]; rfl, rfl, rfl, rfl, fun i hi => absurd hi i.not_lt_zero, fun _ _ _ => rfl⟩

/-- A push that does not fill the buffer appends its sample (O54). -/
theorem Filling.push (h : Filling s v n t) (hn : n < 159) (hu : exec (.gsmpush (v n)) t = .next u) :
    Filling s v (n + 1) u := by
  obtain ⟨_, hexec, -, hself, hother, hgidx, hframe⟩ :=
    Sys2Proof.gsmpushBeforeTheFrameIsFull t (v n) (by rw [h.gidx]; exact hn)
  obtain rfl := Host.Outcome.next.inj (hexec.symm.trans hu)
  rw [h.gidx, h.role] at hself hother
  refine ⟨by rw [hgidx, h.gidx], (congrArg State.role hframe).trans h.role,
    (congrArg State.frame hframe).trans h.frame, (congrArg State.gstate hframe).trans h.gstate,
    fun i hi => ?_, fun p i hp => ?_⟩
  · rcases Nat.lt_succ_iff_lt_or_eq.mp hi with hlt | rfl
    · rw [hother _ _ fun ⟨_, he⟩ => by omega]
      exact h.stored i hlt
    · exact hself
  · rw [hother _ _ fun ⟨he, _⟩ => hp he]
    exact h.others p i hp

/-- Each push, the last one too, answers the old output buffer (R203). -/
theorem Filling.rdata (h : Filling s v n t) (hne : s.role.rin ≠ s.role.rout)
    (hu : exec (.gsmpush (v n)) t = .next u) : u.rdata.toInt = (s.bufAt s.role.rout n).toInt := by
  rw [gsmpush_rdata hu, h.role, h.gidx, h.others _ _ fun he => hne (Fin.ext he.symm)]

/-- A run of pushes from an empty input buffer fills it up to the last entry. -/
theorem filling_run {run : Nat → State} (hgidx : s.gidx = 0) (hzero : run 0 = s)
    (hrun : ∀ n, exec (.gsmpush (v n)) (run n) = .next (run (n + 1))) : ∀ n < 160, Filling s v n (run n) := by
  intro n
  induction n with
  | zero =>
    rw [hzero]
    exact fun _ => filling_zero hgidx
  | succ n ih => exact fun hn => (ih (by omega)).push (by omega) (hrun n)

end

end Sys2Proof.Machine

namespace Sys2Proof

open Sys2Proof.Machine

/-- Settles O56: 159 pushes fill the buffer but for its last entry, and the 160th is O55's. -/
theorem gsmFrameTakesExactly160Pushes : Obligations.GsmFrameTakesExactly160Pushes := by
  intro s v run hgidx hne hzero hrun
  have hfilling := filling_run hgidx hzero hrun
  have h159 := hfilling 159 (by decide)
  obtain ⟨_, full, hexec, -, hlast, hfull, hframe, -, hrole, hgidx', -⟩ :=
    gsmpushOfTheLastSampleRoundTrips (run 159) (v 159) h159.gidx
  obtain rfl := Host.Outcome.next.inj (hexec.symm.trans (hrun 159))
  rw [h159.role] at hfull hrole hframe
  rw [h159.gstate] at hframe
  obtain ⟨hcoded, hgstate, hdecoded⟩ := hframe
  refine ⟨fun n hn => (hfilling n hn).rdata hne (hrun n),
    fun n hn => ⟨(hfilling n hn).role, (hfilling n hn).frame, (hfilling n hn).gstate⟩, hrole, hgidx',
    full, fun i hi => ?_, hcoded, hgstate, ?_⟩
  · rcases Nat.lt_succ_iff_lt_or_eq.mp hi with hlt | rfl
    · rw [hfull i hlt, h159.stored i hlt]
    · exact hlast
  · rw [hrole]
    exact hdecoded

end Sys2Proof

/-! SUPPORT and PROOFS. The module control of 45_module_control.md: `NOP` and `GETPAR` (O19), `SETPAR` (O21), `SETORD`
(O22), `SETCODEC` (O23) and `RESET` (O24). `SETPAR`, `SETORD` and a new selection all end in a rebuild on change, whose
two ways are said here once (`rebuildIf_keeps`, `rebuildIf_redesigns`); what `ResetState` leaves is `PerSampleCleared`,
and a rebuild on change keeps it. -/

namespace Sys2Proof.Machine

/-! ## The parameter word (R94, R226) -/

/-- The sum of R94 is the disjunction of R226: `d` has no bit where the shifted `mode` has one. -/
theorem resPar_eq_or (mode : Nat) {d : Nat} (hd : d < 2 ^ 16) :
    resPar mode d = (BitVec.ofNat 32 mode <<< 16) ||| BitVec.ofNat 32 d := by
  have hdisjoint : (BitVec.ofNat 32 mode <<< 16) &&& BitVec.ofNat 32 d = 0#32 := by
    ext i hi
    by_cases h : i < 16
    · simp [h]
    · have hbit : d.testBit i = false :=
        Nat.testBit_lt_two_pow (hd.trans_le (Nat.pow_le_pow_right Nat.two_pos (Nat.not_lt.mp h)))
      simp [← BitVec.getLsbD_eq_getElem, BitVec.getLsbD_ofNat, hbit]
  rw [← BitVec.add_eq_or_of_and_eq_zero _ _ hdisjoint, BitVec.shiftLeft_eq_mul_twoPow, resPar, BitVec.ofNat_add,
    BitVec.ofNat_mul]
  rfl

/-! ## The checks of `SETORD` and `SETPAR` (R225, R227) -/

theorem setordCheck_ok {order : Word} (heven : order.toNat % 2 = 0) (hmin : 2 ≤ order.toNat)
    (hmax : order.toNat ≤ 16) : setordCheck order = none :=
  if_neg (by simp only [nsecMax]; omega)

theorem setparCheck_ok {mode d : BitVec 16} (hd : 1 ≤ d.toNat) (hd8 : d.toNat ≤ 8) (hm : 1 ≤ mode.toNat)
    (hm4 : mode.toNat ≤ 4) : setparCheck mode d = none :=
  if_neg (by omega)

/-! ## A rebuild on change (R118, R119) -/

theorem State.rebuildIf_keeps (cfg : Config) {changed : Bool} {s : State}
    (h : changed = false ∨ s.status.prepared = false) :
    let t := s.rebuildIf cfg changed
    t.coef = s.coef ∧ t.z = s.z ∧ t.lcz = s.lcz := by
  intro t
  have ht : t = s := if_neg (by rcases h with h | h <;> simp [h])
  rw [ht]
  exact ⟨rfl, rfl, rfl⟩

/-- R118 entry by entry: the design below `ORDER / 2`, five `+0.0` from there on, every delay line cleared. -/
theorem State.rebuildIf_redesigns (cfg : Config) {changed : Bool} {s : State} (hc : changed = true)
    (hp : s.status.prepared = true) :
    let t := s.rebuildIf cfg changed
    (∀ k (h : k < s.order / 2), k < nsecMax → t.coefAt k = (cfg.design s.fs s.d s.order)[k]) ∧
    (∀ k, s.order / 2 ≤ k → k < nsecMax → t.coefAt k = Coef.zero) ∧
    (∀ c ch k, t.zAt c ch k = Delay.zero) ∧ t.lcz = Delay.zero := by
  intro t
  have ht : t = s.rebuild cfg := if_pos (by simp [hc, hp])
  rw [ht]
  exact ⟨State.designedCoef_lt cfg s.fs s.d s.order, State.designedCoef_ge cfg s.fs s.d s.order, s.zAt_rebuild cfg, rfl⟩

theorem State.answer_rebuildIf_frame (cfg : Config) (changed : Bool) (s : State) (w : Word) :
    let t := (s.rebuildIf cfg changed).answer w
    t = { s with coef := t.coef, z := t.z, lcz := t.lcz, rdata := t.rdata, freeIdx := t.freeIdx } := by
  rw [State.rebuildIf_frame]
  rfl

/-! ## `ResetState` (R223) -/

/-- Every delay line and all per-sample state is at its reset value, over all storage (R223). -/
structure PerSampleCleared (cfg : Config) (t : State) : Prop where
  z : ∀ c ch k, t.zAt c ch k = Delay.zero
  lcz : t.lcz = Delay.zero
  channels : ∀ ch, t.cntAt ch = 0#4 ∧ t.heldAt ch = 0#32
  vox : ∀ dir ch, t.voxAt dir ch = ⟨0, 0⟩
  buf : ∀ p i, t.bufAt p i = 0#16
  role : t.role = ⟨0, 1, 2⟩
  gidx : t.gidx = 0
  frame : ∀ i, t.frameAt i = 0#8
  gstate : t.gstate = cfg.gsm.init

theorem perSampleCleared_resetState (cfg : Config) (s : State) : PerSampleCleared cfg (s.resetState cfg) where
  z := s.zAt_resetState cfg
  lcz := rfl
  channels ch := ⟨s.cntAt_resetState cfg ch, s.heldAt_resetState cfg ch⟩
  vox := s.voxAt_resetState cfg
  buf := s.bufAt_resetState cfg
  role := rfl
  gidx := rfl
  frame := s.frameAt_resetState cfg
  gstate := rfl

theorem PerSampleCleared.rebuildIf {cfg : Config} {s : State} (h : PerSampleCleared cfg s) (changed : Bool) :
    PerSampleCleared cfg (s.rebuildIf cfg changed) := by
  unfold State.rebuildIf
  split
  · exact { h with z := s.zAt_rebuild cfg, lcz := rfl }
  · exact h

/-! ## `SETCODEC` (R222) -/

/-- The module a new selection constructs, before it is prepared (R222). -/
def State.freshModule (cfg : Config) (new : Codec) (s : State) : State :=
  ({ s with codec := new } : State).resetState cfg

theorem selectCodec_eq_freshModule (cfg : Config) {new : Codec} {s : State} (h : new ≠ s.codec) :
    selectCodec cfg new s = (s.freshModule cfg new).rebuildIf cfg true := selectCodec_new cfg h

theorem perSampleCleared_freshModule (cfg : Config) (new : Codec) (s : State) :
    PerSampleCleared cfg (s.freshModule cfg new) := perSampleCleared_resetState cfg { s with codec := new }

/-- The effective selection as a number: an unknown id is no module (R28, R222). -/
theorem codecNum_codecOfId (id : Word) :
    codecNum (codecOfId id) = if 1 ≤ id.toNat ∧ id.toNat ≤ 4 then id.toNat else 0 := by
  unfold codecOfId
  split
  case h_5 h1 h2 h3 h4 =>
    have hunknown : ¬ (1 ≤ id.toNat ∧ id.toNat ≤ 4) := by
      rintro ⟨hpos, hle⟩
      interval_cases id.toNat <;> contradiction
    rw [if_neg hunknown]
    rfl
  all_goals next h => rw [h]; rfl

theorem codecNum_injective : Function.Injective codecNum :=
  Function.LeftInverse.injective (g := fun n => codecOfId (BitVec.ofNat 32 n)) fun c => by cases c <;> rfl

theorem selectCodec_codec (cfg : Config) (new : Codec) (s : State) : (selectCodec cfg new s).codec = new := by
  by_cases h : new = s.codec
  · rw [h, selectCodec_same]
  · rw [selectCodec_new cfg h, State.rebuildIf_frame]
    rfl

end Sys2Proof.Machine

namespace Sys2Proof

open Sys2Proof.Machine

/-- Settles O19: neither command has a check, and each answers the state it is given. -/
theorem nopAndGetparOnlyAnswer : Obligations.NopAndGetparOnlyAnswer := by
  intro s
  exact ⟨⟨_, exec_of_check (i := .nop) rfl, rfl, rfl⟩,
    fun hd => ⟨_, exec_of_check (i := .getpar) rfl, resPar_eq_or s.mode hd, rfl⟩⟩

/-- Settles O24: `RESET` answers `ResetState`. -/
theorem resetClearsThePerSampleState : Obligations.ResetClearsThePerSampleState := by
  intro s
  obtain ⟨hz, hlcz, hchannels, hvox, hbuf, hrole, hgidx, hframe, hgstate⟩ := perSampleCleared_resetState Config.lpc s
  exact ⟨_, exec_of_check (i := .reset) rfl, rfl, hz, hlcz, hchannels, hvox, hbuf, hrole, hgidx, hframe, hgstate, rfl⟩

/-- Settles O21: the check passes, so `SETPAR` answers the rebuild on change of the state with both fields stored. -/
theorem setparStoresAndRebuildsOnChange : Obligations.SetparStoresAndRebuildsOnChange := by
  intro s mode d hd hd8 hm hm4
  have hframe := State.answer_rebuildIf_frame Config.lpc (d.toNat != s.d)
    { s with d := d.toNat, mode := mode.toNat } resNone
  refine ⟨_, exec_of_check (i := .setpar mode d) (setparCheck_ok hd hd8 hm hm4), congrArg State.d hframe,
    congrArg State.mode hframe, rfl, fun hkept => ?_, fun hne hp => ?_, hframe⟩
  · exact State.rebuildIf_keeps Config.lpc (hkept.imp_left bne_eq_false_iff_eq.mpr)
  · exact State.rebuildIf_redesigns Config.lpc (s := { s with d := d.toNat, mode := mode.toNat })
      (bne_iff_ne.mpr hne) hp

/-- Settles O22: the check passes, so `SETORD` answers the rebuild on change of the state with the order stored; at most
order 16, every designed section is within the storage. -/
theorem setordStoresAndRebuildsOnChange : Obligations.SetordStoresAndRebuildsOnChange := by
  intro s order heven hmin hmax
  have hframe := State.answer_rebuildIf_frame Config.lpc (order.toNat != s.order)
    { s with order := order.toNat } resNone
  refine ⟨_, exec_of_check (i := .setord order) (setordCheck_ok heven hmin hmax), congrArg State.order hframe, rfl,
    fun hkept => ?_, fun hne hp => ?_, hframe⟩
  · exact State.rebuildIf_keeps Config.lpc (hkept.imp_left bne_eq_false_iff_eq.mpr)
  · obtain ⟨hdesign, hrest⟩ := State.rebuildIf_redesigns Config.lpc (s := { s with order := order.toNat })
      (bne_iff_ne.mpr hne) hp
    exact ⟨fun k hk => hdesign k hk (hk.trans_le (Nat.div_le_div_right hmax)), hrest⟩

/-- Settles O23: selections are equal as numbers exactly when they are equal, and a new one is the fresh
module, rebuilt on a prepared unit. -/
theorem setcodecKeepsOrReplacesTheModule : Obligations.SetcodecKeepsOrReplacesTheModule := by
  intro s id new
  have hnew : codecNum (codecOfId id) = new := codecNum_codecOfId id
  refine ⟨_, exec_of_check (i := .setcodec id) rfl,
    (congrArg codecNum (selectCodec_codec Config.lpc (codecOfId id) s)).trans hnew, rfl, fun hsame => ?_, fun hne => ?_⟩
  · have hcodec : codecOfId id = s.codec := codecNum_injective (hnew.trans hsame)
    simp only [workOf, hcodec, selectCodec_same]
    rfl
  · have hcodec : codecOfId id ≠ s.codec := fun h => hne (hnew.symm.trans (congrArg codecNum h))
    obtain ⟨hz, hlcz, hchannels, hvox, hbuf, hrole, hgidx, hframe, hgstate⟩ :=
      (perSampleCleared_freshModule Config.lpc (codecOfId id) s).rebuildIf true
    simp only [workOf, selectCodec_eq_freshModule Config.lpc hcodec]
    refine ⟨hz, hlcz, hchannels, hvox, hbuf, hrole, hgidx, hframe, hgstate, fun hp => ?_, fun hp => ?_, ?_⟩
    · exact (State.rebuildIf_keeps Config.lpc (s := s.freshModule Config.lpc (codecOfId id)) (.inr hp)).1
    · obtain ⟨hdesign, hrest, -⟩ :=
        State.rebuildIf_redesigns Config.lpc (s := s.freshModule Config.lpc (codecOfId id)) rfl hp
      exact ⟨hdesign, hrest⟩
    · rw [State.rebuildIf_frame]
      rfl

end Sys2Proof

/-! SUPPORT and PROOFS. The faults of 60_exceptions.md: every command completes (O9), a recorded fault stays (O10) and
faults are precise (O11), each by the two ways a command ends (`exec_cases`, `step_cases`); and which check refuses
what: a command before `PREPARE` (O14), a channel (O15), a section (O16), a configuration (O17). The seven commands that
name a channel check it first, so their faults on it are said once (`exec_faults_of_channelCheck`). -/

namespace Sys2Proof.Machine

/-! ## A fault, once recorded (R252, R256) -/

theorem Status.raise_of_fault {st : Status} (h : st.fault = true) (c : Cause) : st.raise c = st := by
  obtain ⟨prepared, fault, cause⟩ := st
  obtain rfl : fault = true := h
  rfl

/-- A command's work neither records a fault nor clears one. -/
theorem workOf_fault (cfg : Config) (s : State) (i : Instr) :
    (workOf cfg s i).1.status.fault = s.status.fault ∧ (workOf cfg s i).1.status.cause = s.status.cause := by
  rcases workOf_status cfg s i with h | ⟨-, h⟩ <;> simp [h]

/-! ## Every command completes (R264) -/

theorem exec_completes (i : Instr) (s : State) : ∃ t, exec i s = .next t := ⟨_, exec_eq i s⟩

/-! ## The checks on a channel (R251, R253) -/

/-- The channel a command names, for the commands that check it. -/
def channelOf : Instr → Option Nat
  | .apply _ ch _ _ | .cascade _ ch _ | .decim ch _ | .wrx ch _ | .rdy ch | .voxenc ch _ | .voxdec ch _ => some ch
  | .nop | .prepare _ _ | .setord _ | .setpar _ _ | .getpar | .setcodec _ | .reset | .rdreg _ | .step | .ulenc _
  | .uldec _ | .alenc _ | .aldec _ | .gsmpush _ => none

section
variable {s : State} {c ch k : Nat}

theorem applyCheck_of_channelCheck {e : Cause} (h : s.channelCheck ch = some e) (c k : Nat) :
    applyCheck s c ch k = some e := by simp only [applyCheck, h]

theorem cascadeCheck_of_channelCheck {e : Cause} (h : s.channelCheck ch = some e) (c : Nat) :
    cascadeCheck s c ch = some e := by simp only [cascadeCheck, h]

/-- A command's check on its channel comes before its check on the chain and the section. -/
theorem exec_faults_of_channelCheck {i : Instr} {e : Cause} (hi : channelOf i = some ch)
    (h : s.channelCheck ch = some e) : FaultsWith (exec i s) s e.code := by
  refine exec_faults ?_
  cases i with
  | apply c ch' k x =>
    obtain rfl := Option.some.inj hi
    exact applyCheck_of_channelCheck h c k
  | cascade c ch' x =>
    obtain rfl := Option.some.inj hi
    exact cascadeCheck_of_channelCheck h c
  | decim | wrx | rdy | voxenc | voxdec =>
    obtain rfl := Option.some.inj hi
    exact h
  | _ => cases hi

/-! ## The checks on a chain and a section (R116, R117) -/

theorem applyCheck_beyond (h : s.channelCheck ch = none) (hk : 1 < c ∨ s.nsec ≤ k) :
    applyCheck s c ch k = some .badSection := by
  simp only [applyCheck, h]
  exact if_pos hk

theorem cascadeCheck_beyond (h : s.channelCheck ch = none) (hc : 1 < c) : cascadeCheck s c ch = some .badSection := by
  simp only [cascadeCheck, h]
  exact if_pos hc

/-! ## The checks of `STEP` (R150, R151) -/

theorem stepCheck_unprepared (hp : s.status.prepared = false) : stepCheck s = some .notPrepared := if_pos hp

theorem stepCheck_gsm (hp : s.status.prepared = true) (hcodec : s.codec = .gsm) (hn : 2 < s.nch) :
    stepCheck s = some .badConfig := by simp [stepCheck, hp, hcodec, hn]

end

end Sys2Proof.Machine

namespace Sys2Proof

open Sys2Proof.Machine

/-- Settles O9: a command is a check and a state, and a step is no command, an illegal word or a command. -/
theorem everyCommandCompletes : Obligations.EveryCommandCompletes := by
  refine ⟨exec_completes, fun s => ?_⟩
  cases hs : s.stream[s.pc]? with
  | none => exact ⟨_, step_none hs⟩
  | some w =>
    cases hd : decode w with
    | error e => exact ⟨_, step_illegal hs hd⟩
    | ok i =>
      rw [step_ok hs hd]
      exact exec_completes i s.advance

/-- Settles O10: a second fault leaves `STATUS` as it is, and no command's work touches `FAULT` or `CAUSE`. -/
theorem faultFlagAndFirstCauseAreSticky : Obligations.FaultFlagAndFirstCauseAreSticky := by
  intro s t hstep hf
  rcases step_cases hstep with rfl | ⟨c, rfl⟩ | ⟨i, -, rfl⟩
  · exact ⟨hf, rfl⟩
  · rw [State.raise_status, State.advance_status, Status.raise_of_fault hf]
    exact ⟨hf, rfl⟩
  · obtain ⟨hfault, hcause⟩ := workOf_fault Config.lpc s.advance i
    exact ⟨hfault.trans hf, hcause⟩

/-- Settles O11: a command whose check passes leaves `FAULT` at 0, so the command faulted with its check's cause. -/
theorem faultsArePrecise : Obligations.FaultsArePrecise := by
  intro i s t h hclear hset
  rcases exec_cases h with ⟨c, hc, -⟩ | ⟨-, rfl⟩
  · exact ⟨c, exec_faults hc⟩
  · have hkept : s.status.fault = true := (workOf_fault Config.lpc s i).1.symm.trans hset
    exact absurd (hclear.symm.trans hkept) Bool.false_ne_true

/-- Settles O14: `NOT_PREPARED` is the first check of the seven commands on a channel, and of `STEP`. -/
theorem processingBeforePrepareFaults : Obligations.ProcessingBeforePrepareFaults := by
  intro s hp
  have hfault {i : Instr} {ch : Nat} (hi : channelOf i = some ch) : FaultsWith (exec i s) s 2#4 :=
    exec_faults_of_channelCheck hi (s.channelCheck_unprepared hp)
  exact ⟨fun _ _ _ _ => hfault rfl, fun _ _ _ => hfault rfl, fun _ _ => hfault rfl, fun _ _ => hfault rfl,
    fun _ => hfault rfl, exec_faults (i := .step) (stepCheck_unprepared hp), fun _ _ => hfault rfl,
    fun _ _ => hfault rfl⟩

/-- Settles O15: on a prepared unit the check on the channel refuses it, before any other operand is looked at. -/
theorem channelBeyondTheCountFaults : Obligations.ChannelBeyondTheCountFaults := by
  intro s ch hp hch
  have hfault {i : Instr} (hi : channelOf i = some ch) : FaultsWith (exec i s) s 3#4 :=
    exec_faults_of_channelCheck hi (s.channelCheck_beyond hp hch)
  exact ⟨fun _ _ _ => hfault rfl, fun _ _ => hfault rfl, fun _ => hfault rfl, fun _ => hfault rfl, hfault rfl,
    fun _ => hfault rfl, fun _ => hfault rfl⟩

/-- Settles O16: the channel passes, and the chain or the section does not. -/
theorem sectionBeyondTheOrderFaults : Obligations.SectionBeyondTheOrderFaults := by
  intro s c ch x hp hch
  have hchannel := s.channelCheck_ok hp hch
  exact ⟨fun k hk => exec_faults (i := .apply c ch k x) (applyCheck_beyond hchannel hk),
    fun hc => exec_faults (i := .cascade c ch x) (cascadeCheck_beyond hchannel hc)⟩

/-- Settles O17: the premises are the refusing conditions of the four checks. -/
theorem unusableConfigurationFaults : Obligations.UnusableConfigurationFaults :=
  ⟨fun _ nch fs h => exec_faults (i := .prepare nch fs) (if_pos h),
    fun _ order h => exec_faults (i := .setord order) (if_pos h),
    fun _ mode d h => exec_faults (i := .setpar mode d) (if_pos h),
    fun _ hp hcodec hn => exec_faults (i := .step) (stepCheck_gsm hp hcodec hn)⟩

end Sys2Proof
